-- ==== Sys2Proof/Word.lean ====
section
/-! DEFINITION. Sys2Proof/Word.lean: the widths of the core's values (00_scope.md R7, R8, R9; 30_encoding.md R55).
Every value is unsigned; bit 0 is the least significant bit. -/

namespace Sys2Proof

/-- A memory byte, a general register or a timer: 8 bits (R7). -/
abbrev Byte := BitVec 8

/-- An instruction word, `I`, `PC` or a return address: 16 bits (R7). -/
abbrev Word := BitVec 16

/-- A register index `x`, `y` or a count `n`: one nibble of the instruction word (R55). -/
abbrev Nibble := BitVec 4

/-- The address field `nnn`: 12 bits (R55). -/
abbrev Addr12 := BitVec 12

end Sys2Proof
end

