-- ==== Sys2Proof/Config.lean ====
section
/-! DEFINITION. Sys2Proof/Config.lean: the constants and the named parameters of 00_scope.md R7, with this spec's value
of each parameter, and the two free values of the model: the initial memory image (20_memory.md R40) and the random
bytes (40_cycle_and_host.md R83). -/

namespace Sys2Proof

/-- `MEM_SIZE` (R7): addresses 0x000 to 0xFFF. -/
@[simp] def memSize : Nat := 4096

/-- `PROG_BASE` (R7): where a program is loaded, and the reset value of `PC`. -/
@[simp] def progBase : Nat := 0x200

/-- `PROG_MAX` (R7): the longest program. -/
@[simp] def progMax : Nat := 3584

/-- The size of the font: 16 glyphs of 5 bytes (R7, `GLYPHS`). -/
@[simp] def fontSize : Nat := 80

/-- `TIMER_MODE` (R7, D2). -/
inductive TimerMode where
  | perTick
  | separate
deriving DecidableEq, Repr

/-- `SYS_POLICY` (R7, D5). -/
inductive SysPolicy where
  | nop
  | unknown
deriving DecidableEq, Repr

/-- `ADDR_OOR` (R7, D8). -/
inductive AddrOor where
  | fault
  | wrap
deriving DecidableEq, Repr

/-- `FONT_WRITE` (R7, D12). -/
inductive FontWritePolicy where
  | ignore
  | fault
deriving DecidableEq, Repr

/-- `SHIFT_SOURCE` (R7, D13). -/
inductive ShiftSource where
  | vy
  | vx
deriving DecidableEq, Repr

/-- `LOADSTORE_I` (R7, D14). -/
inductive LoadStoreI where
  | increment
  | keep
deriving DecidableEq, Repr

/-- `LOGIC_VF` (R7, D15). -/
inductive LogicVf where
  | reset
  | keep
deriving DecidableEq, Repr

/-- `DIRTY_MODE` (R7, D22). -/
inductive DirtyMode where
  | perTick
  | sticky
deriving DecidableEq, Repr

/-- The named parameters of 00_scope.md R7. A machine has one value of each, fixed for its life. -/
structure Config where
  timerMode             : TimerMode
  sysPolicy             : SysPolicy
  addrOor               : AddrOor
  fontBase              : Nat
  fontData              : List Byte
  fontWrite             : FontWritePolicy
  shiftSource           : ShiftSource
  loadStoreI            : LoadStoreI
  logicVf               : LogicVf
  keywaitSampleOnEntry  : Bool
  dirtyMode             : DirtyMode
deriving DecidableEq, Repr

/-- What R7 asks of the parameters: 80 font bytes, all of them inside 0x000 to 0x1FF. -/
abbrev Config.WellFormed (c : Config) : Prop :=
  c.fontBase + 79 ≤ 0x1FF ∧ c.fontData.length = fontSize

/-- The bytes of the hex font, glyph 0 first, five rows each, top row first (20_memory.md R38, D11). -/
def standardFont : List Byte :=
  [0xF0, 0x90, 0x90, 0x90, 0xF0] ++ [0x20, 0x60, 0x20, 0x20, 0x70] ++
  [0xF0, 0x10, 0xF0, 0x80, 0xF0] ++ [0xF0, 0x10, 0xF0, 0x10, 0xF0] ++
  [0x90, 0x90, 0xF0, 0x10, 0x10] ++ [0xF0, 0x80, 0xF0, 0x10, 0xF0] ++
  [0xF0, 0x80, 0xF0, 0x90, 0xF0] ++ [0xF0, 0x10, 0x20, 0x40, 0x40] ++
  [0xF0, 0x90, 0xF0, 0x90, 0xF0] ++ [0xF0, 0x90, 0xF0, 0x10, 0xF0] ++
  [0xF0, 0x90, 0xF0, 0x90, 0x90] ++ [0xE0, 0x90, 0xE0, 0x90, 0xE0] ++
  [0xF0, 0x80, 0x80, 0x80, 0xF0] ++ [0xE0, 0x90, 0x90, 0x90, 0xE0] ++
  [0xF0, 0x80, 0xF0, 0x80, 0xF0] ++ [0xF0, 0x80, 0xF0, 0x80, 0x80]

/-- This spec's value of every parameter (00_scope.md R7): the hardware's configuration. -/
def Config.spec : Config where
  timerMode := .perTick
  sysPolicy := .nop
  addrOor := .fault
  fontBase := 0x050
  fontData := standardFont
  fontWrite := .ignore
  shiftSource := .vy
  loadStoreI := .increment
  logicVf := .reset
  keywaitSampleOnEntry := false
  dirtyMode := .perTick

/-- FREE VALUE (log entry 2). The arbitrary initial memory image of 20_memory.md R40: the byte that address `a` holds
until something writes it. It has no body, so no proof can know a byte of it. -/
opaque Config.imageByte : Nat → Byte

/-- FREE VALUE (log entry 4). The random byte that the host passes to the `k`-th Tick that `step` makes
(40_cycle_and_host.md R83): an arbitrary byte under no law. It has no body. -/
opaque Config.rndByte : Nat → Byte

end Sys2Proof
end

