-- ==== Sys2Proof/Syntax.lean ====
section
/-! DEFINITION. Sys2Proof/Syntax.lean: the 35 instructions of 30_encoding.md R59, one constructor per row of
spec/opcode_table.json, in the table's order, with the fields of R55 as operands. -/

namespace Sys2Proof

/-- An instruction with its operands (R59). -/
inductive Instr where
  /-- `0nnn` `SYS nnn` (41_control.md R95). -/
  | sys (nnn : Addr12)
  /-- `00E0` `CLS` (R96). -/
  | cls
  /-- `00EE` `RET` (R97). -/
  | ret
  /-- `1nnn` `JP nnn` (R98). -/
  | jp (nnn : Addr12)
  /-- `2nnn` `CALL nnn` (R99). -/
  | call (nnn : Addr12)
  /-- `3xkk` `SE Vx, kk` (42_skip.md R100). -/
  | seImm (x : Nibble) (kk : Byte)
  /-- `4xkk` `SNE Vx, kk` (R101). -/
  | sneImm (x : Nibble) (kk : Byte)
  /-- `5xy0` `SE Vx, Vy` (R102). -/
  | seReg (x y : Nibble)
  /-- `9xy0` `SNE Vx, Vy` (R103). -/
  | sneReg (x y : Nibble)
  /-- `6xkk` `LD Vx, kk` (43_load.md R104). -/
  | ldImm (x : Nibble) (kk : Byte)
  /-- `7xkk` `ADD Vx, kk` (R105). -/
  | addImm (x : Nibble) (kk : Byte)
  /-- `8xy0` `LD Vx, Vy` (R106). -/
  | ldReg (x y : Nibble)
  /-- `Annn` `LD I, nnn` (R107). -/
  | ldI (nnn : Addr12)
  /-- `Bnnn` `JP V0, nnn` (R108). -/
  | jpV0 (nnn : Addr12)
  /-- `8xy1` `OR Vx, Vy` (44_arithmetic.md R110). -/
  | orReg (x y : Nibble)
  /-- `8xy2` `AND Vx, Vy` (R111). -/
  | andReg (x y : Nibble)
  /-- `8xy3` `XOR Vx, Vy` (R112). -/
  | xorReg (x y : Nibble)
  /-- `8xy4` `ADD Vx, Vy` (R113). -/
  | addReg (x y : Nibble)
  /-- `8xy5` `SUB Vx, Vy` (R114). -/
  | sub (x y : Nibble)
  /-- `8xy6` `SHR Vx, Vy` (R115). -/
  | shr (x y : Nibble)
  /-- `8xy7` `SUBN Vx, Vy` (R116). -/
  | subn (x y : Nibble)
  /-- `8xyE` `SHL Vx, Vy` (R117). -/
  | shl (x y : Nibble)
  /-- `Cxkk` `RND Vx, kk` (45_random.md R118). -/
  | rnd (x : Nibble) (kk : Byte)
  /-- `Dxyn` `DRW Vx, Vy, n` (46_draw.md R119). -/
  | drw (x y n : Nibble)
  /-- `Ex9E` `SKP Vx` (47_input.md R122). -/
  | skp (x : Nibble)
  /-- `ExA1` `SKNP Vx` (R123). -/
  | sknp (x : Nibble)
  /-- `Fx0A` `LD Vx, K` (R124). -/
  | ldKey (x : Nibble)
  /-- `Fx07` `LD Vx, DT` (48_timer.md R126). -/
  | ldFromDt (x : Nibble)
  /-- `Fx15` `LD DT, Vx` (R127). -/
  | ldDt (x : Nibble)
  /-- `Fx18` `LD ST, Vx` (R128). -/
  | ldSt (x : Nibble)
  /-- `Fx1E` `ADD I, Vx` (49_memory_ops.md R129). -/
  | addI (x : Nibble)
  /-- `Fx29` `LD F, Vx` (R130). -/
  | ldF (x : Nibble)
  /-- `Fx33` `LD B, Vx` (R131). -/
  | ldB (x : Nibble)
  /-- `Fx55` `LD [I], Vx` (R132). -/
  | storeRegs (x : Nibble)
  /-- `Fx65` `LD Vx, [I]` (R133). -/
  | loadRegs (x : Nibble)
deriving DecidableEq, Repr

end Sys2Proof
end

