-- ==== Sys2Proof/WellFormed.lean ====
section
/-! DEFINITION. Sys2Proof/WellFormed.lean: which terms of Instr are instructions of the machine. The operand types
carry every width of 30_encoding.md R55; what is left is R59's exception for `SYS` and the policy of R60. -/

namespace Sys2Proof

/-- R59: the words `00E0` and `00EE` are `CLS` and `RET`, so `SYS` has neither as its operand. -/
def sysOperandOk (nnn : Addr12) : Bool := nnn != 0x0E0#12 && nnn != 0x0EE#12

/-- An instruction that has an encoding of its own (R59, R60). -/
def Instr.wellFormed : Instr → Bool
  | .sys nnn => sysOperandOk nnn
  | .cls => true
  | .ret => true
  | .jp _ => true
  | .call _ => true
  | .seImm _ _ => true
  | .sneImm _ _ => true
  | .seReg _ _ => true
  | .sneReg _ _ => true
  | .ldImm _ _ => true
  | .addImm _ _ => true
  | .ldReg _ _ => true
  | .ldI _ => true
  | .jpV0 _ => true
  | .orReg _ _ => true
  | .andReg _ _ => true
  | .xorReg _ _ => true
  | .addReg _ _ => true
  | .sub _ _ => true
  | .shr _ _ => true
  | .subn _ _ => true
  | .shl _ _ => true
  | .rnd _ _ => true
  | .drw _ _ _ => true
  | .skp _ => true
  | .sknp _ => true
  | .ldKey _ => true
  | .ldFromDt _ => true
  | .ldDt _ => true
  | .ldSt _ => true
  | .addI _ => true
  | .ldF _ => true
  | .ldB _ => true
  | .storeRegs _ => true
  | .loadRegs _ => true

/-- Whether `i` is an instruction under the policy for `0nnn`: under `UNKNOWN` there is no `SYS` (R60, R61, D5). -/
def Instr.validUnder (pol : SysPolicy) (i : Instr) : Bool :=
  match pol, i with
  | .unknown, .sys _ => false
  | _, i => i.wellFormed

end Sys2Proof
end

