-- ==== Sys2Proof/Machine/State.lean ====
section
/-! DEFINITION. Sys2Proof/Machine/State.lean: the state of 10_state.md as plain data, the errors and results of
60_exceptions.md R134, the reasons a step can stop, and the state at construction (70_reset_and_hazards.md R151) and
after reset (10_state.md R34). -/

namespace Sys2Proof.Machine

/-- The fatal errors and what each records (60_exceptions.md R134, codes 2 to 5). -/
inductive FatalError where
  /-- `CALL` with `SP = 16`; `pc` of the `CALL`. -/
  | stackOverflow (pc : Word)
  /-- `RET` with `SP = 0`; `pc` of the `RET`. -/
  | stackUnderflow (pc : Word)
  /-- An address above 0xFFF under `ADDR_OOR = FAULT`; the exact integer address and the `pc` of the instruction. -/
  | addressFault (addr : Nat) (pc : Word)
  /-- A store to the font under `FONT_WRITE = FAULT`; the font address and the `pc` of the instruction. -/
  | fontWrite (addr : Nat) (pc : Word)
deriving DecidableEq, Repr

/-- `Mode`, the run state (10_state.md R30). -/
inductive Mode where
  | running
  /-- Blocked on the key wait; `r` is the register the key goes to. -/
  | awaitKey (r : Nibble)
  /-- Stopped by a fatal error. -/
  | halted (e : FatalError)
deriving DecidableEq, Repr

/-- The results a host operation returns (60_exceptions.md R134). -/
inductive Result where
  | ok
  | unknownOpcode (op : Word) (pc : Word)
  | fatal (e : FatalError)
  | halted (e : FatalError)
  | programTooLarge (len : Nat)
  | invalidKeyIndex (key : Int)
deriving DecidableEq, Repr

/-- Memory `M` (10_state.md R24): the bytes whose value differs from what an unlisted address reads as, by rising
address; see `Memory.wf`. -/
abbrev Memory := List Host.Cell

/-- The display buffer `DB` (10_state.md R25). -/
abbrev Display := Vector Byte 256

/-- Everything 10_state.md gives the core, and the model's own bookkeeping (`cfg`, `rnd`, `rndIndex`, `tickResult`). -/
structure State where
  /-- The parameters of 00_scope.md R7; no operation writes it (log entry 1). -/
  cfg        : Config
  /-- `V0`..`VF` (R15, R16). -/
  v          : Vector Byte 16
  /-- `I` (R18). -/
  i          : Word
  /-- `PC` (R19). -/
  pc         : Word
  /-- `S[0..15]` (R20). -/
  stack      : Vector Word 16
  /-- `SP`, the number of valid stack entries (R21). -/
  sp         : Fin 17
  /-- `DT` (R22). -/
  dt         : Byte
  /-- `ST` (R23). -/
  st         : Byte
  /-- `M` (R24). -/
  mem        : Memory
  /-- `DB[0..255]` (R25). -/
  display    : Display
  /-- `K[0..15]` (R27). -/
  keys       : Vector Bool 16
  /-- `Dirty` (R28). -/
  dirty      : Bool
  /-- `Touched` (R29). -/
  touched    : Bool
  /-- `Mode` (R30). -/
  mode       : Mode
  /-- `Loaded` (R31). -/
  loaded     : Bool
  /-- The `rnd` input of the Tick being executed (40_cycle_and_host.md R66, R83; log entry 4). -/
  rnd        : Byte
  /-- How many random bytes the step has drawn (log entry 5). -/
  rndIndex   : Nat
  /-- What the last Tick returned (40_cycle_and_host.md R76; log entry 6). -/
  tickResult : Result
deriving DecidableEq, Repr

/-- Why a step stops with a fault. The fatal errors of 60_exceptions.md are NOT here: the core takes them
(`takeFatal`) and is then `Halted`, which is a next state. -/
inductive Fault where
  /-- `Tick` or `TickTimers` while `Loaded` is false: the spec gives the call no move (40_cycle_and_host.md R68, D28).
  Raised by `tick` and by the host operation `TickTimers`. Safe: nothing is proved of what follows. -/
  | notLoaded
  /-- `TickTimers` while `TIMER_MODE = PER_TICK`: the operation does not exist (40_cycle_and_host.md R78).
  Raised by the host operation `TickTimers` only. Safe: nothing is proved of what follows. -/
  | noTickTimers
deriving DecidableEq, Repr

/-- Why an instruction has no meaning. -/
inductive Refusal where
  /-- An arm of `exec` that has no meaning yet: none is left. Safe: the step stops. -/
  | notModelled (mnemonic : String)
deriving DecidableEq, Repr

/-- A newly constructed core with parameters `c` (70_reset_and_hazards.md R151): the reset values with an empty
program, `Loaded` false, every key released; memory lists nothing, so the font reads as `FONT_DATA` and every other
byte as the initial image. -/
def State.constructedWith (c : Config) : State where
  cfg := c
  v := Vector.replicate 16 0
  i := 0
  pc := BitVec.ofNat 16 progBase
  stack := Vector.replicate 16 0
  sp := 0
  dt := 0
  st := 0
  mem := []
  display := Vector.replicate 256 0
  keys := Vector.replicate 16 false
  dirty := false
  touched := false
  mode := .running
  loaded := false
  rnd := 0
  rndIndex := 0
  tickResult := .ok

/-- The state after `LoadProgram` of the empty program on a newly constructed core (10_state.md R34). -/
def State.resetWith (c : Config) : State := { State.constructedWith c with loaded := true }

/-- The core as constructed, with this spec's parameters (70_reset_and_hazards.md R151; 00_scope.md R7). -/
def State.constructed : State := State.constructedWith Config.spec

/-- The machine right after reset, with this spec's parameters (10_state.md R34; log entry 7). -/
def State.reset : State := State.resetWith Config.spec

end Sys2Proof.Machine
end

