-- ==== Sys2Proof/Machine/Ops.lean ====
section
/-! DEFINITION. Sys2Proof/Machine/Ops.lean: the named operations over registers, memory, stack, display and keypad
(00_scope.md R10, R11), taking a fatal error (60_exceptions.md R136), the timer step (R143), the dirty update and
instruction fetch (40_cycle_and_host.md R70, R74). -/

namespace Sys2Proof.Machine

/-! ## Registers -/

/-- `V[x]` (R10, R15). -/
def State.reg (s : State) (x : Nibble) : Byte := s.v[x.toNat]'x.isLt

/-- `V[x] <- b` (R10, R15). -/
def State.setReg (s : State) (x : Nibble) (b : Byte) : State := { s with v := s.v.set x.toNat b x.isLt }

/-- The index of `VF` (R10, R16). -/
def vf : Nibble := 0xF#4

/-- `V0`..`Vx` in ascending order (49_memory_ops.md R132). -/
def regBlock (v : Vector Byte 16) (x : Nibble) : List Byte := v.toList.take (x.toNat + 1)

/-- `V[j], V[j+1], ... <- bs` in ascending order (49_memory_ops.md R133). -/
def writeRegs (v : Vector Byte 16) (j : Nat) : List Byte → Vector Byte 16
  | [] => v
  | b :: bs => writeRegs (v.setIfInBounds j b) (j + 1) bs

/-- `PC <- PC + 2` (40_cycle_and_host.md R72); a 16-bit location stores the sum mod 2^16 (00_scope.md R9). -/
def advance (s : State) : State := { s with pc := s.pc + 2#16 }

/-- A skip: `PC <- PC + 4` if `c`, else `PC <- PC + 2` (42_skip.md). -/
def skipIf (c : Bool) (s : State) : State := { s with pc := s.pc + (if c then 4#16 else 2#16) }

/-! ## Memory -/

/-- Whether `a` is a font address, `FONT_BASE`..`FONT_BASE+79` (20_memory.md R37, R39). -/
def isFont (c : Config) (a : Nat) : Bool := decide (c.fontBase ≤ a ∧ a < c.fontBase + fontSize)

/-- What an unlisted address holds: in the font, its byte of `FONT_DATA` (20_memory.md R38); elsewhere nothing that
anything has written, so that a read gives the initial image (R40; log entries 2 and 3). -/
def unlisted (c : Config) (a : Nat) : Option Byte :=
  if isFont c a then c.fontData[a - c.fontBase]? else none

/-- The listed byte at `a`, if there is one. -/
def memLookup : Memory → Nat → Option Byte
  | [], _ => none
  | (b, w) :: m, a => if b = a then some w else memLookup m a

/-- List the byte `v` at `a`, keeping the addresses rising. -/
def memInsert : Memory → Nat → Byte → Memory
  | [], a, v => [(a, v)]
  | (b, w) :: m, a, v =>
    if a < b then (a, v) :: (b, w) :: m
    else if a = b then (a, v) :: m
    else (b, w) :: memInsert m a v

/-- Take `a` off the list. -/
def memErase : Memory → Nat → Memory
  | [], _ => []
  | (b, w) :: m, a => if b = a then memErase m a else (b, w) :: memErase m a

/-- The direct store `M[a] <- v`: a byte equal to what an unlisted address holds is not listed. -/
def memSet (c : Config) (m : Memory) (a : Nat) (v : Byte) : Memory :=
  if unlisted c a = some v then memErase m a else memInsert m a v

/-- The canonical form of memory: addresses strictly rising and inside 0x000 to 0xFFF, and no entry equal to what an
unlisted address holds. -/
abbrev Memory.wf (c : Config) (m : Memory) : Prop :=
  (m.map Prod.fst).Pairwise (· < ·) ∧ ∀ e ∈ m, e.1 < memSize ∧ unlisted c e.1 ≠ some e.2

/-- The byte of memory `m` at `a` (20_memory.md R42): the written byte, else the font byte, else the initial image's
byte (R40). -/
def memByte (c : Config) (m : Memory) (a : Nat) : Byte :=
  match memLookup m a with
  | some b => b
  | none =>
    match unlisted c a with
    | some b => b
    | none => Config.imageByte a

/-- `M[a]` (R10, R42). -/
def State.readByte (s : State) (a : Nat) : Byte := memByte s.cfg s.mem a

/-- `MemWrite(a, 1, v)` at a memory index `a` (20_memory.md R43): a font address keeps its byte (R39). -/
def memWrite (c : Config) (m : Memory) (a : Nat) (v : Byte) : Memory :=
  if isFont c a then m else memSet c m a v

/-- `EA(a)` (20_memory.md R41): the memory index of the exact address `a`, or the address that raises
`AddressFault`. -/
def ea (c : Config) (a : Nat) : Except Nat Nat :=
  if a ≤ 0xFFF then .ok a
  else
    match c.addrOor with
    | .wrap => .ok (a % memSize)
    | .fault => .error a

/-- `EA` of `a, a+1, ..., a+n-1` in ascending order; the lowest address that fails is the one reported (R41;
60_exceptions.md R138). -/
def eaRange (c : Config) (a : Nat) : Nat → Except Nat (List Nat)
  | 0 => .ok []
  | n + 1 =>
    match ea c a with
    | .error e => .error e
    | .ok b =>
      match eaRange c (a + 1) n with
      | .error e => .error e
      | .ok bs => .ok (b :: bs)

/-- `MemWrite` of each byte at each index, in order (R43, R44). -/
def memWriteAll (c : Config) (m : Memory) : List Nat → List Byte → Memory
  | a :: as, v :: vs => memWriteAll c (memWrite c m a v) as vs
  | _, _ => m

/-- The lowest font address among `as` when `FONT_WRITE = FAULT` (20_memory.md R39; 60_exceptions.md R138). -/
def fontHit (c : Config) (as : List Nat) : Option Nat :=
  match c.fontWrite with
  | .ignore => none
  | .fault => (as.filter (isFont c)).min?

/-- The bytes at `base, ..., base+n-1`, every address checked first (R41, 00_scope.md R12). -/
def loadBlock (s : State) (base n : Nat) : Except FatalError (List Byte) :=
  match eaRange s.cfg base n with
  | .error a => .error (.addressFault a s.pc)
  | .ok as => .ok (as.map s.readByte)

/-- Memory after storing `vals` at `base, base+1, ...`: the address checks, then the font check, then the writes
(49_memory_ops.md R131, R132; 00_scope.md R12). -/
def storeBlock (s : State) (base : Nat) (vals : List Byte) : Except FatalError Memory :=
  match eaRange s.cfg base vals.length with
  | .error a => .error (.addressFault a s.pc)
  | .ok as =>
    match fontHit s.cfg as with
    | some a => .error (.fontWrite a s.pc)
    | none => .ok (memWriteAll s.cfg s.mem as vals)

/-- Direct stores of `bs` at `a, a+1, ...`: the loader's copy, which the font rule does not govern
(70_reset_and_hazards.md R152). -/
def memFill (c : Config) (m : Memory) (a : Nat) : List Byte → Memory
  | [] => m
  | b :: bs => memFill c (memSet c m a b) (a + 1) bs

/-! ## Display -/

/-- The display byte that holds pixel `(px, py)` (10_state.md R26). -/
def pixByte (px : Fin 64) (py : Fin 32) : Fin 256 := ⟨py.val * 8 + px.val / 8, by omega⟩

/-- The bit of that byte (R26): bit 7 is the leftmost pixel. -/
def pixBit (px : Fin 64) : Nat := 7 - px.val % 8

/-- A byte with bit `k` set to `b`, the other bits unchanged (R26). -/
def setBit (w : Byte) (k : Nat) (b : Bool) : Byte :=
  if b then w ||| (1#8 <<< k) else w &&& ~~~(1#8 <<< k)

/-- `Pix(px, py)` (R26). -/
def pix (d : Display) (px : Fin 64) (py : Fin 32) : Bool :=
  (d[(pixByte px py).val]'(pixByte px py).isLt).getLsbD (pixBit px)

/-- `Pix(px, py) <- b` (R26). -/
def setPix (d : Display) (px : Fin 64) (py : Fin 32) (b : Bool) : Display :=
  d.set (pixByte px py).val (setBit (d[(pixByte px py).val]'(pixByte px py).isLt) (pixBit px) b) (pixByte px py).isLt

/-- The column of bit `c` of a sprite row drawn at `vx` (46_draw.md R120). -/
def wrapX (vx : Byte) (c : Nat) : Fin 64 := ⟨(vx.toNat + c) % 64, by omega⟩

/-- The display row of row `r` of a sprite drawn at `vy` (R120). -/
def wrapY (vy : Byte) (r : Nat) : Fin 32 := ⟨(vy.toNat + r) % 32, by omega⟩

/-- One step of the inner loop of 46_draw.md R119: bit `7 - c` of the sprite row `b`, with the display and `hit` so
far. -/
def drawBit (vx vy : Byte) (r : Nat) (b : Byte) (p : Display × Bool) (c : Nat) : Display × Bool :=
  if b.getLsbD (7 - c) then
    let px := wrapX vx c
    let py := wrapY vy r
    (setPix p.1 px py (pix p.1 px py ^^ true), p.2 || pix p.1 px py)
  else p

/-- The inner loop of R119: the eight bits of one sprite row. -/
def drawRow (vx vy : Byte) (r : Nat) (b : Byte) (p : Display × Bool) : Display × Bool :=
  [0, 1, 2, 3, 4, 5, 6, 7].foldl (drawBit vx vy r b) p

/-- The outer loop of R119: the sprite's rows from row `r` on. -/
def drawRows (vx vy : Byte) (r : Nat) : List Byte → Display × Bool → Display × Bool
  | [], p => p
  | b :: bs, p => drawRows vx vy (r + 1) bs (drawRow vx vy r b p)

/-! ## Keypad -/

/-- `K[k]` (10_state.md R27). -/
def State.key (s : State) (k : Nibble) : Bool := s.keys[k.toNat]'k.isLt

/-- The lowest-numbered pressed key, if any key is pressed (40_cycle_and_host.md R73). -/
def lowestKey (keys : Vector Bool 16) : Option Nat := keys.toList.findIdx? id

/-! ## Return stack -/

/-- `S[SP] <- w; SP <- SP + 1`, for `SP` below 16 (41_control.md R99). -/
def pushReturn (s : State) (w : Word) (h : s.sp.val < 16) : State :=
  { s with stack := s.stack.set s.sp.val w h, sp := ⟨s.sp.val + 1, by omega⟩ }

/-- `SP <- SP - 1; PC <- S[SP]`, for `SP` above 0; the entry keeps its content (41_control.md R97; 10_state.md R20). -/
def popReturn (s : State) (h : 0 < s.sp.val) : State :=
  { s with sp := ⟨s.sp.val - 1, by omega⟩, pc := s.stack[s.sp.val - 1]'(by omega) }

/-! ## The end of a Tick, and taking a fatal error -/

/-- `DirtyUpdate()` (40_cycle_and_host.md R74). -/
def dirtyUpdate (s : State) : State :=
  { s with
    dirty :=
      match s.cfg.dirtyMode with
      | .perTick => s.touched
      | .sticky => s.dirty || s.touched }

/-- A countdown by 1 that stays at 0 (60_exceptions.md R143). -/
def countDown (t : Byte) : Byte := if t = 0#8 then 0#8 else t - 1#8

/-- `TimerStep()` (60_exceptions.md R143). -/
def timerStep (s : State) : State := { s with dt := countDown s.dt, st := countDown s.st }

/-- TAKING A FATAL ERROR `e` in the state before the instruction's writes (60_exceptions.md R136; 40_cycle_and_host.md
R75): no write of the instruction, no timer step, `PC` kept, `Mode <- Halted(e)`, the dirty update with
`Touched = false`, result `e`. There is no return from it by an instruction: only `LoadProgram` leaves `Halted`
(60_exceptions.md R140; `loadProgram`). -/
def takeFatal (e : FatalError) (s : State) : State :=
  dirtyUpdate { s with mode := .halted e, touched := false, tickResult := .fatal e }

/-- `raise e` inside an instruction (00_scope.md R12): the instruction's outcome is the halted state. -/
def raise (e : FatalError) (s : State) : Host.Outcome State Fault Refusal := .next (takeFatal e s)

/-! ## Fetch -/

/-- `Fetch()` (40_cycle_and_host.md R70): the big-endian word at `PC`, or the address that raises `AddressFault`,
`PC` checked before `PC + 1` (60_exceptions.md R138). -/
def fetch (s : State) : Except Nat Word :=
  match ea s.cfg s.pc.toNat with
  | .error a => .error a
  | .ok a =>
    match ea s.cfg (s.pc.toNat + 1) with
    | .error b => .error b
    | .ok b => .ok (joinBytes (s.readByte a) (s.readByte b))

/-- Memory with the word `w` stored directly where `Fetch` reads it at `pc`; unchanged where `Fetch` cannot read. -/
def placeWord (c : Config) (m : Memory) (pc : Word) (w : Word) : Memory :=
  match ea c pc.toNat, ea c (pc.toNat + 1) with
  | .ok a, .ok b => memSet c (memSet c m a (highByte w)) b (lowByte w)
  | _, _ => m

/-! ## Result codes -/

/-- The numeric code of a fatal error (60_exceptions.md R134). -/
def fatalCode : FatalError → Nat
  | .stackOverflow _ => 2
  | .stackUnderflow _ => 3
  | .addressFault _ _ => 4
  | .fontWrite _ _ => 5

/-- The numeric code of a result (60_exceptions.md R134). -/
def resultCode : Result → Nat
  | .ok => 0
  | .unknownOpcode _ _ => 1
  | .fatal e => fatalCode e
  | .halted _ => 6
  | .programTooLarge _ => 7
  | .invalidKeyIndex _ => 8

end Sys2Proof.Machine
end

