-- ==== Sys2Proof/Machine/Flags.lean ====
section
/-! DEFINITION. Sys2Proof/Machine/Flags.lean: the results and `VF` flags of the arithmetic family, computed exactly and
narrowed at the end (44_arithmetic.md R109 to R117), and the collision flag (46_draw.md R119). -/

namespace Sys2Proof.Machine

/-- `bool(c)` as a flag byte: exactly 0 or 1 (00_scope.md R9; 44_arithmetic.md R109). -/
def flagByte (c : Bool) : Byte := if c then 1#8 else 0#8

/-- `(a + b) mod 256` (R105, R113). -/
def addResult (a b : Byte) : Byte := BitVec.ofNat 8 (a.toNat + b.toNat)

/-- The carry out of bit 7: `a + b > 255` (R113). -/
def carryFlag (a b : Byte) : Byte := flagByte (decide (a.toNat + b.toNat > 255))

/-- `(a - b) mod 256` (R114, R116). -/
def subResult (a b : Byte) : Byte := BitVec.ofInt 8 ((a.toNat : Int) - (b.toNat : Int))

/-- Not-borrow: 1 when `a >= b` (R114, R116, D17). -/
def notBorrowFlag (a b : Byte) : Byte := flagByte (decide (a.toNat ≥ b.toNat))

/-- `src >> 1` (R115). -/
def shrResult (a : Byte) : Byte := BitVec.ofNat 8 (a.toNat / 2)

/-- The bit shifted out to the right: `src & 1` (R115). -/
def shrFlag (a : Byte) : Byte := flagByte (a.getLsbD 0)

/-- `(src << 1) mod 256` (R117). -/
def shlResult (a : Byte) : Byte := BitVec.ofNat 8 (a.toNat * 2)

/-- The bit shifted out to the left: `src >> 7` (R117). -/
def shlFlag (a : Byte) : Byte := flagByte (a.getLsbD 7)

/-- Result to `Vx` first, flag to `VF` last (R109, D16). -/
def writeResultFlag (x : Nibble) (res flag : Byte) (s : State) : State := (s.setReg x res).setReg vf flag

/-- The result of `OR`, `AND`, `XOR`: to `Vx`, then `VF <- 0` under `LOGIC_VF = RESET` (R110). -/
def writeLogic (x : Nibble) (res : Byte) (s : State) : State :=
  match s.cfg.logicVf with
  | .reset => writeResultFlag x res 0#8 s
  | .keep => s.setReg x res

end Sys2Proof.Machine
end

