-- ==== Sys2Proof/Machine/Operands.lean ====
section
/-! DEFINITION. Sys2Proof/Machine/Operands.lean: the operand forms of the instruction rules (30_encoding.md R57): the
zero-extended address, the key and glyph selected by a register, the source of a shift, the decimal digits. -/

namespace Sys2Proof.Machine

/-- `zext_16(nnn)` (R57). -/
def zextAddr (nnn : Addr12) : Word := nnn.setWidth 16

/-- `zext_16(nnn) + V[0]`, exact: at most 0x10FE (43_load.md R108). -/
def jumpOffsetTarget (nnn : Addr12) (v0 : Byte) : Word := BitVec.ofNat 16 (nnn.toNat + v0.toNat)

/-- The key named by a register: `Vx & 0xF` (47_input.md R122, D20). -/
def keyIndex (b : Byte) : Nibble := b.extractLsb' 0 4

/-- The glyph named by a register: `Vx & 0xF` (49_memory_ops.md R130, D19). -/
def glyphIndex (b : Byte) : Nibble := b.extractLsb' 0 4

/-- `FONT_BASE + 5 * (Vx & 0xF)` (49_memory_ops.md R130). -/
def glyphAddr (c : Config) (b : Byte) : Word := BitVec.ofNat 16 (c.fontBase + 5 * (glyphIndex b).toNat)

/-- The value a shift shifts: `Vy` under `SHIFT_SOURCE = VY`, else `Vx` (44_arithmetic.md R115). -/
def shiftOperand (c : Config) (vx vy : Byte) : Byte :=
  match c.shiftSource with
  | .vy => vy
  | .vx => vx

/-- The decimal digits of a byte, hundreds first (49_memory_ops.md R131; 20_memory.md R44). -/
def bcdDigits (b : Byte) : List Byte :=
  [BitVec.ofNat 8 (b.toNat / 100), BitVec.ofNat 8 (b.toNat / 10 % 10), BitVec.ofNat 8 (b.toNat % 10)]

/-- `(I + V[x]) mod 65536` (49_memory_ops.md R129). -/
def indexSum (i : Word) (b : Byte) : Word := BitVec.ofNat 16 (i.toNat + b.toNat)

/-- `I` after a block store or load of `V0`..`Vx` (49_memory_ops.md R132, R133). -/
def blockIndex (c : Config) (i : Word) (x : Nibble) : Word :=
  match c.loadStoreI with
  | .increment => BitVec.ofNat 16 (i.toNat + x.toNat + 1)
  | .keep => i

end Sys2Proof.Machine
end

