-- ==== Sys2Proof/Machine/Arithmetic.lean ====
section
/-! DEFINITION. Sys2Proof/Machine/Arithmetic.lean: the arithmetic family (44_arithmetic.md R109 to R117). Operands are
read from the state before any write; the flag is written last. -/

namespace Sys2Proof.Machine

/-- `OR Vx, Vy` (R110). -/
def execOr (x y : Nibble) (s : State) : Host.Outcome State Fault Refusal :=
  .next (advance (writeLogic x (s.reg x ||| s.reg y) s))

/-- `AND Vx, Vy` (R111). -/
def execAnd (x y : Nibble) (s : State) : Host.Outcome State Fault Refusal :=
  .next (advance (writeLogic x (s.reg x &&& s.reg y) s))

/-- `XOR Vx, Vy` (R112). -/
def execXor (x y : Nibble) (s : State) : Host.Outcome State Fault Refusal :=
  .next (advance (writeLogic x (s.reg x ^^^ s.reg y) s))

/-- `ADD Vx, Vy` (R113): `VF` is the carry. -/
def execAddReg (x y : Nibble) (s : State) : Host.Outcome State Fault Refusal :=
  .next (advance (writeResultFlag x (addResult (s.reg x) (s.reg y)) (carryFlag (s.reg x) (s.reg y)) s))

/-- `SUB Vx, Vy` (R114): `Vx - Vy`, `VF` is not-borrow. -/
def execSub (x y : Nibble) (s : State) : Host.Outcome State Fault Refusal :=
  .next (advance (writeResultFlag x (subResult (s.reg x) (s.reg y)) (notBorrowFlag (s.reg x) (s.reg y)) s))

/-- `SHR Vx, Vy` (R115): `VF` is the bit shifted out. -/
def execShr (x y : Nibble) (s : State) : Host.Outcome State Fault Refusal :=
  let src := shiftOperand s.cfg (s.reg x) (s.reg y)
  .next (advance (writeResultFlag x (shrResult src) (shrFlag src) s))

/-- `SUBN Vx, Vy` (R116): `Vy - Vx`, `VF` is not-borrow. -/
def execSubn (x y : Nibble) (s : State) : Host.Outcome State Fault Refusal :=
  .next (advance (writeResultFlag x (subResult (s.reg y) (s.reg x)) (notBorrowFlag (s.reg y) (s.reg x)) s))

/-- `SHL Vx, Vy` (R117): `VF` is the bit shifted out. -/
def execShl (x y : Nibble) (s : State) : Host.Outcome State Fault Refusal :=
  let src := shiftOperand s.cfg (s.reg x) (s.reg y)
  .next (advance (writeResultFlag x (shlResult src) (shlFlag src) s))

end Sys2Proof.Machine
end

