-- ==== Sys2Proof/Machine/Control.lean ====
section
/-! DEFINITION. Sys2Proof/Machine/Control.lean: the control family (41_control.md R95 to R99). -/

namespace Sys2Proof.Machine

/-- `SYS nnn` (R95): a no-op; the operand is ignored. -/
def execSys (_nnn : Addr12) (s : State) : Host.Outcome State Fault Refusal := .next (advance s)

/-- `CLS` (R96): the display is cleared and touched. -/
def execCls (s : State) : Host.Outcome State Fault Refusal :=
  .next (advance { s with display := Vector.replicate 256 0, touched := true })

/-- `RET` (R97): pop the return address into `PC`; `StackUnderflow` when the stack is empty. -/
def execRet (s : State) : Host.Outcome State Fault Refusal :=
  if h : 0 < s.sp.val then .next (popReturn s h)
  else raise (.stackUnderflow s.pc) s

/-- `JP nnn` (R98). -/
def execJp (nnn : Addr12) (s : State) : Host.Outcome State Fault Refusal := .next { s with pc := zextAddr nnn }

/-- `CALL nnn` (R99): push `PC + 2` and jump; `StackOverflow` when 16 addresses are held. -/
def execCall (nnn : Addr12) (s : State) : Host.Outcome State Fault Refusal :=
  if h : s.sp.val < 16 then .next { pushReturn s (s.pc + 2#16) h with pc := zextAddr nnn }
  else raise (.stackOverflow s.pc) s

end Sys2Proof.Machine
end

