-- ==== Sys2Proof/Machine/Draw.lean ====
section
/-! DEFINITION. Sys2Proof/Machine/Draw.lean: the draw family (46_draw.md R119, R120). -/

namespace Sys2Proof.Machine

/-- `DRW Vx, Vy, n` (R119): every sprite address is checked first, the coordinates are read before `VF` is written, and
`VF` is the collision flag. -/
def execDrw (x y n : Nibble) (s : State) : Host.Outcome State Fault Refusal :=
  match loadBlock s s.i.toNat n.toNat with
  | .error e => raise e s
  | .ok rows =>
    let drawn := drawRows (s.reg x) (s.reg y) 0 rows (s.display, false)
    .next (advance ({ s with display := drawn.1, touched := true }.setReg vf (flagByte drawn.2)))

end Sys2Proof.Machine
end

