-- ==== Sys2Proof/Machine/Input.lean ====
section
/-! DEFINITION. Sys2Proof/Machine/Input.lean: the input family (47_input.md R122 to R124). -/

namespace Sys2Proof.Machine

/-- `SKP Vx` (R122). -/
def execSkp (x : Nibble) (s : State) : Host.Outcome State Fault Refusal :=
  .next (skipIf (s.key (keyIndex (s.reg x))) s)

/-- `SKNP Vx` (R123). -/
def execSknp (x : Nibble) (s : State) : Host.Outcome State Fault Refusal :=
  .next (skipIf (!s.key (keyIndex (s.reg x))) s)

/-- The key wait completed with key `k` for register `r`: the key stored, `PC` past the `Fx0A` word, `Running`
(40_cycle_and_host.md R73; 47_input.md R124). -/
def completeWait (r : Nibble) (k : Nat) (s : State) : State :=
  { advance (s.setReg r (BitVec.ofNat 8 k)) with mode := .running }

/-- `LD Vx, K` (R124): enter `AwaitKey(x)`, `PC` not advanced; under `KEYWAIT_SAMPLE_ON_ENTRY` a key already pressed
completes the wait at once. -/
def execLdKey (x : Nibble) (s : State) : Host.Outcome State Fault Refusal :=
  match s.cfg.keywaitSampleOnEntry, lowestKey s.keys with
  | true, some k => .next (completeWait x k s)
  | _, _ => .next { s with mode := .awaitKey x }

end Sys2Proof.Machine
end

