-- ==== Sys2Proof/Machine/Load.lean ====
section
/-! DEFINITION. Sys2Proof/Machine/Load.lean: the load family (43_load.md R104 to R108). -/

namespace Sys2Proof.Machine

/-- `LD Vx, kk` (R104). -/
def execLdImm (x : Nibble) (kk : Byte) (s : State) : Host.Outcome State Fault Refusal :=
  .next (advance (s.setReg x kk))

/-- `ADD Vx, kk` (R105): wraps mod 256, no flag. -/
def execAddImm (x : Nibble) (kk : Byte) (s : State) : Host.Outcome State Fault Refusal :=
  .next (advance (s.setReg x (addResult (s.reg x) kk)))

/-- `LD Vx, Vy` (R106). -/
def execLdReg (x y : Nibble) (s : State) : Host.Outcome State Fault Refusal :=
  .next (advance (s.setReg x (s.reg y)))

/-- `LD I, nnn` (R107). -/
def execLdI (nnn : Addr12) (s : State) : Host.Outcome State Fault Refusal :=
  .next (advance { s with i := zextAddr nnn })

/-- `JP V0, nnn` (R108): the register is `V0` whatever `op[11:8]` holds. -/
def execJpV0 (nnn : Addr12) (s : State) : Host.Outcome State Fault Refusal :=
  .next { s with pc := jumpOffsetTarget nnn (s.reg 0#4) }

end Sys2Proof.Machine
end

