-- ==== Sys2Proof/Machine/MemoryOps.lean ====
section
/-! DEFINITION. Sys2Proof/Machine/MemoryOps.lean: the memory family (49_memory_ops.md R129 to R133). -/

namespace Sys2Proof.Machine

/-- `ADD I, Vx` (R129): wraps mod 2^16, no flag. -/
def execAddI (x : Nibble) (s : State) : Host.Outcome State Fault Refusal :=
  .next (advance { s with i := indexSum s.i (s.reg x) })

/-- `LD F, Vx` (R130). -/
def execLdF (x : Nibble) (s : State) : Host.Outcome State Fault Refusal :=
  .next (advance { s with i := glyphAddr s.cfg (s.reg x) })

/-- `LD B, Vx` (R131): the digits at `I`, `I+1`, `I+2`; `I` unchanged. -/
def execLdB (x : Nibble) (s : State) : Host.Outcome State Fault Refusal :=
  match storeBlock s s.i.toNat (bcdDigits (s.reg x)) with
  | .error e => raise e s
  | .ok m => .next (advance { s with mem := m })

/-- `LD [I], Vx` (R132): `V0`..`Vx` at `I`..`I+x`. -/
def execStoreRegs (x : Nibble) (s : State) : Host.Outcome State Fault Refusal :=
  match storeBlock s s.i.toNat (regBlock s.v x) with
  | .error e => raise e s
  | .ok m => .next (advance { s with mem := m, i := blockIndex s.cfg s.i x })

/-- `LD Vx, [I]` (R133): `V0`..`Vx` from `I`..`I+x`. -/
def execLoadRegs (x : Nibble) (s : State) : Host.Outcome State Fault Refusal :=
  match loadBlock s s.i.toNat (x.toNat + 1) with
  | .error e => raise e s
  | .ok bs => .next (advance { s with v := writeRegs s.v 0 bs, i := blockIndex s.cfg s.i x })

end Sys2Proof.Machine
end

