-- ==== Sys2Proof/Machine/Random.lean ====
section
/-! DEFINITION. Sys2Proof/Machine/Random.lean: the random family (45_random.md R118). -/

namespace Sys2Proof.Machine

/-- `RND Vx, kk` (R118): the Tick's `rnd` input AND the mask. -/
def execRnd (x : Nibble) (kk : Byte) (s : State) : Host.Outcome State Fault Refusal :=
  .next (advance (s.setReg x (s.rnd &&& kk)))

end Sys2Proof.Machine
end

