-- ==== Sys2Proof/Machine/Skip.lean ====
section
/-! DEFINITION. Sys2Proof/Machine/Skip.lean: the skip family (42_skip.md R100 to R103). -/

namespace Sys2Proof.Machine

/-- `SE Vx, kk` (R100). -/
def execSeImm (x : Nibble) (kk : Byte) (s : State) : Host.Outcome State Fault Refusal :=
  .next (skipIf (s.reg x == kk) s)

/-- `SNE Vx, kk` (R101). -/
def execSneImm (x : Nibble) (kk : Byte) (s : State) : Host.Outcome State Fault Refusal :=
  .next (skipIf (s.reg x != kk) s)

/-- `SE Vx, Vy` (R102). -/
def execSeReg (x y : Nibble) (s : State) : Host.Outcome State Fault Refusal :=
  .next (skipIf (s.reg x == s.reg y) s)

/-- `SNE Vx, Vy` (R103). -/
def execSneReg (x y : Nibble) (s : State) : Host.Outcome State Fault Refusal :=
  .next (skipIf (s.reg x != s.reg y) s)

end Sys2Proof.Machine
end

