-- ==== Sys2Proof/Machine/Timer.lean ====
section
/-! DEFINITION. Sys2Proof/Machine/Timer.lean: the timer family (48_timer.md R126 to R128). The countdown of the same
Tick is no part of the instruction (40_cycle_and_host.md R69). -/

namespace Sys2Proof.Machine

/-- `LD Vx, DT` (R126). -/
def execLdFromDt (x : Nibble) (s : State) : Host.Outcome State Fault Refusal :=
  .next (advance (s.setReg x s.dt))

/-- `LD DT, Vx` (R127). -/
def execLdDt (x : Nibble) (s : State) : Host.Outcome State Fault Refusal :=
  .next (advance { s with dt := s.reg x })

/-- `LD ST, Vx` (R128). -/
def execLdSt (x : Nibble) (s : State) : Host.Outcome State Fault Refusal :=
  .next (advance { s with st := s.reg x })

end Sys2Proof.Machine
end

