-- ==== Sys2Proof/Machine/Cycle.lean ====
section
/-! DEFINITION. Sys2Proof/Machine/Cycle.lean: `Tick(rnd)`, one fetch-decode-execute cycle (40_cycle_and_host.md R69 to
R77). -/

namespace Sys2Proof.Machine

/-- The start of a Tick that is not of a halted core: `Touched <- false`, `result <- Ok` (R69), and the input `rnd`
latched for `Execute` (R72, R83). -/
def beginTick (rnd : Byte) (s : State) : State := { s with touched := false, tickResult := .ok, rnd := rnd }

/-- The latched input is not kept after the Tick (log entry 4). -/
def releaseInput (s : State) : State := { s with rnd := 0#8 }

/-- The timer step of a completing Tick: under `PER_TICK` only (R69; 60_exceptions.md R143). -/
def tickTimerStep (s : State) : State :=
  match s.cfg.timerMode with
  | .perTick => timerStep s
  | .separate => s

/-- The steps of a Tick after `Fetch` and `Execute` (R69): the timer step and the dirty update; after a fatal error
they are skipped, since `takeFatal` has done what R75 says. -/
def endTick (s : State) : State :=
  match s.mode with
  | .halted _ => releaseInput s
  | _ => releaseInput (dirtyUpdate (tickTimerStep s))

/-- `AwaitStep(r)` (R73): the lowest-numbered pressed key completes the wait; without one nothing changes. -/
def awaitStep (r : Nibble) (s : State) : State :=
  match lowestKey s.keys with
  | some k => completeWait r k s
  | none => s

/-- The `Unknown` branch (R71): the result records the word and its address, and `PC` advances by 2. -/
def skipUnknown (op : Word) (s : State) : State := advance { s with tickResult := .unknownOpcode op s.pc }

/-- The rest of a Tick after `Execute`: a next state goes on to the end of the Tick. -/
def afterExecute : Host.Outcome State Fault Refusal → Host.Outcome State Fault Refusal
  | .next t => .next (endTick t)
  | .fault f => .fault f
  | .refused r => .refused r

/-- Fetch, decode and execute in `Running` mode (R69, R70, R71, R72, R75). -/
def runInstr (s : State) : Host.Outcome State Fault Refusal :=
  match fetch s with
  | .error a => .next (endTick (takeFatal (.addressFault a s.pc) s))
  | .ok op =>
    match decode s.cfg.sysPolicy op with
    | .error _ => .next (endTick (skipUnknown op s))
    | .ok i => afterExecute (exec i s)

/-- `Tick(rnd)` (R69): no move before a program is loaded (R68); a halted core returns `Halted(e)` and changes nothing
(R77). -/
def tick (rnd : Byte) (s : State) : Host.Outcome State Fault Refusal :=
  if s.loaded then
    match s.mode with
    | .halted e => .next { s with tickResult := .halted e }
    | .awaitKey r => .next (endTick (awaitStep r (beginTick rnd s)))
    | .running => runInstr (beginTick rnd s)
  else .fault .notLoaded

end Sys2Proof.Machine
end

