-- ==== Sys2Proof/Machine/Step.lean ====
section
/-! DEFINITION. Sys2Proof/Machine/Step.lean: the step of the machine is one `Tick` (40_cycle_and_host.md R69) whose
random input is a free value (R83; log entries 4 and 5), and where a test places an instruction. -/

namespace Sys2Proof.Machine

/-- One random byte drawn: the counter behind the free value advances. -/
def drawRandom (s : State) : State := { s with rndIndex := s.rndIndex + 1 }

/-- The machine's step: `Tick(rnd)` with the next of the host's random bytes, an arbitrary value. -/
def step (s : State) : Host.Outcome State Fault Refusal := tick (Config.rndByte s.rndIndex) (drawRandom s)

/-- The state with the instruction word `w` (of which the table gives `nbits` bits) placed where `step` fetches its
next instruction, and with what a fetch needs: a loaded program and the `Running` mode. It stands for `LoadProgram`
(70_reset_and_hazards.md R152; log entry 7). -/
def State.withFetchWord (s : State) (nbits w : Nat) : State :=
  { s with
    mem := placeWord s.cfg s.mem s.pc (tableWord nbits w)
    loaded := true
    mode := .running }

end Sys2Proof.Machine
end

