-- ==== Sys2Proof/Machine/HostOps.lean ====
section
/-! DEFINITION. Sys2Proof/Machine/HostOps.lean: the six host operations (40_cycle_and_host.md R66 to R82;
70_reset_and_hazards.md R152, R153), and one transition function over them (00_scope.md R5). -/

namespace Sys2Proof.Machine

/-- A host operation with its inputs (40_cycle_and_host.md R66). -/
inductive HostOp where
  | loadProgram (bytes : List Byte)
  | tick (rnd : Byte)
  | tickTimers
  | getDisplay
  | setKeyState (key : Int) (pressed : Bool)
  | displayShouldUpdate
deriving DecidableEq, Repr

/-- What a host operation returns (R66). -/
inductive HostReply where
  | result (r : Result)
  | display (d : Display)
  | flag (b : Bool)
deriving DecidableEq, Repr

/-- The reset that a successful `LoadProgram` performs (70_reset_and_hazards.md R152): the font and the program are
direct stores; the keypad and the rest of memory are kept. The bookkeeping bits are cleared too (log entry 9). -/
def loadReset (bytes : List Byte) (s : State) : State :=
  { s with
    pc := BitVec.ofNat 16 progBase
    v := Vector.replicate 16 0
    i := 0
    sp := 0
    stack := Vector.replicate 16 0
    dt := 0
    st := 0
    display := Vector.replicate 256 0
    mem := memFill s.cfg (memFill s.cfg s.mem s.cfg.fontBase s.cfg.fontData) progBase bytes
    mode := .running
    dirty := false
    loaded := true
    touched := false
    rnd := 0
    tickResult := .ok }

/-- `LoadProgram(bytes)` (R152): a program longer than 3584 bytes is refused with no state change (R153). -/
def loadProgram (bytes : List Byte) (s : State) : Result × State :=
  if bytes.length > progMax then (.programTooLarge bytes.length, s)
  else (.ok, loadReset bytes s)

/-- `TickTimers()` (40_cycle_and_host.md R78): only under `SEPARATE`, and only once a program is loaded (R68); a no-op
when the core is halted. -/
def tickTimers (s : State) : Host.Outcome (Result × State) Fault Refusal :=
  if s.loaded then
    match s.cfg.timerMode, s.mode with
    | .perTick, _ => .fault .noTickTimers
    | .separate, .halted _ => .next (.ok, s)
    | .separate, _ => .next (.ok, timerStep s)
  else .fault .notLoaded

/-- `GetDisplay()` (R79): a copy of the display buffer. -/
def getDisplay (s : State) : Display := s.display

/-- `SetKeyState(key, pressed)` (R80). -/
def setKeyState (key : Int) (pressed : Bool) (s : State) : Result × State :=
  if key < 0 ∨ key > 15 then (.invalidKeyIndex key, s)
  else (.ok, { s with keys := s.keys.setIfInBounds key.toNat pressed })

/-- `DisplayShouldUpdate()` (R81): the dirty flag, cleared by the read. -/
def displayShouldUpdate (s : State) : Bool × State := (s.dirty, { s with dirty := false })

/-- The reply of a Tick: its result, as the state records it (R76). -/
def tickReply : Host.Outcome State Fault Refusal → Host.Outcome (HostReply × State) Fault Refusal
  | .next t => .next (.result t.tickResult, t)
  | .fault f => .fault f
  | .refused r => .refused r

/-- The reply of `TickTimers`. -/
def timersReply : Host.Outcome (Result × State) Fault Refusal → Host.Outcome (HostReply × State) Fault Refusal
  | .next (r, t) => .next (.result r, t)
  | .fault f => .fault f
  | .refused r => .refused r

/-- One host operation, atomic: its reply and the state after it (00_scope.md R5; 40_cycle_and_host.md R67). -/
def hostStep (op : HostOp) (s : State) : Host.Outcome (HostReply × State) Fault Refusal :=
  match op with
  | .loadProgram bytes => .next (.result (loadProgram bytes s).1, (loadProgram bytes s).2)
  | .tick rnd => tickReply (tick rnd s)
  | .tickTimers => timersReply (tickTimers s)
  | .getDisplay => .next (.display (getDisplay s), s)
  | .setKeyState key pressed => .next (.result (setKeyState key pressed s).1, (setKeyState key pressed s).2)
  | .displayShouldUpdate => .next (.flag (displayShouldUpdate s).1, (displayShouldUpdate s).2)

/-- A run: a finite sequence of host operations (R84), with the replies in order; it stops where an operation has no
move. -/
def hostRun : List HostOp → State → Host.Outcome (List HostReply × State) Fault Refusal
  | [], s => .next ([], s)
  | op :: ops, s =>
    match hostStep op s with
    | .fault f => .fault f
    | .refused r => .refused r
    | .next (reply, t) =>
      match hostRun ops t with
      | .fault f => .fault f
      | .refused r => .refused r
      | .next (replies, u) => .next (reply :: replies, u)

end Sys2Proof.Machine
end

