-- ==== Sys2Proof/Safety.lean ====
section
/-! DEFINITION. Sys2Proof/Safety.lean: what counts as a safe run of the core, and the terms the claims use: the run
states, the invariants of the state, and the pixels a sprite covers. -/

namespace Sys2Proof.Machine

/-- The core can execute: a program is loaded and no fatal error has stopped it (10_state.md R30, R31;
40_cycle_and_host.md R84: `Halted` is never a good end). -/
def State.Alive (s : State) : Prop := s.loaded = true ∧ ∀ e, s.mode ≠ .halted e

/-- Memory is in its canonical form (log entry 2). -/
def State.MemOk (s : State) : Prop := Memory.wf s.cfg s.mem

/-- Every font byte reads as `FONT_DATA` (20_memory.md R38, R39). -/
def State.FontIntact (s : State) : Prop :=
  ∀ (j : Nat) (h : j < s.cfg.fontData.length), s.readByte (s.cfg.fontBase + j) = s.cfg.fontData[j]

/-- `PC` stays at or below 0x10FE under `ADDR_OOR = FAULT` (10_state.md R19). The clauses on the return stack and on a
waiting core are what makes it inductive: a return address is at most 0x1000 (41_control.md R99), and a waiting core's
`PC` is on a word that was fetched. -/
def State.PcInRange (s : State) : Prop :=
  s.cfg.addrOor = .fault →
    s.pc.toNat ≤ 0x10FE ∧ (∀ (k : Nat) (h : k < 16), s.stack[k].toNat ≤ 0x1000) ∧
      ∀ r, s.mode = .awaitKey r → s.pc.toNat ≤ 0xFFE

/-- A bit 1 of sprite row `b`, drawn as row `r` of a sprite at `(vx, vy)`, lands on pixel `(qx, qy)`: column
`(Vx + c) mod 64`, row `(Vy + r) mod 32` (46_draw.md R120). -/
def RowCovers (vx vy : Byte) (r : Nat) (b : Byte) (qx : Fin 64) (qy : Fin 32) : Prop :=
  ∃ c, c < 8 ∧ b.getLsbD (7 - c) = true ∧ qx.val = (vx.toNat + c) % 64 ∧ qy.val = (vy.toNat + r) % 32

/-- A bit 1 of one of the sprite rows `bs`, drawn from row `r` on, lands on the pixel (46_draw.md R119, R120). -/
def SpriteCovers (vx vy : Byte) (r : Nat) (bs : List Byte) (qx : Fin 64) (qy : Fin 32) : Prop :=
  ∃ (j : Nat) (h : j < bs.length), RowCovers vx vy (r + j) bs[j] qx qy

/-- The `n` addresses from `base` on are all legal: no access past 0xFFF, or `ADDR_OOR = WRAP` (20_memory.md R41). -/
def BlockInMemory (c : Config) (base n : Nat) : Prop := n = 0 ∨ c.addrOor = .wrap ∨ base + n ≤ 0x1000

/-- The memory index of the exact address `a`, where it is legal (R41). -/
def memIndex (a : Nat) : Nat := a % 0x1000

/-- A store to the `n` addresses from `base` on raises no `FontWrite`: `FONT_WRITE = IGNORE`, or none of them is a font
address (20_memory.md R39). -/
def BlockStorable (c : Config) (base n : Nat) : Prop :=
  c.fontWrite = .ignore ∨ ∀ j, j < n → isFont c (memIndex (base + j)) = false

/-- The `n` bytes from the exact address `base` on, lowest address first (20_memory.md R42, R44). -/
def State.blockBytes (s : State) (base n : Nat) : List Byte :=
  (List.range n).map fun j => s.readByte (memIndex (base + j))

/-- The next Tick executes instruction `i`: a program is loaded, the core is running, and the word at `PC` decodes as
`i` (40_cycle_and_host.md R69). -/
def State.Executes (s : State) (i : Instr) : Prop :=
  s.loaded = true ∧ s.mode = .running ∧ ∃ op, fetch s = .ok op ∧ decode s.cfg.sysPolicy op = .ok i

/-- A timer at the end of a completing Tick that found it at `t` (40_cycle_and_host.md R69; 60_exceptions.md R143). -/
def timerAfter (c : Config) (t : Byte) : Byte :=
  if c.timerMode = .perTick then (if t = 0#8 then 0#8 else t - 1#8) else t

/-- `Dirty` after the dirty update (40_cycle_and_host.md R74). -/
def dirtyAfter (c : Config) (touched dirty : Bool) : Bool :=
  if c.dirtyMode = .perTick then touched else dirty || touched

/-- The state a fatal error `e` leaves, for an instruction that starts in `s` (60_exceptions.md R136;
40_cycle_and_host.md R75). -/
def State.haltedBy (s : State) (e : FatalError) : State :=
  { s with mode := .halted e, touched := false, dirty := dirtyAfter s.cfg false s.dirty, tickResult := .fatal e }

/-- A fatal error is one the instruction `i`, executed at `pc` under `c`, can raise (60_exceptions.md R134). -/
def CanRaise (c : Config) (pc : Word) (i : Instr) (e : FatalError) : Prop :=
  (i = .ret ∧ e = .stackUnderflow pc) ∨
  ((∃ nnn, i = .call nnn) ∧ e = .stackOverflow pc) ∨
  (((∃ x y n, i = .drw x y n) ∨ ∃ x, i = .ldB x ∨ i = .storeRegs x ∨ i = .loadRegs x) ∧
    c.addrOor = .fault ∧ ∃ a, 0xFFF < a ∧ e = .addressFault a pc) ∨
  ((∃ x, i = .ldB x ∨ i = .storeRegs x) ∧ c.fontWrite = .fault ∧ ∃ a, isFont c a = true ∧ e = .fontWrite a pc)

/-- The general registers an instruction writes (10_state.md R17). -/
def WritesReg (c : Config) (i : Instr) (j : Nibble) : Prop :=
  match i with
  | .ldImm x _ => j = x
  | .addImm x _ => j = x
  | .ldReg x _ => j = x
  | .rnd x _ => j = x
  | .ldFromDt x => j = x
  | .ldKey x => j = x
  | .orReg x _ => j = x ∨ (j = 0xF#4 ∧ c.logicVf = .reset)
  | .andReg x _ => j = x ∨ (j = 0xF#4 ∧ c.logicVf = .reset)
  | .xorReg x _ => j = x ∨ (j = 0xF#4 ∧ c.logicVf = .reset)
  | .addReg x _ => j = x ∨ j = 0xF#4
  | .sub x _ => j = x ∨ j = 0xF#4
  | .subn x _ => j = x ∨ j = 0xF#4
  | .shr x _ => j = x ∨ j = 0xF#4
  | .shl x _ => j = x ∨ j = 0xF#4
  | .drw _ _ _ => j = 0xF#4
  | .loadRegs x => j.toNat ≤ x.toNat
  | _ => False

end Sys2Proof.Machine
end

