-- ==== Sys2Proof/Certificates/Slice0/Obligations.lean ====
section
/-! DEFINITION. Sys2Proof/Certificates/Slice0/Obligations.lean: the statements for the provers, from the numbered rules
of spec/. A frame is written as an equation: `t = { s with f := … }` says that `t` differs from `s` in the named fields
only, memory included (every byte of it reads as before where neither `mem` nor `cfg` is named). The free bookkeeping
fields (`rnd`, `rndIndex`, `tickResult`, the model's own, log entries 4 to 6) are named where they change. -/

open Sys2Proof Sys2Proof.Machine

/-! ## Encoding (30_encoding.md) -/

/-- Decoding the word of a valid instruction gives it back, and so does decoding its two bytes with anything behind
them, under either policy for `0nnn` (R54, R59, R60; 20_memory.md R44). -/
def Obligations.DecodeInvertsEncode : Prop :=
  ∀ (pol : SysPolicy) (i : Instr) (rest : List Byte), i.validUnder pol = true →
    decode pol (encode i) = .ok i ∧ decodeBytes pol (encodeBytes i ++ rest) = .ok (i, rest)

/-- What decodes is a valid instruction, and its word is the one that was decoded: no two words are one instruction
(R59, R60). -/
def Obligations.EncodeInvertsDecode : Prop :=
  ∀ (pol : SysPolicy) (op : Word) (i : Instr), decode pol op = .ok i → i.validUnder pol = true ∧ encode i = op

/-- `Decode` is total, and the words it maps to `Unknown` are exactly the rows of R61's table (R60, R61). The fields
are computed here by division, not by the decoder's own slices. -/
def Obligations.IllegalWordsAreExactlyTheListed : Prop :=
  ∀ (pol : SysPolicy) (op : Word),
    ((∃ i, decode pol op = .ok i) ∨ decode pol op = .error (.unknown op)) ∧
    (decode pol op = .error (.unknown op) ↔
      (op.toNat / 4096 = 5 ∧ op.toNat % 16 ≠ 0) ∨
      (op.toNat / 4096 = 8 ∧ (op.toNat % 16 = 8 ∨ op.toNat % 16 = 9 ∨ op.toNat % 16 = 10 ∨ op.toNat % 16 = 11 ∨
        op.toNat % 16 = 12 ∨ op.toNat % 16 = 13 ∨ op.toNat % 16 = 15)) ∨
      (op.toNat / 4096 = 9 ∧ op.toNat % 16 ≠ 0) ∨
      (op.toNat / 4096 = 14 ∧ op.toNat % 256 ≠ 0x9E ∧ op.toNat % 256 ≠ 0xA1) ∨
      (op.toNat / 4096 = 15 ∧ op.toNat % 256 ≠ 0x07 ∧ op.toNat % 256 ≠ 0x0A ∧ op.toNat % 256 ≠ 0x15 ∧
        op.toNat % 256 ≠ 0x18 ∧ op.toNat % 256 ≠ 0x1E ∧ op.toNat % 256 ≠ 0x29 ∧ op.toNat % 256 ≠ 0x33 ∧
        op.toNat % 256 ≠ 0x55 ∧ op.toNat % 256 ≠ 0x65) ∨
      (pol = .unknown ∧ op.toNat / 4096 = 0 ∧ op.toNat ≠ 0xE0 ∧ op.toNat ≠ 0xEE))

/-- Apart from the `0nnn` row, no two different rows of the opcode table match the same word (R60). -/
def Obligations.OpcodeRowsDoNotOverlap : Prop :=
  ∀ (op : Word) (i j : Instr), op &&& (opcodeRow i).2 = (opcodeRow i).1 → op &&& (opcodeRow j).2 = (opcodeRow j).1 →
    (opcodeRow i).1 ≠ 0x0000#16 → (opcodeRow j).1 ≠ 0x0000#16 → opcodeRow i = opcodeRow j

/-- The words of 95_test_vectors.md E1 to E19 decode as listed (R59, R61). -/
def Obligations.ListedWordsDecodeAsListed : Prop :=
  decode .nop 0x0000#16 = .ok (.sys 0x000#12) ∧ decode .unknown 0x0000#16 = .error (.unknown 0x0000#16) ∧
  decode .nop 0x00E0#16 = .ok .cls ∧ decode .nop 0x00EE#16 = .ok .ret ∧
  decode .nop 0x00EF#16 = .ok (.sys 0x0EF#12) ∧ decode .nop 0x5120#16 = .ok (.seReg 1#4 2#4) ∧
  decode .nop 0x5121#16 = .error (.unknown 0x5121#16) ∧ decode .nop 0x8008#16 = .error (.unknown 0x8008#16) ∧
  decode .nop 0x800E#16 = .ok (.shl 0#4 0#4) ∧ decode .nop 0x800F#16 = .error (.unknown 0x800F#16) ∧
  decode .nop 0x9AB0#16 = .ok (.sneReg 0xA#4 0xB#4) ∧ decode .nop 0xB000#16 = .ok (.jpV0 0x000#12) ∧
  decode .nop 0xD000#16 = .ok (.drw 0#4 0#4 0#4) ∧ decode .nop 0xE09E#16 = .ok (.skp 0#4) ∧
  decode .nop 0xE09F#16 = .error (.unknown 0xE09F#16) ∧ decode .nop 0xF00B#16 = .error (.unknown 0xF00B#16) ∧
  decode .nop 0xF165#16 = .ok (.loadRegs 1#4) ∧ decode .nop 0xFFFF#16 = .error (.unknown 0xFFFF#16) ∧
  decode .nop 0x00FE#16 = .ok (.sys 0x0FE#12) ∧ decode .nop 0xF075#16 = .error (.unknown 0xF075#16)

/-! ## The execution cycle (40_cycle_and_host.md) -/

/-- When the bytes at the program counter decode to an instruction, a step is `exec` of it in the state with the Tick's
input latched, followed by the end of the Tick (R69, R70, R72). Where the input is latched, and the counter behind its
free value, are the model's choice (log entries 4 and 5, DESIGN CHOICE). -/
def Obligations.StepRunsTheDecodedInstruction : Prop :=
  ∀ (s : State) (a b : Nat) (i : Instr), s.loaded = true → s.mode = .running →
    ea s.cfg s.pc.toNat = .ok a → ea s.cfg (s.pc.toNat + 1) = .ok b →
    decodeBytes s.cfg.sysPolicy [s.readByte a, s.readByte b] = .ok (i, []) →
    i.validUnder s.cfg.sysPolicy = true ∧
    step s = afterExecute (exec i { s with
      touched := false, tickResult := .ok, rnd := Config.rndByte s.rndIndex, rndIndex := s.rndIndex + 1 })

/-- After an instruction that raised nothing, a Tick counts the timers down once under `PER_TICK` and updates `Dirty`
from `Touched`; no other state of the spec changes (R69, R74; 60_exceptions.md R143). The latched random byte, in `rnd`
before and cleared after, is the model's choice (log entry 4, DESIGN CHOICE). -/
def Obligations.CompletingTickCountsTimersAndSetsDirty : Prop :=
  ∀ (r : Byte) (s t : State) (i : Instr), s.Executes i →
    exec i { s with touched := false, tickResult := .ok, rnd := r } = .next t → (∀ e, t.mode ≠ .halted e) →
    tick r s = .next { t with dt := timerAfter t.cfg t.dt, st := timerAfter t.cfg t.st,
                              dirty := dirtyAfter t.cfg t.touched t.dirty, rnd := 0#8 }

/-- `Fetch` reads the two bytes at `PC`, the byte at the lower address in bits 15..8; past 0xFFF it wraps under `WRAP`
and raises with the lower failing address under `FAULT`, `PC` before `PC + 1` (R70; 20_memory.md R41, R44). -/
def Obligations.FetchIsBigEndianAndChecksItsAddresses : Prop :=
  ∀ (s : State),
    (s.pc.toNat ≤ 0xFFE →
      ∃ op, fetch s = .ok op ∧
        op.toNat = 256 * (s.readByte s.pc.toNat).toNat + (s.readByte (s.pc.toNat + 1)).toNat) ∧
    (s.cfg.addrOor = .wrap →
      ∃ op, fetch s = .ok op ∧
        op.toNat = 256 * (s.readByte (s.pc.toNat % 4096)).toNat + (s.readByte ((s.pc.toNat + 1) % 4096)).toNat) ∧
    (s.cfg.addrOor = .fault → 0xFFE < s.pc.toNat →
      fetch s = .error (if 0xFFF < s.pc.toNat then s.pc.toNat else s.pc.toNat + 1))

/-- A fetch that faults halts the core: `AddressFault` with the address and the `PC`, no timer step, nothing else
of the spec's state changed (R75; 60_exceptions.md R136, R138). The clause `rnd := 0#8`, and the record of the result
that `haltedBy` makes in `tickResult`, are the model's choice (log entries 4 and 6, DESIGN CHOICE). -/
def Obligations.FetchFaultHaltsTheCore : Prop :=
  ∀ (r : Byte) (s : State), s.loaded = true → s.mode = .running → s.cfg.addrOor = .fault → 0xFFE < s.pc.toNat →
    tick r s = .next { s.haltedBy
      (.addressFault (if 0xFFF < s.pc.toNat then s.pc.toNat else s.pc.toNat + 1) s.pc) with rnd := 0#8 }

/-- An unknown word is skipped: the result records the word and its address, `PC` advances by 2, the timer step and the
dirty update run, and no other state of the spec changes (R71; 60_exceptions.md R135). The clauses `rnd := 0#8` and
`tickResult := …` are the model's choice, no rule of the spec: the latched input is cleared at the end of a Tick (log
entry 4, DESIGN CHOICE) and the returned result is recorded in the state (log entry 6, DESIGN CHOICE). -/
def Obligations.UnknownWordIsSkippedAndReported : Prop :=
  ∀ (r : Byte) (s : State) (op : Word), s.loaded = true → s.mode = .running → fetch s = .ok op →
    decode s.cfg.sysPolicy op = .error (.unknown op) →
    tick r s = .next { s with
      pc := s.pc + 2#16, tickResult := .unknownOpcode op s.pc, touched := false, rnd := 0#8
      dt := timerAfter s.cfg s.dt, st := timerAfter s.cfg s.st, dirty := dirtyAfter s.cfg false s.dirty }

/-- A Tick of a waiting core: the lowest-numbered pressed key completes the wait (stored in `V[r]`, `PC` advanced by 2,
`Running`); with no key pressed nothing of that changes; the timer step and the dirty update run either way (R73). The
clauses `rnd := 0#8` and `tickResult := .ok` are the model's choice, no rule of the spec (log entries 4 and 6, DESIGN
CHOICE). -/
def Obligations.AwaitKeyTickStoresTheLowestPressedKey : Prop :=
  ∀ (rnd : Byte) (s : State) (r : Nibble), s.loaded = true → s.mode = .awaitKey r →
    (∀ k : Nibble, s.key k = true → (∀ j : Nibble, j.toNat < k.toNat → s.key j = false) →
      ∃ t, tick rnd s = .next t ∧
        (∀ j, t.reg j = if j = r then k.setWidth 8 else s.reg j) ∧
        t = { s with
          v := t.v, pc := s.pc + 2#16, mode := .running, tickResult := .ok, touched := false, rnd := 0#8
          dt := timerAfter s.cfg s.dt, st := timerAfter s.cfg s.st, dirty := dirtyAfter s.cfg false s.dirty }) ∧
    ((∀ k : Nibble, s.key k = false) →
      tick rnd s = .next { s with
        tickResult := .ok, touched := false, rnd := 0#8
        dt := timerAfter s.cfg s.dt, st := timerAfter s.cfg s.st, dirty := dirtyAfter s.cfg false s.dirty })

/-- Once a program is loaded a Tick always answers a next state, whatever the state, the input and the word at `PC`;
before that `Tick` and `TickTimers` have no move; the other host operations have one in every state (R67, R68). -/
def Obligations.TickIsTotalExactlyOnceLoaded : Prop :=
  ∀ (r : Byte) (s : State), (s.loaded = true → ∃ t, tick r s = .next t) ∧
    (s.loaded = false → (∀ t, tick r s ≠ .next t) ∧ ∀ p, hostStep .tickTimers s ≠ .next p) ∧
    (∀ op : HostOp, (∀ q, op ≠ .tick q) → op ≠ .tickTimers → ∃ p, hostStep op s = .next p)

/-- What a Tick returns: `Halted(e)` of a halted core and `Ok` of a waiting one; of a running core `Ok`, or
`UnknownOpcode` with the word and its address, or the fatal error that halted it (R76). What a Tick returns is read in
`tickResult`, the model's record of it (log entry 6). -/
def Obligations.TickResultsAreTheListed : Prop :=
  ∀ (r : Byte) (s t : State), tick r s = .next t →
    (∀ e, s.mode = .halted e → t.tickResult = .halted e) ∧
    (∀ q, s.mode = .awaitKey q → t.tickResult = .ok) ∧
    (s.mode = .running →
      (t.tickResult = .ok ∧ ∀ e, t.mode ≠ .halted e) ∨
      (∃ op, fetch s = .ok op ∧ decode s.cfg.sysPolicy op = .error (.unknown op) ∧
        t.tickResult = .unknownOpcode op s.pc ∧ t.mode = .running) ∨
      ∃ e, t.tickResult = .fatal e ∧ t.mode = .halted e)

/-- The only input a Tick's outcome depends on is the random byte, and only `RND` reads it: a Tick that does not execute
`RND` is the same for every random byte (R67, R72). -/
def Obligations.OnlyRndDependsOnTheRandomByte : Prop :=
  ∀ (r q : Byte) (s : State), (∀ x kk, ¬ s.Executes (.rnd x kk)) → tick r s = tick q s

/-! ## Fatal errors (60_exceptions.md) -/

/-- An instruction that ends halted made no write: the state is the one before it with `Mode = Halted(e)`, the dirty
update of `Touched = false` and the result `e`; and `e` is one that instruction can raise, with the `PC` of the
instruction (R134, R136; 00_scope.md R12; 40_cycle_and_host.md R75). -/
def Obligations.FatalErrorsArePrecise : Prop :=
  ∀ (i : Instr) (s t : State) (e : FatalError), s.mode = .running → exec i s = .next t → t.mode = .halted e →
    t = s.haltedBy e ∧ CanRaise s.cfg s.pc i e

/-- A Tick that halts a running core runs no timer step and leaves `PC`, registers, stack, memory and display as they
were (R136; 40_cycle_and_host.md R75). The clause `rnd := 0#8`, and the record of the result that `haltedBy` makes in
`tickResult`, are the model's choice, no rule of the spec (log entries 4 and 6, DESIGN CHOICE). -/
def Obligations.HaltingTickKeepsEverythingElse : Prop :=
  ∀ (r : Byte) (s t : State) (e : FatalError), s.mode = .running → tick r s = .next t → t.mode = .halted e →
    t = { s.haltedBy e with rnd := 0#8 }

/-! ## Control family (41_control.md) -/

/-- `SYS nnn` only advances `PC`; `JP nnn` sets `PC` to the zero-extended address (R95, R98). -/
def Obligations.SysOnlyAdvancesAndJpSetsPc : Prop :=
  ∀ (pol : SysPolicy) (s : State) (nnn : Addr12),
    (nnn ≠ 0x0E0#12 → nnn ≠ 0x0EE#12 → decode .nop (0x0#4 ++ nnn) = .ok (.sys nnn) ∧
      decode .unknown (0x0#4 ++ nnn) = .error (.unknown (0x0#4 ++ nnn))) ∧
    exec (.sys nnn) s = .next { s with pc := s.pc + 2#16 } ∧
    decode pol (0x1#4 ++ nnn) = .ok (.jp nnn) ∧
    ∃ t, exec (.jp nnn) s = .next t ∧ t.pc.toNat = nnn.toNat ∧ t = { s with pc := t.pc }

/-- `CLS` clears all 256 display bytes, whatever they were, and sets `Touched` (R96). -/
def Obligations.ClsClearsTheDisplay : Prop :=
  ∀ (pol : SysPolicy) (s : State), decode pol 0x00E0#16 = .ok .cls ∧
    ∃ t, exec .cls s = .next t ∧ (∀ (k : Nat) (h : k < 256), t.display[k] = 0#8) ∧
      t = { s with display := t.display, touched := true, pc := s.pc + 2#16 }

/-- `RET` pops the most recent return address into `PC` and leaves the entry in place; with an empty stack it raises
`StackUnderflow` (R97; 10_state.md R20, R21). -/
def Obligations.RetPopsOrUnderflows : Prop :=
  ∀ (pol : SysPolicy) (s : State), decode pol 0x00EE#16 = .ok .ret ∧
    (∀ (k : Nat) (hk : k < 16), s.sp.val = k + 1 →
      ∃ t, exec .ret s = .next t ∧ t.sp.val = k ∧ t.pc = s.stack[k] ∧ t = { s with sp := t.sp, pc := t.pc }) ∧
    (s.sp.val = 0 → exec .ret s = .next (s.haltedBy (.stackUnderflow s.pc)))

/-- `CALL nnn` pushes `PC + 2` and jumps; with 16 addresses held it raises `StackOverflow` (R99; 10_state.md R21). -/
def Obligations.CallPushesOrOverflows : Prop :=
  ∀ (pol : SysPolicy) (s : State) (nnn : Addr12), decode pol (0x2#4 ++ nnn) = .ok (.call nnn) ∧
    (s.sp.val < 16 →
      ∃ t, exec (.call nnn) s = .next t ∧ t.sp.val = s.sp.val + 1 ∧ t.pc.toNat = nnn.toNat ∧
        (∀ (k : Nat) (h : k < 16), t.stack[k] = if k = s.sp.val then s.pc + 2#16 else s.stack[k]) ∧
        t = { s with stack := t.stack, sp := t.sp, pc := t.pc }) ∧
    (s.sp.val = 16 → exec (.call nnn) s = .next (s.haltedBy (.stackOverflow s.pc)))

/-- A `RET` reached with the stack a `CALL` left returns to the instruction after the `CALL`, with the depth as before
it (R97, R99; 95_test_vectors.md W7). -/
def Obligations.RetReturnsAfterItsCall : Prop :=
  ∀ (s t u : State) (nnn : Addr12), s.sp.val < 16 → exec (.call nnn) s = .next t → u.stack = t.stack → u.sp = t.sp →
    ∃ w, exec .ret u = .next w ∧ w.pc = s.pc + 2#16 ∧ w.sp = s.sp

/-! ## Skip family (42_skip.md) and the key skips (47_input.md) -/

/-- The four skips add 4 to `PC` when their condition holds, else 2, and change nothing else (R100 to R103). -/
def Obligations.SkipsAddFourOrTwo : Prop :=
  ∀ (pol : SysPolicy) (s : State) (x y : Nibble) (kk : Byte),
    (∀ n : Nibble, n ≠ 0#4 →
      decode pol (0x5#4 ++ x ++ y ++ n) = .error (.unknown (0x5#4 ++ x ++ y ++ n)) ∧
      decode pol (0x9#4 ++ x ++ y ++ n) = .error (.unknown (0x9#4 ++ x ++ y ++ n))) ∧
    decode pol (0x3#4 ++ x ++ kk) = .ok (.seImm x kk) ∧ decode pol (0x4#4 ++ x ++ kk) = .ok (.sneImm x kk) ∧
    decode pol (0x5#4 ++ x ++ y ++ 0#4) = .ok (.seReg x y) ∧ decode pol (0x9#4 ++ x ++ y ++ 0#4) = .ok (.sneReg x y) ∧
    exec (.seImm x kk) s = .next { s with pc := s.pc + (if s.reg x = kk then 4#16 else 2#16) } ∧
    exec (.sneImm x kk) s = .next { s with pc := s.pc + (if s.reg x = kk then 2#16 else 4#16) } ∧
    exec (.seReg x y) s = .next { s with pc := s.pc + (if s.reg x = s.reg y then 4#16 else 2#16) } ∧
    exec (.sneReg x y) s = .next { s with pc := s.pc + (if s.reg x = s.reg y then 2#16 else 4#16) }

/-- `SKP` and `SKNP` look at the key numbered by the low nibble of `Vx`, and change nothing but `PC` (R122, R123). -/
def Obligations.KeySkipsReadTheKeyOfTheLowNibble : Prop :=
  ∀ (pol : SysPolicy) (s : State) (x k : Nibble), k.toNat = (s.reg x).toNat % 16 →
    decode pol (0xE#4 ++ x ++ 0x9E#8) = .ok (.skp x) ∧ decode pol (0xE#4 ++ x ++ 0xA1#8) = .ok (.sknp x) ∧
    exec (.skp x) s = .next { s with pc := s.pc + (if s.key k = true then 4#16 else 2#16) } ∧
    exec (.sknp x) s = .next { s with pc := s.pc + (if s.key k = true then 2#16 else 4#16) }

/-! ## Load family (43_load.md) -/

/-- `LD Vx, kk`, `ADD Vx, kk`, `LD Vx, Vy` and `LD I, nnn`: the value written, no flag, `PC` advanced, nothing else
changed (R104 to R107). -/
def Obligations.LoadsWriteTheirValue : Prop :=
  ∀ (pol : SysPolicy) (s : State) (x y : Nibble) (kk : Byte) (nnn : Addr12),
    decode pol (0x6#4 ++ x ++ kk) = .ok (.ldImm x kk) ∧ decode pol (0x7#4 ++ x ++ kk) = .ok (.addImm x kk) ∧
    decode pol (0x8#4 ++ x ++ y ++ 0#4) = .ok (.ldReg x y) ∧ decode pol (0xA#4 ++ nnn) = .ok (.ldI nnn) ∧
    (∃ t, exec (.ldImm x kk) s = .next t ∧ (∀ j, t.reg j = if j = x then kk else s.reg j) ∧
      t = { s with v := t.v, pc := s.pc + 2#16 }) ∧
    (∃ t, exec (.addImm x kk) s = .next t ∧ (t.reg x).toNat = ((s.reg x).toNat + kk.toNat) % 256 ∧
      (∀ j, j ≠ x → t.reg j = s.reg j) ∧ t = { s with v := t.v, pc := s.pc + 2#16 }) ∧
    (∃ t, exec (.ldReg x y) s = .next t ∧ (∀ j, t.reg j = if j = x then s.reg y else s.reg j) ∧
      t = { s with v := t.v, pc := s.pc + 2#16 }) ∧
    (∃ t, exec (.ldI nnn) s = .next t ∧ t.i.toNat = nnn.toNat ∧ t = { s with i := t.i, pc := s.pc + 2#16 })

/-- `JP V0, nnn` jumps to the exact sum of the address and `V0`, at most 0x10FE, whatever the second nibble is; nothing
else changes (R108). -/
def Obligations.JumpWithOffsetAddsV0 : Prop :=
  ∀ (pol : SysPolicy) (s : State) (nnn : Addr12), decode pol (0xB#4 ++ nnn) = .ok (.jpV0 nnn) ∧
    ∃ t, exec (.jpV0 nnn) s = .next t ∧ t.pc.toNat = nnn.toNat + (s.reg 0#4).toNat ∧ t.pc.toNat ≤ 0x10FE ∧
      t = { s with pc := t.pc }

/-! ## Arithmetic family (44_arithmetic.md) -/

/-- `OR`, `AND`, `XOR`: the bitwise result in `Vx`, then `VF` set to 0 under `LOGIC_VF = RESET` and not written under
`KEEP` (R110 to R112). -/
def Obligations.LogicOpsWriteVxThenClearVf : Prop :=
  ∀ (pol : SysPolicy) (s : State) (x y : Nibble),
    decode pol (0x8#4 ++ x ++ y ++ 1#4) = .ok (.orReg x y) ∧ decode pol (0x8#4 ++ x ++ y ++ 2#4) = .ok (.andReg x y) ∧
    decode pol (0x8#4 ++ x ++ y ++ 3#4) = .ok (.xorReg x y) ∧
    (∃ t, exec (.orReg x y) s = .next t ∧ t = { s with v := t.v, pc := s.pc + 2#16 } ∧
      ∀ j, t.reg j = if j = 0xF#4 ∧ s.cfg.logicVf = .reset then 0#8
        else if j = x then s.reg x ||| s.reg y else s.reg j) ∧
    (∃ t, exec (.andReg x y) s = .next t ∧ t = { s with v := t.v, pc := s.pc + 2#16 } ∧
      ∀ j, t.reg j = if j = 0xF#4 ∧ s.cfg.logicVf = .reset then 0#8
        else if j = x then s.reg x &&& s.reg y else s.reg j) ∧
    (∃ t, exec (.xorReg x y) s = .next t ∧ t = { s with v := t.v, pc := s.pc + 2#16 } ∧
      ∀ j, t.reg j = if j = 0xF#4 ∧ s.cfg.logicVf = .reset then 0#8
        else if j = x then s.reg x ^^^ s.reg y else s.reg j)

/-- `ADD Vx, Vy`: the sum mod 256 in `Vx`, then the carry in `VF`, which wins when `x = 15`; operands are read first
(R109, R113). -/
def Obligations.AddSetsCarry : Prop :=
  ∀ (pol : SysPolicy) (s : State) (x y : Nibble), decode pol (0x8#4 ++ x ++ y ++ 4#4) = .ok (.addReg x y) ∧
    ∃ t, exec (.addReg x y) s = .next t ∧ t = { s with v := t.v, pc := s.pc + 2#16 } ∧
      t.reg 0xF#4 = (if 255 < (s.reg x).toNat + (s.reg y).toNat then 1#8 else 0#8) ∧
      (x ≠ 0xF#4 → (t.reg x).toNat = ((s.reg x).toNat + (s.reg y).toNat) % 256) ∧
      ∀ j, j ≠ x → j ≠ 0xF#4 → t.reg j = s.reg j

/-- `SUB` (`Vx - Vy`) and `SUBN` (`Vy - Vx`): the difference mod 256 in `Vx`, then 1 in `VF` exactly when no borrow
occurs (R109, R114, R116). -/
def Obligations.SubtractionsSetNotBorrow : Prop :=
  ∀ (pol : SysPolicy) (s : State) (x y : Nibble),
    decode pol (0x8#4 ++ x ++ y ++ 5#4) = .ok (.sub x y) ∧ decode pol (0x8#4 ++ x ++ y ++ 7#4) = .ok (.subn x y) ∧
    (∃ t, exec (.sub x y) s = .next t ∧ t = { s with v := t.v, pc := s.pc + 2#16 } ∧
      t.reg 0xF#4 = (if (s.reg y).toNat ≤ (s.reg x).toNat then 1#8 else 0#8) ∧
      (x ≠ 0xF#4 → ((t.reg x).toNat : Int) = ((s.reg x).toNat - (s.reg y).toNat : Int) % 256) ∧
      ∀ j, j ≠ x → j ≠ 0xF#4 → t.reg j = s.reg j) ∧
    (∃ t, exec (.subn x y) s = .next t ∧ t = { s with v := t.v, pc := s.pc + 2#16 } ∧
      t.reg 0xF#4 = (if (s.reg x).toNat ≤ (s.reg y).toNat then 1#8 else 0#8) ∧
      (x ≠ 0xF#4 → ((t.reg x).toNat : Int) = ((s.reg y).toNat - (s.reg x).toNat : Int) % 256) ∧
      ∀ j, j ≠ x → j ≠ 0xF#4 → t.reg j = s.reg j)

/-- `SHR` and `SHL` shift `Vy` (under `SHIFT_SOURCE = VY`) or `Vx` by one into `Vx`, then put the bit shifted out in
`VF` (R109, R115, R117). -/
def Obligations.ShiftsSetTheShiftedOutBit : Prop :=
  ∀ (pol : SysPolicy) (s : State) (x y : Nibble) (src : Byte),
    src = (if s.cfg.shiftSource = .vy then s.reg y else s.reg x) →
    decode pol (0x8#4 ++ x ++ y ++ 6#4) = .ok (.shr x y) ∧ decode pol (0x8#4 ++ x ++ y ++ 0xE#4) = .ok (.shl x y) ∧
    (∃ t, exec (.shr x y) s = .next t ∧ t = { s with v := t.v, pc := s.pc + 2#16 } ∧
      (t.reg 0xF#4).toNat = src.toNat % 2 ∧ (x ≠ 0xF#4 → (t.reg x).toNat = src.toNat / 2) ∧
      ∀ j, j ≠ x → j ≠ 0xF#4 → t.reg j = s.reg j) ∧
    (∃ t, exec (.shl x y) s = .next t ∧ t = { s with v := t.v, pc := s.pc + 2#16 } ∧
      (t.reg 0xF#4).toNat = src.toNat / 128 ∧ (x ≠ 0xF#4 → (t.reg x).toNat = 2 * src.toNat % 256) ∧
      ∀ j, j ≠ x → j ≠ 0xF#4 → t.reg j = s.reg j)

/-! ## Random family (45_random.md) -/

/-- `RND Vx, kk` writes the Tick's random byte AND the mask to `Vx` and nothing else but `PC`, for every random byte; and
that byte is the one the Tick was given (R118; 40_cycle_and_host.md R83). -/
def Obligations.RndMasksTheTicksRandomByte : Prop :=
  ∀ (pol : SysPolicy) (r : Byte) (s : State) (x : Nibble) (kk : Byte),
    decode pol (0xC#4 ++ x ++ kk) = .ok (.rnd x kk) ∧
    (∃ t, exec (.rnd x kk) s = .next t ∧ (∀ j, t.reg j = if j = x then s.rnd &&& kk else s.reg j) ∧
      t = { s with v := t.v, pc := s.pc + 2#16 }) ∧
    (s.Executes (.rnd x kk) → ∃ t, tick r s = .next t ∧ t.reg x = r &&& kk)

/-! ## Draw family (46_draw.md) -/

/-- `DRW Vx, Vy, n`: a sprite row past 0xFFF raises `AddressFault` of the first such address; with legal addresses it
flips exactly the pixels that a sprite bit 1 covers, per-pixel wraparound included, sets `VF` to 1 exactly when one of
them was lit, and sets `Touched`; nothing else changes (R119, R120). -/
def Obligations.DrwXorsTheSpriteAndReportsCollision : Prop :=
  ∀ (pol : SysPolicy) (s : State) (x y n : Nibble),
    decode pol (0xD#4 ++ x ++ y ++ n) = .ok (.drw x y n) ∧
    (¬ BlockInMemory s.cfg s.i.toNat n.toNat →
      exec (.drw x y n) s = .next (s.haltedBy (.addressFault (max s.i.toNat 0x1000) s.pc))) ∧
    (BlockInMemory s.cfg s.i.toNat n.toNat →
      ∃ t, exec (.drw x y n) s = .next t ∧
        (∀ px py, pix t.display px py = true ↔
          ¬ (pix s.display px py = true ↔
            SpriteCovers (s.reg x) (s.reg y) 0 (s.blockBytes s.i.toNat n.toNat) px py)) ∧
        ((∃ px py, SpriteCovers (s.reg x) (s.reg y) 0 (s.blockBytes s.i.toNat n.toNat) px py ∧
          pix s.display px py = true) → t.reg 0xF#4 = 1#8) ∧
        ((¬ ∃ px py, SpriteCovers (s.reg x) (s.reg y) 0 (s.blockBytes s.i.toNat n.toNat) px py ∧
          pix s.display px py = true) → t.reg 0xF#4 = 0#8) ∧
        (∀ j, j ≠ 0xF#4 → t.reg j = s.reg j) ∧
        t = { s with v := t.v, display := t.display, touched := true, pc := s.pc + 2#16 })

/-- The laws of `DRW`: drawing the same sprite twice at the same coordinates restores the whole display; the second draw
reports a collision exactly when the sprite has a bit 1 whose pixel was dark before the first; a draw changes no pixel
whose sprite bit is 0, and none outside the rows `(Vy + r) mod 32` (R121; 90_conflicts.md C2). The second draw may name
other registers: the first overwrites `VF`. -/
def Obligations.DrawingTwiceRestoresTheDisplay : Prop :=
  ∀ (s t : State) (x y n : Nibble), BlockInMemory s.cfg s.i.toNat n.toNat → exec (.drw x y n) s = .next t →
    (∀ x' y' : Nibble, t.reg x' = s.reg x → t.reg y' = s.reg y →
      ∃ u, exec (.drw x' y' n) t = .next u ∧ u.display = s.display ∧
        (u.reg 0xF#4 = 1#8 ↔
          ∃ px py, SpriteCovers (s.reg x) (s.reg y) 0 (s.blockBytes s.i.toNat n.toNat) px py ∧
            pix s.display px py = false)) ∧
    (∀ px py, ¬ SpriteCovers (s.reg x) (s.reg y) 0 (s.blockBytes s.i.toNat n.toNat) px py →
      pix t.display px py = pix s.display px py) ∧
    (∀ px (py : Fin 32), (∀ k, k < n.toNat → py.val ≠ ((s.reg y).toNat + k) % 32) →
      pix t.display px py = pix s.display px py)

/-- `Pix(px, py)` is bit `7 - (px mod 8)` of display byte `py * 8 + px div 8`, and writing it changes that pixel and no
other (10_state.md R26). -/
def Obligations.PixelsAreBitsOfTheDisplayBytes : Prop :=
  ∀ (d : Display) (px qx : Fin 64) (py qy : Fin 32) (b : Bool) (h : py.val * 8 + px.val / 8 < 256),
    pix d px py = d[py.val * 8 + px.val / 8].getLsbD (7 - px.val % 8) ∧
    pix (setPix d px py b) qx qy = if qx = px ∧ qy = py then b else pix d qx qy

/-! ## Input family (47_input.md) -/

/-- `LD Vx, K` enters `AwaitKey(x)` and changes nothing else, `PC` included; only under `KEYWAIT_SAMPLE_ON_ENTRY` does a
key already pressed complete it at once, with the lowest-numbered one (R124). -/
def Obligations.LdKeyEntersTheWait : Prop :=
  ∀ (pol : SysPolicy) (s : State) (x : Nibble), decode pol (0xF#4 ++ x ++ 0x0A#8) = .ok (.ldKey x) ∧
    (s.cfg.keywaitSampleOnEntry = false ∨ (∀ k : Nibble, s.key k = false) →
      exec (.ldKey x) s = .next { s with mode := .awaitKey x }) ∧
    (∀ k : Nibble, s.cfg.keywaitSampleOnEntry = true → s.key k = true →
      (∀ j : Nibble, j.toNat < k.toNat → s.key j = false) →
      ∃ t, exec (.ldKey x) s = .next t ∧ (∀ j, t.reg j = if j = x then k.setWidth 8 else s.reg j) ∧
        t = { s with v := t.v, pc := s.pc + 2#16, mode := .running })

/-- The key-wait state machine: a running core starts to wait only by executing `LD Vx, K`; a waiting core stays waiting
exactly when no key is pressed, and then keeps its registers, `PC`, `I`, stack, memory and display; otherwise it runs;
`SetKeyState` never ends the wait, and `LoadProgram` always does (R125). -/
def Obligations.KeyWaitStateMachine : Prop :=
  (∀ (q : Byte) (s t : State) (r : Nibble), tick q s = .next t → s.mode = .running → t.mode = .awaitKey r →
    s.Executes (.ldKey r)) ∧
  (∀ (q : Byte) (s t : State) (r : Nibble), tick q s = .next t → s.mode = .awaitKey r →
    (∃ k, s.key k = true) ∧ t.mode = .running ∧ t.pc = s.pc + 2#16 ∨
    (∀ k, s.key k = false) ∧ t.mode = .awaitKey r ∧ t.v = s.v ∧ t.pc = s.pc ∧ t.i = s.i ∧ t.stack = s.stack ∧
      t.sp = s.sp ∧ t.mem = s.mem ∧ t.display = s.display ∧ (s.cfg.dirtyMode = .perTick → t.dirty = false)) ∧
  (∀ (s : State) (key : Int) (p : Bool), (setKeyState key p s).2.mode = s.mode) ∧
  (∀ (s : State) (bytes : List Byte), bytes.length ≤ 3584 → (loadProgram bytes s).2.mode = .running)

/-! ## Timer family (48_timer.md) and the countdown (60_exceptions.md) -/

/-- `LD Vx, DT`, `LD DT, Vx` and `LD ST, Vx` move the byte and change nothing else but `PC`; under `PER_TICK` the same
Tick's countdown follows, so after the Tick the timer holds `Vx - 1`, or 0 (R126 to R128). -/
def Obligations.TimerInstructionsMoveTheByte : Prop :=
  ∀ (pol : SysPolicy) (r : Byte) (s : State) (x : Nibble),
    decode pol (0xF#4 ++ x ++ 0x07#8) = .ok (.ldFromDt x) ∧ decode pol (0xF#4 ++ x ++ 0x15#8) = .ok (.ldDt x) ∧
    decode pol (0xF#4 ++ x ++ 0x18#8) = .ok (.ldSt x) ∧
    (∃ t, exec (.ldFromDt x) s = .next t ∧ (∀ j, t.reg j = if j = x then s.dt else s.reg j) ∧
      t = { s with v := t.v, pc := s.pc + 2#16 }) ∧
    exec (.ldDt x) s = .next { s with dt := s.reg x, pc := s.pc + 2#16 } ∧
    exec (.ldSt x) s = .next { s with st := s.reg x, pc := s.pc + 2#16 } ∧
    (s.Executes (.ldFromDt x) → ∃ t, tick r s = .next t ∧ t.reg x = s.dt ∧ t.dt = timerAfter s.cfg s.dt) ∧
    (s.Executes (.ldDt x) → ∃ t, tick r s = .next t ∧ t.dt = timerAfter s.cfg (s.reg x)) ∧
    (s.Executes (.ldSt x) → ∃ t, tick r s = .next t ∧ t.st = timerAfter s.cfg (s.reg x))

/-- `N` timer steps from a timer at `N` leave it at 0, and it never underflows below 0: after `n` steps a timer that held
`N` holds `N - n`, cut off at 0; the steps change nothing else (R143, R145). -/
def Obligations.CountdownReachesZeroAndStays : Prop :=
  ∀ (n : Nat) (s : State),
    (timerStep^[n] s).dt.toNat = s.dt.toNat - n ∧ (timerStep^[n] s).st.toNat = s.st.toNat - n ∧
    timerStep^[n] s = { s with dt := (timerStep^[n] s).dt, st := (timerStep^[n] s).st }

/-- Under `PER_TICK` every completing Tick counts each timer down once, unless the instruction it executed loaded that
timer; under `SEPARATE` no Tick counts (R143; 40_cycle_and_host.md R69). -/
def Obligations.EveryCompletingTickCountsDown : Prop :=
  ∀ (r : Byte) (s t : State), tick r s = .next t → t.Alive →
    ((∀ x, ¬ s.Executes (.ldDt x)) → t.dt = timerAfter s.cfg s.dt) ∧
    ((∀ x, ¬ s.Executes (.ldSt x)) → t.st = timerAfter s.cfg s.st)

/-! ## Memory family (49_memory_ops.md) -/

/-- `ADD I, Vx` adds mod 65536 with no flag; `LD F, Vx` points `I` at the glyph of the low nibble; neither changes
anything else but `PC` (R129, R130). -/
def Obligations.IndexInstructionsSetI : Prop :=
  ∀ (pol : SysPolicy) (s : State) (x : Nibble),
    decode pol (0xF#4 ++ x ++ 0x1E#8) = .ok (.addI x) ∧ decode pol (0xF#4 ++ x ++ 0x29#8) = .ok (.ldF x) ∧
    (∃ t, exec (.addI x) s = .next t ∧ t.i.toNat = (s.i.toNat + (s.reg x).toNat) % 65536 ∧
      t = { s with i := t.i, pc := s.pc + 2#16 }) ∧
    (∃ t, exec (.ldF x) s = .next t ∧
      t.i.toNat = (s.cfg.fontBase + 5 * ((s.reg x).toNat % 16)) % 65536 ∧
      t = { s with i := t.i, pc := s.pc + 2#16 })

/-- `LD B, Vx`: a block past 0xFFF raises `AddressFault` of its first such address, then a block that reaches the font
raises `FontWrite` of its lowest font address under `FONT_WRITE = FAULT`; else the decimal digits of `Vx`, hundreds
first, are stored at `I`, `I+1`, `I+2`, a font byte keeping its value; every other byte and everything else but `PC` is
unchanged, `I` included (R131; 20_memory.md R39). -/
def Obligations.LdBStoresTheDecimalDigits : Prop :=
  ∀ (pol : SysPolicy) (s : State) (x : Nibble),
    decode pol (0xF#4 ++ x ++ 0x33#8) = .ok (.ldB x) ∧
    (¬ BlockInMemory s.cfg s.i.toNat 3 →
      exec (.ldB x) s = .next (s.haltedBy (.addressFault (max s.i.toNat 0x1000) s.pc))) ∧
    (∀ j, j < 3 → BlockInMemory s.cfg s.i.toNat 3 → s.cfg.fontWrite = .fault →
      isFont s.cfg (memIndex (s.i.toNat + j)) = true →
      (∀ k, k < 3 → isFont s.cfg (memIndex (s.i.toNat + k)) = true →
        memIndex (s.i.toNat + j) ≤ memIndex (s.i.toNat + k)) →
      exec (.ldB x) s = .next (s.haltedBy (.fontWrite (memIndex (s.i.toNat + j)) s.pc))) ∧
    (BlockInMemory s.cfg s.i.toNat 3 → BlockStorable s.cfg s.i.toNat 3 →
      ∃ t, exec (.ldB x) s = .next t ∧ t = { s with mem := t.mem, pc := s.pc + 2#16 } ∧
        ∀ a : Nat,
          (isFont s.cfg a = true → t.readByte a = s.readByte a) ∧
          (a ≠ memIndex s.i.toNat → a ≠ memIndex (s.i.toNat + 1) → a ≠ memIndex (s.i.toNat + 2) →
            t.readByte a = s.readByte a) ∧
          (isFont s.cfg a = false →
            (a = memIndex s.i.toNat → (t.readByte a).toNat = (s.reg x).toNat / 100) ∧
            (a = memIndex (s.i.toNat + 1) → (t.readByte a).toNat = (s.reg x).toNat / 10 % 10) ∧
            (a = memIndex (s.i.toNat + 2) → (t.readByte a).toNat = (s.reg x).toNat % 10)))

/-- `LD [I], Vx`: the two faults as for `LD B`; else `V0`..`Vx` are stored at `I`..`I+x`, a font byte keeping its value;
every other byte is unchanged; `I` ends one past the block under `INCREMENT` and is kept under `KEEP`; nothing else but
`PC` changes (R132; 20_memory.md R39). -/
def Obligations.StoreRegsStoresTheBlock : Prop :=
  ∀ (pol : SysPolicy) (s : State) (x : Nibble),
    decode pol (0xF#4 ++ x ++ 0x55#8) = .ok (.storeRegs x) ∧
    (¬ BlockInMemory s.cfg s.i.toNat (x.toNat + 1) →
      exec (.storeRegs x) s = .next (s.haltedBy (.addressFault (max s.i.toNat 0x1000) s.pc))) ∧
    (∀ j, j ≤ x.toNat → BlockInMemory s.cfg s.i.toNat (x.toNat + 1) → s.cfg.fontWrite = .fault →
      isFont s.cfg (memIndex (s.i.toNat + j)) = true →
      (∀ k, k ≤ x.toNat → isFont s.cfg (memIndex (s.i.toNat + k)) = true →
        memIndex (s.i.toNat + j) ≤ memIndex (s.i.toNat + k)) →
      exec (.storeRegs x) s = .next (s.haltedBy (.fontWrite (memIndex (s.i.toNat + j)) s.pc))) ∧
    (BlockInMemory s.cfg s.i.toNat (x.toNat + 1) → BlockStorable s.cfg s.i.toNat (x.toNat + 1) →
      ∃ t, exec (.storeRegs x) s = .next t ∧ t = { s with mem := t.mem, i := t.i, pc := s.pc + 2#16 } ∧
        (s.cfg.loadStoreI = .increment → t.i.toNat = (s.i.toNat + x.toNat + 1) % 65536) ∧
        (s.cfg.loadStoreI = .keep → t.i = s.i) ∧
        ∀ a : Nat,
          (isFont s.cfg a = true → t.readByte a = s.readByte a) ∧
          ((∀ j : Nibble, j.toNat ≤ x.toNat → a ≠ memIndex (s.i.toNat + j.toNat)) → t.readByte a = s.readByte a) ∧
          (∀ j : Nibble, j.toNat ≤ x.toNat → a = memIndex (s.i.toNat + j.toNat) → isFont s.cfg a = false →
            t.readByte a = s.reg j))

/-- `LD Vx, [I]`: a block past 0xFFF raises `AddressFault` of its first such address; else `V0`..`Vx` are loaded from
`I`..`I+x` and the other registers kept; `I` as for the store; nothing else but `PC` changes (R133). -/
def Obligations.LoadRegsLoadsTheBlock : Prop :=
  ∀ (pol : SysPolicy) (s : State) (x : Nibble),
    decode pol (0xF#4 ++ x ++ 0x65#8) = .ok (.loadRegs x) ∧
    (¬ BlockInMemory s.cfg s.i.toNat (x.toNat + 1) →
      exec (.loadRegs x) s = .next (s.haltedBy (.addressFault (max s.i.toNat 0x1000) s.pc))) ∧
    (BlockInMemory s.cfg s.i.toNat (x.toNat + 1) →
      ∃ t, exec (.loadRegs x) s = .next t ∧ t = { s with v := t.v, i := t.i, pc := s.pc + 2#16 } ∧
        (s.cfg.loadStoreI = .increment → t.i.toNat = (s.i.toNat + x.toNat + 1) % 65536) ∧
        (s.cfg.loadStoreI = .keep → t.i = s.i) ∧
        ∀ j : Nibble, t.reg j = if j.toNat ≤ x.toNat then s.readByte (memIndex (s.i.toNat + j.toNat)) else s.reg j)

/-- `MemWrite` of a byte at a legal address sets that byte of memory, unless it is a font byte, and changes no other
byte (20_memory.md R43, R39). -/
def Obligations.MemWriteSetsOneByteOutsideTheFont : Prop :=
  ∀ (c : Config) (m : Memory) (a i b : Nat) (v : Byte), ea c a = .ok i →
    memByte c (memWrite c m i v) b = if b = i ∧ isFont c i = false then v else memByte c m b

/-- Storing `V0`..`Vx` outside the font and loading them back from the same address restores them, whatever the
registers held in between (R132, R133). -/
def Obligations.LoadRegsUndoesStoreRegs : Prop :=
  ∀ (s t u : State) (x : Nibble), BlockInMemory s.cfg s.i.toNat (x.toNat + 1) →
    (∀ j : Nibble, j.toNat ≤ x.toNat → isFont s.cfg (memIndex (s.i.toNat + j.toNat)) = false) →
    exec (.storeRegs x) s = .next t → u.cfg = t.cfg → u.mem = t.mem → u.i = s.i →
    ∃ w, exec (.loadRegs x) u = .next w ∧ ∀ j : Nibble, j.toNat ≤ x.toNat → w.reg j = s.reg j

/-- A byte that `LD [I], Vx` stores at the address the next instruction is fetched from is what that fetch reads: code
and data share one memory, with no fence (20_memory.md R52). -/
def Obligations.StoredBytesAreFetchedAtOnce : Prop :=
  ∀ (s t : State) (j k x : Nibble), s.pc.toNat + 3 ≤ 0xFFF → s.i.toNat + x.toNat ≤ 0xFFF →
    s.i.toNat + j.toNat = s.pc.toNat + 2 → k.toNat = j.toNat + 1 → k.toNat ≤ x.toNat →
    isFont s.cfg (s.pc.toNat + 2) = false → isFont s.cfg (s.pc.toNat + 3) = false →
    exec (.storeRegs x) s = .next t → t.mode = s.mode →
    (∀ e, s.mode ≠ .halted e) → fetch t = .ok (joinBytes (s.reg j) (s.reg k))

/-! ## What each instruction writes (10_state.md, 20_memory.md) -/

/-- No instruction writes a general register outside R17's table (R17). -/
def Obligations.RegistersWrittenAreTheTables : Prop :=
  ∀ (i : Instr) (s t : State) (j : Nibble), exec i s = .next t → ¬ WritesReg s.cfg i j → t.reg j = s.reg j

/-- Only `LD B` and `LD [I]` change a byte of memory, and only in their block at `I`; every byte of memory reads as
before under every other instruction (20_memory.md R35). -/
def Obligations.MemoryWrittenOnlyByTheStores : Prop :=
  ∀ (i : Instr) (s t : State) (a : Nat), exec i s = .next t →
    t.readByte a = s.readByte a ∨
    (∃ x, i = .ldB x ∧ ∃ j, j < 3 ∧ a = memIndex (s.i.toNat + j)) ∨
    (∃ x : Nibble, i = .storeRegs x ∧ ∃ j, j ≤ x.toNat ∧ a = memIndex (s.i.toNat + j))

/-- Which instructions write the rest of the state: the display and `Touched` only `CLS` and `DRW`; the stack only
`CALL`, its depth only `CALL` and `RET`; the timers only `LD DT` and `LD ST`; `I` only `LD I`, `ADD I`, `LD F`,
`LD [I]` and `LD Vx, [I]` (R18, R20 to R23, R25, R29). -/
def Obligations.OtherStateWrittenOnlyByItsInstructions : Prop :=
  ∀ (i : Instr) (s t : State), exec i s = .next t →
    (t.display ≠ s.display → i = .cls ∨ ∃ x y n, i = .drw x y n) ∧
    (t.touched ≠ false → s.touched = false → i = .cls ∨ ∃ x y n, i = .drw x y n) ∧
    (t.stack ≠ s.stack → ∃ nnn, i = .call nnn) ∧
    (t.sp ≠ s.sp → i = .ret ∨ ∃ nnn, i = .call nnn) ∧
    (t.dt ≠ s.dt → ∃ x, i = .ldDt x) ∧
    (t.st ≠ s.st → ∃ x, i = .ldSt x) ∧
    (t.i ≠ s.i → (∃ nnn, i = .ldI nnn) ∨ ∃ x, i = .addI x ∨ i = .ldF x ∨ i = .storeRegs x ∨ i = .loadRegs x)

/-- No step changes the parameters, the keypad or `Loaded` (R27, R31; 40_cycle_and_host.md R66). -/
def Obligations.StepKeepsKeypadLoadedAndParameters : Prop :=
  ∀ (s t : State), step s = .next t → t.cfg = s.cfg ∧ t.keys = s.keys ∧ t.loaded = s.loaded

/-- Under `PER_TICK`, after a Tick that leaves the core alive, `Dirty` is true exactly when that Tick executed `CLS` or
`DRW`, whether or not a bit changed (R28; 40_cycle_and_host.md R74). -/
def Obligations.DirtyExactlyAfterClsOrDrw : Prop :=
  ∀ (r : Byte) (s t : State), s.cfg.dirtyMode = .perTick → tick r s = .next t → t.Alive →
    (t.dirty = true ↔ s.Executes .cls ∨ ∃ x y n, s.Executes (.drw x y n))

/-! ## Invariants -/

/-- The state after reset meets the invariants, and holds R34's values (R34; 70_reset_and_hazards.md R154). -/
def Obligations.ResetMeetsTheInvariants : Prop :=
  State.reset.MemOk ∧ State.reset.FontIntact ∧ State.reset.PcInRange ∧ State.reset.Alive ∧
  State.reset.pc = 0x200#16 ∧ (∀ j, State.reset.reg j = 0#8) ∧ State.reset.i = 0#16 ∧ State.reset.sp.val = 0 ∧
  State.reset.dt = 0#8 ∧ State.reset.st = 0#8 ∧ State.reset.mode = .running ∧ State.reset.dirty = false ∧
  (∀ (k : Nat) (h : k < 16), State.reset.stack[k] = 0#16) ∧
  (∀ (k : Nat) (h : k < 256), State.reset.display[k] = 0#8)

/-- Every step keeps memory in its canonical form (log entry 2; 10_state.md R24). -/
def Obligations.StepKeepsMemoryCanonical : Prop :=
  ∀ (s t : State), s.MemOk → step s = .next t → t.MemOk

/-- Every step keeps `PC` at or below 0x10FE under `ADDR_OOR = FAULT`, return addresses at or below 0x1000, and a
waiting core's `PC` on a word that can be fetched (R19). -/
def Obligations.StepKeepsPcInRange : Prop :=
  ∀ (s t : State), s.PcInRange → step s = .next t → t.PcInRange

/-- No step changes a font byte (20_memory.md R39). -/
def Obligations.StepKeepsEveryFontByte : Prop :=
  ∀ (s t : State) (a : Nat), step s = .next t → isFont s.cfg a = true → t.readByte a = s.readByte a

/-- Every run of host operations from a constructed core, with well-formed parameters, keeps the parameters, the
canonical memory, the font and the range of `PC` (00_scope.md R5; 40_cycle_and_host.md R84; 20_memory.md R39;
10_state.md R19). -/
def Obligations.HostRunsKeepTheInvariants : Prop :=
  ∀ (c : Config) (ops : List HostOp) (replies : List HostReply) (t : State), c.WellFormed →
    hostRun ops (State.constructedWith c) = .next (replies, t) →
    t.cfg = c ∧ t.MemOk ∧ t.FontIntact ∧ t.PcInRange

/-! ## The other host operations -/

/-- `LoadProgram` of at most 3584 bytes returns `Ok` and leaves R152's values: the program at 0x200, the font in place,
every other byte and the keypad as before; of more than 3584 bytes it returns `ProgramTooLarge` with the length and
changes no state, `Loaded` included (70_reset_and_hazards.md R152, R153). -/
def Obligations.LoadProgramResetsTheCoreOrRefuses : Prop :=
  ∀ (s : State) (bytes : List Byte), s.cfg.WellFormed →
   (3584 < bytes.length →
    hostStep (.loadProgram bytes) s = .next (.result (.programTooLarge bytes.length), s)) ∧
   (bytes.length ≤ 3584 →
    ∃ t, hostStep (.loadProgram bytes) s = .next (.result .ok, t) ∧
      t.pc = 0x200#16 ∧ (∀ j, t.reg j = 0#8) ∧ t.i = 0#16 ∧ t.sp.val = 0 ∧
      (∀ (k : Nat) (h : k < 16), t.stack[k] = 0#16) ∧ t.dt = 0#8 ∧ t.st = 0#8 ∧
      (∀ (k : Nat) (h : k < 256), t.display[k] = 0#8) ∧ t.mode = .running ∧ t.dirty = false ∧ t.loaded = true ∧
      t.keys = s.keys ∧ t.cfg = s.cfg ∧
      (∀ (k : Nat) (h : k < bytes.length), t.readByte (0x200 + k) = bytes[k]) ∧ t.FontIntact ∧
      (∀ a, isFont s.cfg a = false → (a < 0x200 ∨ 0x200 + bytes.length ≤ a) → t.readByte a = s.readByte a))

/-- Loading the empty program into a newly constructed core gives the state after reset (R34;
70_reset_and_hazards.md R151). -/
def Obligations.ResetIsTheLoadOfTheEmptyProgram : Prop :=
  hostStep (.loadProgram []) State.constructed = .next (.result .ok, State.reset) ∧
  State.constructed.loaded = false ∧ ∀ k, State.constructed.key k = false

/-- `GetDisplay` returns the display buffer and changes no state, `Dirty` included; `DisplayShouldUpdate` returns
`Dirty` and clears it; `SetKeyState` sets the slot of a key in 0..15 and changes nothing else, and outside that range
returns `InvalidKeyIndex` and changes nothing (40_cycle_and_host.md R79 to R81). -/
def Obligations.HostReadsTheDisplayAndSetsKeys : Prop :=
  ∀ (s : State) (p : Bool),
    hostStep .getDisplay s = .next (.display s.display, s) ∧
    hostStep .displayShouldUpdate s = .next (.flag s.dirty, { s with dirty := false }) ∧
    (∀ key : Int, key < 0 ∨ 15 < key →
      hostStep (.setKeyState key p) s = .next (.result (.invalidKeyIndex key), s)) ∧
    (∀ k : Nibble, ∃ t, hostStep (.setKeyState (k.toNat : Int) p) s = .next (.result .ok, t) ∧
      (∀ j, t.key j = if j = k then p else s.key j) ∧ t = { s with keys := t.keys })

/-- `TickTimers` has no move under `PER_TICK`; under `SEPARATE` it performs one timer step and nothing else, and is a
no-op when the core is halted (40_cycle_and_host.md R78). -/
def Obligations.TickTimersStepsTheTimersUnderSeparate : Prop :=
  ∀ (s : State), s.loaded = true →
    (s.cfg.timerMode = .perTick → ∀ p, hostStep .tickTimers s ≠ .next p) ∧
    (s.cfg.timerMode = .separate → (∀ e, s.mode ≠ .halted e) →
      hostStep .tickTimers s = .next (.result .ok,
        { s with dt := (if s.dt = 0#8 then 0#8 else s.dt - 1#8), st := (if s.st = 0#8 then 0#8 else s.st - 1#8) })) ∧
    (∀ e, s.cfg.timerMode = .separate → s.mode = .halted e → hostStep .tickTimers s = .next (.result .ok, s))

/-- A Tick of a halted core returns `Halted(e)` and changes no state; the only way out of `Halted` is `LoadProgram`:
every other host operation leaves the core halted by the same error, with its registers, `PC`, stack, timers, memory and
display unchanged, and `SetKeyState`, `GetDisplay` and `DisplayShouldUpdate` keep working (40_cycle_and_host.md R77;
60_exceptions.md R140). `tickResult` is the model's record of the returned result (log entry 6). -/
def Obligations.OnlyLoadProgramLeavesHalted : Prop :=
  ∀ (s : State) (e : FatalError), s.mode = .halted e →
    (s.loaded = true → ∀ r,
      hostStep (.tick r) s = .next (.result (.halted e), { s with tickResult := .halted e })) ∧
    (∀ (op : HostOp) (t : State) (reply : HostReply), hostStep op s = .next (reply, t) →
      (∀ bytes, op ≠ .loadProgram bytes) →
      t.mode = .halted e ∧ t.v = s.v ∧ t.i = s.i ∧ t.pc = s.pc ∧ t.stack = s.stack ∧ t.sp = s.sp ∧ t.dt = s.dt ∧
        t.st = s.st ∧ t.mem = s.mem ∧ t.display = s.display ∧ t.loaded = s.loaded) ∧
    hostStep .getDisplay s = .next (.display s.display, s) ∧
    hostStep .displayShouldUpdate s = .next (.flag s.dirty, { s with dirty := false }) ∧
    (∀ (k : Nibble) (p : Bool), ∃ t, hostStep (.setKeyState (k.toNat : Int) p) s = .next (.result .ok, t) ∧
      t.key k = p) ∧
    (∀ bytes : List Byte, bytes.length ≤ 3584 → ∃ t,
      hostStep (.loadProgram bytes) s = .next (.result .ok, t) ∧ t.mode = .running)
end

