-- ==== Sys2Proof/Laws/State.lean ====
section
/-! SUPPORT. Sys2Proof/Laws/State.lean: what each update of the state does to each field, so that no later proof
unfolds a record update. -/

namespace Sys2Proof.Machine

/-! ### setReg -/

@[simp] theorem setReg_cfg (s : State) (x : Nibble) (b : Byte) : (s.setReg x b).cfg = s.cfg := rfl
@[simp] theorem setReg_v (s : State) (x : Nibble) (b : Byte) : (s.setReg x b).v = s.v.set x.toNat b x.isLt := rfl
@[simp] theorem setReg_i (s : State) (x : Nibble) (b : Byte) : (s.setReg x b).i = s.i := rfl
@[simp] theorem setReg_pc (s : State) (x : Nibble) (b : Byte) : (s.setReg x b).pc = s.pc := rfl
@[simp] theorem setReg_stack (s : State) (x : Nibble) (b : Byte) : (s.setReg x b).stack = s.stack := rfl
@[simp] theorem setReg_sp (s : State) (x : Nibble) (b : Byte) : (s.setReg x b).sp = s.sp := rfl
@[simp] theorem setReg_dt (s : State) (x : Nibble) (b : Byte) : (s.setReg x b).dt = s.dt := rfl
@[simp] theorem setReg_st (s : State) (x : Nibble) (b : Byte) : (s.setReg x b).st = s.st := rfl
@[simp] theorem setReg_mem (s : State) (x : Nibble) (b : Byte) : (s.setReg x b).mem = s.mem := rfl
@[simp] theorem setReg_display (s : State) (x : Nibble) (b : Byte) : (s.setReg x b).display = s.display := rfl
@[simp] theorem setReg_keys (s : State) (x : Nibble) (b : Byte) : (s.setReg x b).keys = s.keys := rfl
@[simp] theorem setReg_dirty (s : State) (x : Nibble) (b : Byte) : (s.setReg x b).dirty = s.dirty := rfl
@[simp] theorem setReg_touched (s : State) (x : Nibble) (b : Byte) : (s.setReg x b).touched = s.touched := rfl
@[simp] theorem setReg_mode (s : State) (x : Nibble) (b : Byte) : (s.setReg x b).mode = s.mode := rfl
@[simp] theorem setReg_loaded (s : State) (x : Nibble) (b : Byte) : (s.setReg x b).loaded = s.loaded := rfl
@[simp] theorem setReg_rnd (s : State) (x : Nibble) (b : Byte) : (s.setReg x b).rnd = s.rnd := rfl
@[simp] theorem setReg_rndIndex (s : State) (x : Nibble) (b : Byte) : (s.setReg x b).rndIndex = s.rndIndex := rfl
@[simp] theorem setReg_tickResult (s : State) (x : Nibble) (b : Byte) : (s.setReg x b).tickResult = s.tickResult := rfl

/-! ### advance -/

@[simp] theorem advance_cfg (s : State) : (advance s).cfg = s.cfg := rfl
@[simp] theorem advance_v (s : State) : (advance s).v = s.v := rfl
@[simp] theorem advance_i (s : State) : (advance s).i = s.i := rfl
@[simp] theorem advance_pc (s : State) : (advance s).pc = s.pc + 2#16 := rfl
@[simp] theorem advance_stack (s : State) : (advance s).stack = s.stack := rfl
@[simp] theorem advance_sp (s : State) : (advance s).sp = s.sp := rfl
@[simp] theorem advance_dt (s : State) : (advance s).dt = s.dt := rfl
@[simp] theorem advance_st (s : State) : (advance s).st = s.st := rfl
@[simp] theorem advance_mem (s : State) : (advance s).mem = s.mem := rfl
@[simp] theorem advance_display (s : State) : (advance s).display = s.display := rfl
@[simp] theorem advance_keys (s : State) : (advance s).keys = s.keys := rfl
@[simp] theorem advance_dirty (s : State) : (advance s).dirty = s.dirty := rfl
@[simp] theorem advance_touched (s : State) : (advance s).touched = s.touched := rfl
@[simp] theorem advance_mode (s : State) : (advance s).mode = s.mode := rfl
@[simp] theorem advance_loaded (s : State) : (advance s).loaded = s.loaded := rfl
@[simp] theorem advance_rnd (s : State) : (advance s).rnd = s.rnd := rfl
@[simp] theorem advance_rndIndex (s : State) : (advance s).rndIndex = s.rndIndex := rfl
@[simp] theorem advance_tickResult (s : State) : (advance s).tickResult = s.tickResult := rfl

/-! ### skipIf -/

@[simp] theorem skipIf_cfg (c : Bool) (s : State) : (skipIf c s).cfg = s.cfg := rfl
@[simp] theorem skipIf_v (c : Bool) (s : State) : (skipIf c s).v = s.v := rfl
@[simp] theorem skipIf_i (c : Bool) (s : State) : (skipIf c s).i = s.i := rfl
@[simp] theorem skipIf_pc (c : Bool) (s : State) : (skipIf c s).pc = s.pc + (if c then 4#16 else 2#16) := rfl
@[simp] theorem skipIf_stack (c : Bool) (s : State) : (skipIf c s).stack = s.stack := rfl
@[simp] theorem skipIf_sp (c : Bool) (s : State) : (skipIf c s).sp = s.sp := rfl
@[simp] theorem skipIf_dt (c : Bool) (s : State) : (skipIf c s).dt = s.dt := rfl
@[simp] theorem skipIf_st (c : Bool) (s : State) : (skipIf c s).st = s.st := rfl
@[simp] theorem skipIf_mem (c : Bool) (s : State) : (skipIf c s).mem = s.mem := rfl
@[simp] theorem skipIf_display (c : Bool) (s : State) : (skipIf c s).display = s.display := rfl
@[simp] theorem skipIf_keys (c : Bool) (s : State) : (skipIf c s).keys = s.keys := rfl
@[simp] theorem skipIf_dirty (c : Bool) (s : State) : (skipIf c s).dirty = s.dirty := rfl
@[simp] theorem skipIf_touched (c : Bool) (s : State) : (skipIf c s).touched = s.touched := rfl
@[simp] theorem skipIf_mode (c : Bool) (s : State) : (skipIf c s).mode = s.mode := rfl
@[simp] theorem skipIf_loaded (c : Bool) (s : State) : (skipIf c s).loaded = s.loaded := rfl
@[simp] theorem skipIf_rnd (c : Bool) (s : State) : (skipIf c s).rnd = s.rnd := rfl
@[simp] theorem skipIf_rndIndex (c : Bool) (s : State) : (skipIf c s).rndIndex = s.rndIndex := rfl
@[simp] theorem skipIf_tickResult (c : Bool) (s : State) : (skipIf c s).tickResult = s.tickResult := rfl

/-! ### writeResultFlag -/

@[simp] theorem writeResultFlag_cfg (x : Nibble) (res flag : Byte) (s : State) : (writeResultFlag x res flag s).cfg = s.cfg := rfl
@[simp] theorem writeResultFlag_v (x : Nibble) (res flag : Byte) (s : State) : (writeResultFlag x res flag s).v = ((s.setReg x res).setReg vf flag).v := rfl
@[simp] theorem writeResultFlag_i (x : Nibble) (res flag : Byte) (s : State) : (writeResultFlag x res flag s).i = s.i := rfl
@[simp] theorem writeResultFlag_pc (x : Nibble) (res flag : Byte) (s : State) : (writeResultFlag x res flag s).pc = s.pc := rfl
@[simp] theorem writeResultFlag_stack (x : Nibble) (res flag : Byte) (s : State) : (writeResultFlag x res flag s).stack = s.stack := rfl
@[simp] theorem writeResultFlag_sp (x : Nibble) (res flag : Byte) (s : State) : (writeResultFlag x res flag s).sp = s.sp := rfl
@[simp] theorem writeResultFlag_dt (x : Nibble) (res flag : Byte) (s : State) : (writeResultFlag x res flag s).dt = s.dt := rfl
@[simp] theorem writeResultFlag_st (x : Nibble) (res flag : Byte) (s : State) : (writeResultFlag x res flag s).st = s.st := rfl
@[simp] theorem writeResultFlag_mem (x : Nibble) (res flag : Byte) (s : State) : (writeResultFlag x res flag s).mem = s.mem := rfl
@[simp] theorem writeResultFlag_display (x : Nibble) (res flag : Byte) (s : State) : (writeResultFlag x res flag s).display = s.display := rfl
@[simp] theorem writeResultFlag_keys (x : Nibble) (res flag : Byte) (s : State) : (writeResultFlag x res flag s).keys = s.keys := rfl
@[simp] theorem writeResultFlag_dirty (x : Nibble) (res flag : Byte) (s : State) : (writeResultFlag x res flag s).dirty = s.dirty := rfl
@[simp] theorem writeResultFlag_touched (x : Nibble) (res flag : Byte) (s : State) : (writeResultFlag x res flag s).touched = s.touched := rfl
@[simp] theorem writeResultFlag_mode (x : Nibble) (res flag : Byte) (s : State) : (writeResultFlag x res flag s).mode = s.mode := rfl
@[simp] theorem writeResultFlag_loaded (x : Nibble) (res flag : Byte) (s : State) : (writeResultFlag x res flag s).loaded = s.loaded := rfl
@[simp] theorem writeResultFlag_rnd (x : Nibble) (res flag : Byte) (s : State) : (writeResultFlag x res flag s).rnd = s.rnd := rfl
@[simp] theorem writeResultFlag_rndIndex (x : Nibble) (res flag : Byte) (s : State) : (writeResultFlag x res flag s).rndIndex = s.rndIndex := rfl
@[simp] theorem writeResultFlag_tickResult (x : Nibble) (res flag : Byte) (s : State) : (writeResultFlag x res flag s).tickResult = s.tickResult := rfl

/-! ### pushReturn -/

@[simp] theorem pushReturn_cfg (s : State) (w : Word) (h : s.sp.val < 16) : (pushReturn s w h).cfg = s.cfg := rfl
@[simp] theorem pushReturn_v (s : State) (w : Word) (h : s.sp.val < 16) : (pushReturn s w h).v = s.v := rfl
@[simp] theorem pushReturn_i (s : State) (w : Word) (h : s.sp.val < 16) : (pushReturn s w h).i = s.i := rfl
@[simp] theorem pushReturn_pc (s : State) (w : Word) (h : s.sp.val < 16) : (pushReturn s w h).pc = s.pc := rfl
@[simp] theorem pushReturn_stack (s : State) (w : Word) (h : s.sp.val < 16) : (pushReturn s w h).stack = s.stack.set s.sp.val w h := rfl
@[simp] theorem pushReturn_sp (s : State) (w : Word) (h : s.sp.val < 16) : (pushReturn s w h).sp = ⟨s.sp.val + 1, by omega⟩ := rfl
@[simp] theorem pushReturn_dt (s : State) (w : Word) (h : s.sp.val < 16) : (pushReturn s w h).dt = s.dt := rfl
@[simp] theorem pushReturn_st (s : State) (w : Word) (h : s.sp.val < 16) : (pushReturn s w h).st = s.st := rfl
@[simp] theorem pushReturn_mem (s : State) (w : Word) (h : s.sp.val < 16) : (pushReturn s w h).mem = s.mem := rfl
@[simp] theorem pushReturn_display (s : State) (w : Word) (h : s.sp.val < 16) : (pushReturn s w h).display = s.display := rfl
@[simp] theorem pushReturn_keys (s : State) (w : Word) (h : s.sp.val < 16) : (pushReturn s w h).keys = s.keys := rfl
@[simp] theorem pushReturn_dirty (s : State) (w : Word) (h : s.sp.val < 16) : (pushReturn s w h).dirty = s.dirty := rfl
@[simp] theorem pushReturn_touched (s : State) (w : Word) (h : s.sp.val < 16) : (pushReturn s w h).touched = s.touched := rfl
@[simp] theorem pushReturn_mode (s : State) (w : Word) (h : s.sp.val < 16) : (pushReturn s w h).mode = s.mode := rfl
@[simp] theorem pushReturn_loaded (s : State) (w : Word) (h : s.sp.val < 16) : (pushReturn s w h).loaded = s.loaded := rfl
@[simp] theorem pushReturn_rnd (s : State) (w : Word) (h : s.sp.val < 16) : (pushReturn s w h).rnd = s.rnd := rfl
@[simp] theorem pushReturn_rndIndex (s : State) (w : Word) (h : s.sp.val < 16) : (pushReturn s w h).rndIndex = s.rndIndex := rfl
@[simp] theorem pushReturn_tickResult (s : State) (w : Word) (h : s.sp.val < 16) : (pushReturn s w h).tickResult = s.tickResult := rfl

/-! ### popReturn -/

@[simp] theorem popReturn_cfg (s : State) (h : 0 < s.sp.val) : (popReturn s h).cfg = s.cfg := rfl
@[simp] theorem popReturn_v (s : State) (h : 0 < s.sp.val) : (popReturn s h).v = s.v := rfl
@[simp] theorem popReturn_i (s : State) (h : 0 < s.sp.val) : (popReturn s h).i = s.i := rfl
@[simp] theorem popReturn_pc (s : State) (h : 0 < s.sp.val) : (popReturn s h).pc = s.stack[s.sp.val - 1]'(by omega) := rfl
@[simp] theorem popReturn_stack (s : State) (h : 0 < s.sp.val) : (popReturn s h).stack = s.stack := rfl
@[simp] theorem popReturn_sp (s : State) (h : 0 < s.sp.val) : (popReturn s h).sp = ⟨s.sp.val - 1, by omega⟩ := rfl
@[simp] theorem popReturn_dt (s : State) (h : 0 < s.sp.val) : (popReturn s h).dt = s.dt := rfl
@[simp] theorem popReturn_st (s : State) (h : 0 < s.sp.val) : (popReturn s h).st = s.st := rfl
@[simp] theorem popReturn_mem (s : State) (h : 0 < s.sp.val) : (popReturn s h).mem = s.mem := rfl
@[simp] theorem popReturn_display (s : State) (h : 0 < s.sp.val) : (popReturn s h).display = s.display := rfl
@[simp] theorem popReturn_keys (s : State) (h : 0 < s.sp.val) : (popReturn s h).keys = s.keys := rfl
@[simp] theorem popReturn_dirty (s : State) (h : 0 < s.sp.val) : (popReturn s h).dirty = s.dirty := rfl
@[simp] theorem popReturn_touched (s : State) (h : 0 < s.sp.val) : (popReturn s h).touched = s.touched := rfl
@[simp] theorem popReturn_mode (s : State) (h : 0 < s.sp.val) : (popReturn s h).mode = s.mode := rfl
@[simp] theorem popReturn_loaded (s : State) (h : 0 < s.sp.val) : (popReturn s h).loaded = s.loaded := rfl
@[simp] theorem popReturn_rnd (s : State) (h : 0 < s.sp.val) : (popReturn s h).rnd = s.rnd := rfl
@[simp] theorem popReturn_rndIndex (s : State) (h : 0 < s.sp.val) : (popReturn s h).rndIndex = s.rndIndex := rfl
@[simp] theorem popReturn_tickResult (s : State) (h : 0 < s.sp.val) : (popReturn s h).tickResult = s.tickResult := rfl

/-! ### timerStep -/

@[simp] theorem timerStep_cfg (s : State) : (timerStep s).cfg = s.cfg := rfl
@[simp] theorem timerStep_v (s : State) : (timerStep s).v = s.v := rfl
@[simp] theorem timerStep_i (s : State) : (timerStep s).i = s.i := rfl
@[simp] theorem timerStep_pc (s : State) : (timerStep s).pc = s.pc := rfl
@[simp] theorem timerStep_stack (s : State) : (timerStep s).stack = s.stack := rfl
@[simp] theorem timerStep_sp (s : State) : (timerStep s).sp = s.sp := rfl
@[simp] theorem timerStep_dt (s : State) : (timerStep s).dt = countDown s.dt := rfl
@[simp] theorem timerStep_st (s : State) : (timerStep s).st = countDown s.st := rfl
@[simp] theorem timerStep_mem (s : State) : (timerStep s).mem = s.mem := rfl
@[simp] theorem timerStep_display (s : State) : (timerStep s).display = s.display := rfl
@[simp] theorem timerStep_keys (s : State) : (timerStep s).keys = s.keys := rfl
@[simp] theorem timerStep_dirty (s : State) : (timerStep s).dirty = s.dirty := rfl
@[simp] theorem timerStep_touched (s : State) : (timerStep s).touched = s.touched := rfl
@[simp] theorem timerStep_mode (s : State) : (timerStep s).mode = s.mode := rfl
@[simp] theorem timerStep_loaded (s : State) : (timerStep s).loaded = s.loaded := rfl
@[simp] theorem timerStep_rnd (s : State) : (timerStep s).rnd = s.rnd := rfl
@[simp] theorem timerStep_rndIndex (s : State) : (timerStep s).rndIndex = s.rndIndex := rfl
@[simp] theorem timerStep_tickResult (s : State) : (timerStep s).tickResult = s.tickResult := rfl

/-! ### dirtyUpdate -/

@[simp] theorem dirtyUpdate_cfg (s : State) : (dirtyUpdate s).cfg = s.cfg := rfl
@[simp] theorem dirtyUpdate_v (s : State) : (dirtyUpdate s).v = s.v := rfl
@[simp] theorem dirtyUpdate_i (s : State) : (dirtyUpdate s).i = s.i := rfl
@[simp] theorem dirtyUpdate_pc (s : State) : (dirtyUpdate s).pc = s.pc := rfl
@[simp] theorem dirtyUpdate_stack (s : State) : (dirtyUpdate s).stack = s.stack := rfl
@[simp] theorem dirtyUpdate_sp (s : State) : (dirtyUpdate s).sp = s.sp := rfl
@[simp] theorem dirtyUpdate_dt (s : State) : (dirtyUpdate s).dt = s.dt := rfl
@[simp] theorem dirtyUpdate_st (s : State) : (dirtyUpdate s).st = s.st := rfl
@[simp] theorem dirtyUpdate_mem (s : State) : (dirtyUpdate s).mem = s.mem := rfl
@[simp] theorem dirtyUpdate_display (s : State) : (dirtyUpdate s).display = s.display := rfl
@[simp] theorem dirtyUpdate_keys (s : State) : (dirtyUpdate s).keys = s.keys := rfl
@[simp] theorem dirtyUpdate_dirty (s : State) : (dirtyUpdate s).dirty = match s.cfg.dirtyMode with | .perTick => s.touched | .sticky => s.dirty || s.touched := rfl
@[simp] theorem dirtyUpdate_touched (s : State) : (dirtyUpdate s).touched = s.touched := rfl
@[simp] theorem dirtyUpdate_mode (s : State) : (dirtyUpdate s).mode = s.mode := rfl
@[simp] theorem dirtyUpdate_loaded (s : State) : (dirtyUpdate s).loaded = s.loaded := rfl
@[simp] theorem dirtyUpdate_rnd (s : State) : (dirtyUpdate s).rnd = s.rnd := rfl
@[simp] theorem dirtyUpdate_rndIndex (s : State) : (dirtyUpdate s).rndIndex = s.rndIndex := rfl
@[simp] theorem dirtyUpdate_tickResult (s : State) : (dirtyUpdate s).tickResult = s.tickResult := rfl

/-! ### takeFatal -/

@[simp] theorem takeFatal_cfg (e : FatalError) (s : State) : (takeFatal e s).cfg = s.cfg := rfl
@[simp] theorem takeFatal_v (e : FatalError) (s : State) : (takeFatal e s).v = s.v := rfl
@[simp] theorem takeFatal_i (e : FatalError) (s : State) : (takeFatal e s).i = s.i := rfl
@[simp] theorem takeFatal_pc (e : FatalError) (s : State) : (takeFatal e s).pc = s.pc := rfl
@[simp] theorem takeFatal_stack (e : FatalError) (s : State) : (takeFatal e s).stack = s.stack := rfl
@[simp] theorem takeFatal_sp (e : FatalError) (s : State) : (takeFatal e s).sp = s.sp := rfl
@[simp] theorem takeFatal_dt (e : FatalError) (s : State) : (takeFatal e s).dt = s.dt := rfl
@[simp] theorem takeFatal_st (e : FatalError) (s : State) : (takeFatal e s).st = s.st := rfl
@[simp] theorem takeFatal_mem (e : FatalError) (s : State) : (takeFatal e s).mem = s.mem := rfl
@[simp] theorem takeFatal_display (e : FatalError) (s : State) : (takeFatal e s).display = s.display := rfl
@[simp] theorem takeFatal_keys (e : FatalError) (s : State) : (takeFatal e s).keys = s.keys := rfl
@[simp] theorem takeFatal_dirty (e : FatalError) (s : State) : (takeFatal e s).dirty = match s.cfg.dirtyMode with | .perTick => false | .sticky => s.dirty || false := rfl
@[simp] theorem takeFatal_touched (e : FatalError) (s : State) : (takeFatal e s).touched = false := rfl
@[simp] theorem takeFatal_mode (e : FatalError) (s : State) : (takeFatal e s).mode = .halted e := rfl
@[simp] theorem takeFatal_loaded (e : FatalError) (s : State) : (takeFatal e s).loaded = s.loaded := rfl
@[simp] theorem takeFatal_rnd (e : FatalError) (s : State) : (takeFatal e s).rnd = s.rnd := rfl
@[simp] theorem takeFatal_rndIndex (e : FatalError) (s : State) : (takeFatal e s).rndIndex = s.rndIndex := rfl
@[simp] theorem takeFatal_tickResult (e : FatalError) (s : State) : (takeFatal e s).tickResult = .fatal e := rfl

/-! ### beginTick -/

@[simp] theorem beginTick_cfg (r : Byte) (s : State) : (beginTick r s).cfg = s.cfg := rfl
@[simp] theorem beginTick_v (r : Byte) (s : State) : (beginTick r s).v = s.v := rfl
@[simp] theorem beginTick_i (r : Byte) (s : State) : (beginTick r s).i = s.i := rfl
@[simp] theorem beginTick_pc (r : Byte) (s : State) : (beginTick r s).pc = s.pc := rfl
@[simp] theorem beginTick_stack (r : Byte) (s : State) : (beginTick r s).stack = s.stack := rfl
@[simp] theorem beginTick_sp (r : Byte) (s : State) : (beginTick r s).sp = s.sp := rfl
@[simp] theorem beginTick_dt (r : Byte) (s : State) : (beginTick r s).dt = s.dt := rfl
@[simp] theorem beginTick_st (r : Byte) (s : State) : (beginTick r s).st = s.st := rfl
@[simp] theorem beginTick_mem (r : Byte) (s : State) : (beginTick r s).mem = s.mem := rfl
@[simp] theorem beginTick_display (r : Byte) (s : State) : (beginTick r s).display = s.display := rfl
@[simp] theorem beginTick_keys (r : Byte) (s : State) : (beginTick r s).keys = s.keys := rfl
@[simp] theorem beginTick_dirty (r : Byte) (s : State) : (beginTick r s).dirty = s.dirty := rfl
@[simp] theorem beginTick_touched (r : Byte) (s : State) : (beginTick r s).touched = false := rfl
@[simp] theorem beginTick_mode (r : Byte) (s : State) : (beginTick r s).mode = s.mode := rfl
@[simp] theorem beginTick_loaded (r : Byte) (s : State) : (beginTick r s).loaded = s.loaded := rfl
@[simp] theorem beginTick_rnd (r : Byte) (s : State) : (beginTick r s).rnd = r := rfl
@[simp] theorem beginTick_rndIndex (r : Byte) (s : State) : (beginTick r s).rndIndex = s.rndIndex := rfl
@[simp] theorem beginTick_tickResult (r : Byte) (s : State) : (beginTick r s).tickResult = .ok := rfl

/-! ### releaseInput -/

@[simp] theorem releaseInput_cfg (s : State) : (releaseInput s).cfg = s.cfg := rfl
@[simp] theorem releaseInput_v (s : State) : (releaseInput s).v = s.v := rfl
@[simp] theorem releaseInput_i (s : State) : (releaseInput s).i = s.i := rfl
@[simp] theorem releaseInput_pc (s : State) : (releaseInput s).pc = s.pc := rfl
@[simp] theorem releaseInput_stack (s : State) : (releaseInput s).stack = s.stack := rfl
@[simp] theorem releaseInput_sp (s : State) : (releaseInput s).sp = s.sp := rfl
@[simp] theorem releaseInput_dt (s : State) : (releaseInput s).dt = s.dt := rfl
@[simp] theorem releaseInput_st (s : State) : (releaseInput s).st = s.st := rfl
@[simp] theorem releaseInput_mem (s : State) : (releaseInput s).mem = s.mem := rfl
@[simp] theorem releaseInput_display (s : State) : (releaseInput s).display = s.display := rfl
@[simp] theorem releaseInput_keys (s : State) : (releaseInput s).keys = s.keys := rfl
@[simp] theorem releaseInput_dirty (s : State) : (releaseInput s).dirty = s.dirty := rfl
@[simp] theorem releaseInput_touched (s : State) : (releaseInput s).touched = s.touched := rfl
@[simp] theorem releaseInput_mode (s : State) : (releaseInput s).mode = s.mode := rfl
@[simp] theorem releaseInput_loaded (s : State) : (releaseInput s).loaded = s.loaded := rfl
@[simp] theorem releaseInput_rnd (s : State) : (releaseInput s).rnd = 0#8 := rfl
@[simp] theorem releaseInput_rndIndex (s : State) : (releaseInput s).rndIndex = s.rndIndex := rfl
@[simp] theorem releaseInput_tickResult (s : State) : (releaseInput s).tickResult = s.tickResult := rfl

/-! ### drawRandom -/

@[simp] theorem drawRandom_cfg (s : State) : (drawRandom s).cfg = s.cfg := rfl
@[simp] theorem drawRandom_v (s : State) : (drawRandom s).v = s.v := rfl
@[simp] theorem drawRandom_i (s : State) : (drawRandom s).i = s.i := rfl
@[simp] theorem drawRandom_pc (s : State) : (drawRandom s).pc = s.pc := rfl
@[simp] theorem drawRandom_stack (s : State) : (drawRandom s).stack = s.stack := rfl
@[simp] theorem drawRandom_sp (s : State) : (drawRandom s).sp = s.sp := rfl
@[simp] theorem drawRandom_dt (s : State) : (drawRandom s).dt = s.dt := rfl
@[simp] theorem drawRandom_st (s : State) : (drawRandom s).st = s.st := rfl
@[simp] theorem drawRandom_mem (s : State) : (drawRandom s).mem = s.mem := rfl
@[simp] theorem drawRandom_display (s : State) : (drawRandom s).display = s.display := rfl
@[simp] theorem drawRandom_keys (s : State) : (drawRandom s).keys = s.keys := rfl
@[simp] theorem drawRandom_dirty (s : State) : (drawRandom s).dirty = s.dirty := rfl
@[simp] theorem drawRandom_touched (s : State) : (drawRandom s).touched = s.touched := rfl
@[simp] theorem drawRandom_mode (s : State) : (drawRandom s).mode = s.mode := rfl
@[simp] theorem drawRandom_loaded (s : State) : (drawRandom s).loaded = s.loaded := rfl
@[simp] theorem drawRandom_rnd (s : State) : (drawRandom s).rnd = s.rnd := rfl
@[simp] theorem drawRandom_rndIndex (s : State) : (drawRandom s).rndIndex = s.rndIndex + 1 := rfl
@[simp] theorem drawRandom_tickResult (s : State) : (drawRandom s).tickResult = s.tickResult := rfl

/-! ### skipUnknown -/

@[simp] theorem skipUnknown_cfg (op : Word) (s : State) : (skipUnknown op s).cfg = s.cfg := rfl
@[simp] theorem skipUnknown_v (op : Word) (s : State) : (skipUnknown op s).v = s.v := rfl
@[simp] theorem skipUnknown_i (op : Word) (s : State) : (skipUnknown op s).i = s.i := rfl
@[simp] theorem skipUnknown_pc (op : Word) (s : State) : (skipUnknown op s).pc = s.pc + 2#16 := rfl
@[simp] theorem skipUnknown_stack (op : Word) (s : State) : (skipUnknown op s).stack = s.stack := rfl
@[simp] theorem skipUnknown_sp (op : Word) (s : State) : (skipUnknown op s).sp = s.sp := rfl
@[simp] theorem skipUnknown_dt (op : Word) (s : State) : (skipUnknown op s).dt = s.dt := rfl
@[simp] theorem skipUnknown_st (op : Word) (s : State) : (skipUnknown op s).st = s.st := rfl
@[simp] theorem skipUnknown_mem (op : Word) (s : State) : (skipUnknown op s).mem = s.mem := rfl
@[simp] theorem skipUnknown_display (op : Word) (s : State) : (skipUnknown op s).display = s.display := rfl
@[simp] theorem skipUnknown_keys (op : Word) (s : State) : (skipUnknown op s).keys = s.keys := rfl
@[simp] theorem skipUnknown_dirty (op : Word) (s : State) : (skipUnknown op s).dirty = s.dirty := rfl
@[simp] theorem skipUnknown_touched (op : Word) (s : State) : (skipUnknown op s).touched = s.touched := rfl
@[simp] theorem skipUnknown_mode (op : Word) (s : State) : (skipUnknown op s).mode = s.mode := rfl
@[simp] theorem skipUnknown_loaded (op : Word) (s : State) : (skipUnknown op s).loaded = s.loaded := rfl
@[simp] theorem skipUnknown_rnd (op : Word) (s : State) : (skipUnknown op s).rnd = s.rnd := rfl
@[simp] theorem skipUnknown_rndIndex (op : Word) (s : State) : (skipUnknown op s).rndIndex = s.rndIndex := rfl
@[simp] theorem skipUnknown_tickResult (op : Word) (s : State) : (skipUnknown op s).tickResult = .unknownOpcode op s.pc := rfl

/-! ### completeWait -/

@[simp] theorem completeWait_cfg (r : Nibble) (k : Nat) (s : State) : (completeWait r k s).cfg = s.cfg := rfl
@[simp] theorem completeWait_v (r : Nibble) (k : Nat) (s : State) : (completeWait r k s).v = s.v.set r.toNat (BitVec.ofNat 8 k) r.isLt := rfl
@[simp] theorem completeWait_i (r : Nibble) (k : Nat) (s : State) : (completeWait r k s).i = s.i := rfl
@[simp] theorem completeWait_pc (r : Nibble) (k : Nat) (s : State) : (completeWait r k s).pc = s.pc + 2#16 := rfl
@[simp] theorem completeWait_stack (r : Nibble) (k : Nat) (s : State) : (completeWait r k s).stack = s.stack := rfl
@[simp] theorem completeWait_sp (r : Nibble) (k : Nat) (s : State) : (completeWait r k s).sp = s.sp := rfl
@[simp] theorem completeWait_dt (r : Nibble) (k : Nat) (s : State) : (completeWait r k s).dt = s.dt := rfl
@[simp] theorem completeWait_st (r : Nibble) (k : Nat) (s : State) : (completeWait r k s).st = s.st := rfl
@[simp] theorem completeWait_mem (r : Nibble) (k : Nat) (s : State) : (completeWait r k s).mem = s.mem := rfl
@[simp] theorem completeWait_display (r : Nibble) (k : Nat) (s : State) : (completeWait r k s).display = s.display := rfl
@[simp] theorem completeWait_keys (r : Nibble) (k : Nat) (s : State) : (completeWait r k s).keys = s.keys := rfl
@[simp] theorem completeWait_dirty (r : Nibble) (k : Nat) (s : State) : (completeWait r k s).dirty = s.dirty := rfl
@[simp] theorem completeWait_touched (r : Nibble) (k : Nat) (s : State) : (completeWait r k s).touched = s.touched := rfl
@[simp] theorem completeWait_mode (r : Nibble) (k : Nat) (s : State) : (completeWait r k s).mode = .running := rfl
@[simp] theorem completeWait_loaded (r : Nibble) (k : Nat) (s : State) : (completeWait r k s).loaded = s.loaded := rfl
@[simp] theorem completeWait_rnd (r : Nibble) (k : Nat) (s : State) : (completeWait r k s).rnd = s.rnd := rfl
@[simp] theorem completeWait_rndIndex (r : Nibble) (k : Nat) (s : State) : (completeWait r k s).rndIndex = s.rndIndex := rfl
@[simp] theorem completeWait_tickResult (r : Nibble) (k : Nat) (s : State) : (completeWait r k s).tickResult = s.tickResult := rfl

/-! ### tickTimerStep -/

@[simp] theorem tickTimerStep_cfg (s : State) : (tickTimerStep s).cfg = s.cfg := by
  unfold tickTimerStep; split <;> rfl
@[simp] theorem tickTimerStep_v (s : State) : (tickTimerStep s).v = s.v := by
  unfold tickTimerStep; split <;> rfl
@[simp] theorem tickTimerStep_i (s : State) : (tickTimerStep s).i = s.i := by
  unfold tickTimerStep; split <;> rfl
@[simp] theorem tickTimerStep_pc (s : State) : (tickTimerStep s).pc = s.pc := by
  unfold tickTimerStep; split <;> rfl
@[simp] theorem tickTimerStep_stack (s : State) : (tickTimerStep s).stack = s.stack := by
  unfold tickTimerStep; split <;> rfl
@[simp] theorem tickTimerStep_sp (s : State) : (tickTimerStep s).sp = s.sp := by
  unfold tickTimerStep; split <;> rfl
@[simp] theorem tickTimerStep_mem (s : State) : (tickTimerStep s).mem = s.mem := by
  unfold tickTimerStep; split <;> rfl
@[simp] theorem tickTimerStep_display (s : State) : (tickTimerStep s).display = s.display := by
  unfold tickTimerStep; split <;> rfl
@[simp] theorem tickTimerStep_keys (s : State) : (tickTimerStep s).keys = s.keys := by
  unfold tickTimerStep; split <;> rfl
@[simp] theorem tickTimerStep_dirty (s : State) : (tickTimerStep s).dirty = s.dirty := by
  unfold tickTimerStep; split <;> rfl
@[simp] theorem tickTimerStep_touched (s : State) : (tickTimerStep s).touched = s.touched := by
  unfold tickTimerStep; split <;> rfl
@[simp] theorem tickTimerStep_mode (s : State) : (tickTimerStep s).mode = s.mode := by
  unfold tickTimerStep; split <;> rfl
@[simp] theorem tickTimerStep_loaded (s : State) : (tickTimerStep s).loaded = s.loaded := by
  unfold tickTimerStep; split <;> rfl
@[simp] theorem tickTimerStep_rnd (s : State) : (tickTimerStep s).rnd = s.rnd := by
  unfold tickTimerStep; split <;> rfl
@[simp] theorem tickTimerStep_rndIndex (s : State) : (tickTimerStep s).rndIndex = s.rndIndex := by
  unfold tickTimerStep; split <;> rfl
@[simp] theorem tickTimerStep_tickResult (s : State) : (tickTimerStep s).tickResult = s.tickResult := by
  unfold tickTimerStep; split <;> rfl

/-! ### writeLogic -/

@[simp] theorem writeLogic_cfg (x : Nibble) (res : Byte) (s : State) : (writeLogic x res s).cfg = s.cfg := by
  unfold writeLogic; split <;> rfl
@[simp] theorem writeLogic_i (x : Nibble) (res : Byte) (s : State) : (writeLogic x res s).i = s.i := by
  unfold writeLogic; split <;> rfl
@[simp] theorem writeLogic_pc (x : Nibble) (res : Byte) (s : State) : (writeLogic x res s).pc = s.pc := by
  unfold writeLogic; split <;> rfl
@[simp] theorem writeLogic_stack (x : Nibble) (res : Byte) (s : State) : (writeLogic x res s).stack = s.stack := by
  unfold writeLogic; split <;> rfl
@[simp] theorem writeLogic_sp (x : Nibble) (res : Byte) (s : State) : (writeLogic x res s).sp = s.sp := by
  unfold writeLogic; split <;> rfl
@[simp] theorem writeLogic_dt (x : Nibble) (res : Byte) (s : State) : (writeLogic x res s).dt = s.dt := by
  unfold writeLogic; split <;> rfl
@[simp] theorem writeLogic_st (x : Nibble) (res : Byte) (s : State) : (writeLogic x res s).st = s.st := by
  unfold writeLogic; split <;> rfl
@[simp] theorem writeLogic_mem (x : Nibble) (res : Byte) (s : State) : (writeLogic x res s).mem = s.mem := by
  unfold writeLogic; split <;> rfl
@[simp] theorem writeLogic_display (x : Nibble) (res : Byte) (s : State) : (writeLogic x res s).display = s.display := by
  unfold writeLogic; split <;> rfl
@[simp] theorem writeLogic_keys (x : Nibble) (res : Byte) (s : State) : (writeLogic x res s).keys = s.keys := by
  unfold writeLogic; split <;> rfl
@[simp] theorem writeLogic_dirty (x : Nibble) (res : Byte) (s : State) : (writeLogic x res s).dirty = s.dirty := by
  unfold writeLogic; split <;> rfl
@[simp] theorem writeLogic_touched (x : Nibble) (res : Byte) (s : State) : (writeLogic x res s).touched = s.touched := by
  unfold writeLogic; split <;> rfl
@[simp] theorem writeLogic_mode (x : Nibble) (res : Byte) (s : State) : (writeLogic x res s).mode = s.mode := by
  unfold writeLogic; split <;> rfl
@[simp] theorem writeLogic_loaded (x : Nibble) (res : Byte) (s : State) : (writeLogic x res s).loaded = s.loaded := by
  unfold writeLogic; split <;> rfl
@[simp] theorem writeLogic_rnd (x : Nibble) (res : Byte) (s : State) : (writeLogic x res s).rnd = s.rnd := by
  unfold writeLogic; split <;> rfl
@[simp] theorem writeLogic_rndIndex (x : Nibble) (res : Byte) (s : State) : (writeLogic x res s).rndIndex = s.rndIndex := by
  unfold writeLogic; split <;> rfl
@[simp] theorem writeLogic_tickResult (x : Nibble) (res : Byte) (s : State) : (writeLogic x res s).tickResult = s.tickResult := by
  unfold writeLogic; split <;> rfl

end Sys2Proof.Machine
end

