-- ==== Sys2Proof/Laws/Memory.lean ====
section
/-! SUPPORT. Sys2Proof/Laws/Memory.lean: reading after writing, and that every memory operation keeps the canonical
form `Memory.wf`. -/

namespace Sys2Proof.Machine

/-! ## Lookup after insert, erase and set -/

theorem memLookup_insert (m : Memory) (a b : Nat) (v : Byte) :
    memLookup (memInsert m a v) b = if a = b then some v else memLookup m b := by
  induction m with
  | nil => simp [memInsert, memLookup]
  | cons e m ih =>
    obtain ⟨k, w⟩ := e
    simp only [memInsert]
    split
    · simp [memLookup]
    · split
      · subst_vars; by_cases h : k = b <;> simp [memLookup, h]
      · simp only [memLookup, ih]
        by_cases h : k = b
        · subst h; rw [if_pos rfl, if_pos rfl, if_neg (by omega)]
        · simp [h]

theorem memLookup_erase (m : Memory) (a b : Nat) :
    memLookup (memErase m a) b = if a = b then none else memLookup m b := by
  induction m with
  | nil => simp [memErase, memLookup]
  | cons e m ih =>
    obtain ⟨k, w⟩ := e
    simp only [memErase]
    by_cases hk : k = a
    · subst hk; simp only [if_true, ih, memLookup]; split <;> rfl
    · simp only [hk, if_false, memLookup, ih]
      by_cases hb : k = b
      · subst hb; simp [show ¬ a = k from fun h => hk h.symm]
      · simp [hb]

/-- A read after a direct store (20_memory.md R42, R43). -/
theorem memByte_set (c : Config) (m : Memory) (a b : Nat) (v : Byte) :
    memByte c (memSet c m a v) b = if a = b then v else memByte c m b := by
  unfold memByte memSet
  by_cases hu : unlisted c a = some v
  · rw [if_pos hu, memLookup_erase]
    by_cases hab : a = b
    · subst hab; simp [hu]
    · simp [hab]
  · rw [if_neg hu, memLookup_insert]
    by_cases hab : a = b <;> simp [hab]

/-- A read after `MemWrite` (20_memory.md R39, R43): a font address keeps its byte. -/
theorem memByte_write (c : Config) (m : Memory) (a b : Nat) (v : Byte) :
    memByte c (memWrite c m a v) b = if a = b ∧ isFont c a = false then v else memByte c m b := by
  unfold memWrite
  by_cases hf : isFont c a = true
  · simp [hf]
  · simp [Bool.not_eq_true] at hf; simp [hf, memByte_set]

/-- A block of writes changes no byte outside its addresses. -/
theorem memByte_writeAll_other (c : Config) (as : List Nat) (vs : List Byte) (m : Memory) (b : Nat)
    (hb : b ∉ as) : memByte c (memWriteAll c m as vs) b = memByte c m b := by
  induction as generalizing vs m with
  | nil => cases vs <;> rfl
  | cons a as ih =>
    simp only [List.mem_cons, not_or] at hb
    cases vs with
    | nil => rfl
    | cons v vs =>
      rw [memWriteAll, ih _ _ hb.2, memByte_write, if_neg (fun h => hb.1 h.1.symm)]

/-- A block of writes changes no font byte (20_memory.md R39). -/
theorem memByte_writeAll_font (c : Config) (as : List Nat) (vs : List Byte) (m : Memory) (b : Nat)
    (hb : isFont c b = true) : memByte c (memWriteAll c m as vs) b = memByte c m b := by
  induction as generalizing vs m with
  | nil => cases vs <;> rfl
  | cons a as ih =>
    cases vs with
    | nil => rfl
    | cons v vs =>
      rw [memWriteAll, ih, memByte_write, if_neg]
      rintro ⟨rfl, h⟩
      rw [hb] at h; exact absurd h (by decide)

/-- The byte at the `j`-th address of a block of writes to distinct addresses (20_memory.md R43, R44). -/
theorem memByte_writeAll_at (c : Config) (as : List Nat) (vs : List Byte) (m : Memory) (j : Nat)
    (hn : as.Nodup) (hl : as.length = vs.length) (hj : j < as.length) (hf : isFont c as[j] = false) :
    memByte c (memWriteAll c m as vs) as[j] = vs[j]'(hl ▸ hj) := by
  induction as generalizing vs m j with
  | nil => exact absurd hj (by simp)
  | cons a as ih =>
    cases vs with
    | nil => simp at hl
    | cons v vs =>
      rw [List.nodup_cons] at hn
      cases j with
      | zero =>
        simp only [List.getElem_cons_zero] at hf ⊢
        rw [memWriteAll, memByte_writeAll_other _ _ _ _ _ hn.1, memByte_write, if_pos ⟨rfl, hf⟩]
      | succ j =>
        simp only [List.getElem_cons_succ] at hf ⊢
        rw [memWriteAll]
        exact ih vs _ j hn.2 (by simpa using hl) (by simpa using hj) hf

/-- The loader's copy changes no byte outside its range. -/
theorem memByte_fill_other (c : Config) (bs : List Byte) (m : Memory) (a b : Nat)
    (hb : b < a ∨ a + bs.length ≤ b) : memByte c (memFill c m a bs) b = memByte c m b := by
  induction bs generalizing m a with
  | nil => rfl
  | cons v bs ih =>
    simp only [List.length_cons] at hb
    rw [memFill, ih _ _ (by omega), memByte_set, if_neg (by omega)]

/-- The loader's copy puts its bytes at ascending addresses (70_reset_and_hazards.md R152). -/
theorem memByte_fill_at (c : Config) (bs : List Byte) (m : Memory) (a j : Nat) (hj : j < bs.length) :
    memByte c (memFill c m a bs) (a + j) = bs[j] := by
  induction bs generalizing m a j with
  | nil => exact absurd hj (by simp)
  | cons v bs ih =>
    cases j with
    | zero =>
      rw [memFill, memByte_fill_other _ _ _ _ _ (by omega), memByte_set, if_pos (by omega)]
      rfl
    | succ j =>
      rw [memFill, show a + (j + 1) = (a + 1) + j by omega, ih _ _ j (by simpa using hj)]
      rfl

/-! ## The canonical form -/

theorem memInsert_mem (m : Memory) (a : Nat) (v : Byte) (e : Host.Cell) (h : e ∈ memInsert m a v) :
    e = (a, v) ∨ e ∈ m := by
  induction m with
  | nil => simpa [memInsert] using h
  | cons f m ih =>
    obtain ⟨k, w⟩ := f
    simp only [memInsert] at h
    split at h
    · simpa using h
    · split at h
      · rcases List.mem_cons.mp h with h | h
        · exact .inl h
        · exact .inr (List.mem_cons_of_mem _ h)
      · rcases List.mem_cons.mp h with h | h
        · exact .inr (h ▸ List.mem_cons_self)
        · rcases ih h with h | h
          · exact .inl h
          · exact .inr (List.mem_cons_of_mem _ h)

theorem memErase_mem (m : Memory) (a : Nat) (e : Host.Cell) (h : e ∈ memErase m a) : e ∈ m := by
  induction m with
  | nil => simp [memErase] at h
  | cons f m ih =>
    obtain ⟨k, w⟩ := f
    simp only [memErase] at h
    split at h
    · exact List.mem_cons_of_mem _ (ih h)
    · rcases List.mem_cons.mp h with h | h
      · exact h ▸ List.mem_cons_self
      · exact List.mem_cons_of_mem _ (ih h)

theorem memInsert_rising (m : Memory) (a : Nat) (v : Byte) (h : (m.map Prod.fst).Pairwise (· < ·)) :
    ((memInsert m a v).map Prod.fst).Pairwise (· < ·) := by
  induction m with
  | nil => simp [memInsert]
  | cons f m ih =>
    obtain ⟨k, w⟩ := f
    simp only [List.map_cons, List.pairwise_cons] at h
    simp only [memInsert]
    split
    · rename_i hak
      simp only [List.map_cons, List.pairwise_cons, List.mem_cons]
      refine ⟨?_, h⟩
      rintro x (rfl | hx)
      · exact hak
      · exact Nat.lt_trans hak (h.1 x hx)
    · split
      · subst_vars; simpa using h
      · rename_i h1 h2
        simp only [List.map_cons, List.pairwise_cons]
        refine ⟨fun x hx => ?_, ih h.2⟩
        obtain ⟨e, he, rfl⟩ := List.mem_map.mp hx
        rcases memInsert_mem _ _ _ _ he with rfl | he
        · show k < a; omega
        · exact h.1 _ (List.mem_map_of_mem he)

theorem memErase_rising (m : Memory) (a : Nat) (h : (m.map Prod.fst).Pairwise (· < ·)) :
    ((memErase m a).map Prod.fst).Pairwise (· < ·) := by
  induction m with
  | nil => simp [memErase]
  | cons f m ih =>
    obtain ⟨k, w⟩ := f
    simp only [List.map_cons, List.pairwise_cons] at h
    simp only [memErase]
    split
    · exact ih h.2
    · simp only [List.map_cons, List.pairwise_cons]
      refine ⟨fun x hx => ?_, ih h.2⟩
      obtain ⟨e, he, rfl⟩ := List.mem_map.mp hx
      exact h.1 _ (List.mem_map_of_mem (memErase_mem _ _ _ he))

/-- A direct store inside the address space keeps the canonical form. -/
theorem memSet_wf (c : Config) (m : Memory) (a : Nat) (v : Byte) (ha : a < memSize) (h : Memory.wf c m) :
    Memory.wf c (memSet c m a v) := by
  unfold memSet
  by_cases hu : unlisted c a = some v
  · rw [if_pos hu]
    exact ⟨memErase_rising _ _ h.1, fun e he => h.2 e (memErase_mem _ _ _ he)⟩
  · rw [if_neg hu]
    refine ⟨memInsert_rising _ _ _ h.1, fun e he => ?_⟩
    rcases memInsert_mem _ _ _ _ he with rfl | he
    · exact ⟨ha, hu⟩
    · exact h.2 e he

theorem memWrite_wf (c : Config) (m : Memory) (a : Nat) (v : Byte) (ha : a < memSize) (h : Memory.wf c m) :
    Memory.wf c (memWrite c m a v) := by
  unfold memWrite
  split
  · exact h
  · exact memSet_wf _ _ _ _ ha h

theorem memWriteAll_wf (c : Config) (as : List Nat) (vs : List Byte) (m : Memory) (ha : ∀ a ∈ as, a < memSize)
    (h : Memory.wf c m) : Memory.wf c (memWriteAll c m as vs) := by
  induction as generalizing vs m with
  | nil => cases vs <;> exact h
  | cons a as ih =>
    cases vs with
    | nil => exact h
    | cons v vs =>
      exact ih _ _ (fun b hb => ha b (List.mem_cons_of_mem _ hb))
        (memWrite_wf _ _ _ _ (ha a List.mem_cons_self) h)

theorem memFill_wf (c : Config) (bs : List Byte) (m : Memory) (a : Nat) (ha : a + bs.length ≤ memSize)
    (h : Memory.wf c m) : Memory.wf c (memFill c m a bs) := by
  induction bs generalizing m a with
  | nil => exact h
  | cons v bs ih =>
    simp only [List.length_cons] at ha
    exact ih _ _ (by omega) (memSet_wf _ _ _ _ (by omega) h)

/-- The empty memory is canonical: construction and reset list nothing. -/
theorem nil_wf (c : Config) : Memory.wf c [] := by simp [Memory.wf]

/-! ## Effective addresses -/

/-- `EA` of an address inside memory is that address (20_memory.md R41). -/
theorem ea_inside (c : Config) (a : Nat) (h : a ≤ 0xFFF) : ea c a = .ok a := by simp [ea, h]

/-- Everything `EA` answers is a memory index (R41). -/
theorem ea_lt (c : Config) (a b : Nat) (h : ea c a = .ok b) : b < memSize := by
  unfold ea at h
  split at h
  · cases h; simp only [memSize]; omega
  · split at h
    · cases h; exact Nat.mod_lt _ (by decide)
    · cases h

/-- When `EA` raises: above 0xFFF under `ADDR_OOR = FAULT`, with that address (R41). -/
theorem ea_error (c : Config) (a e : Nat) (h : ea c a = .error e) : e = a ∧ 0xFFF < a ∧ c.addrOor = .fault := by
  unfold ea at h
  split at h
  · cases h
  · split at h
    · cases h
    · cases h; refine ⟨rfl, by omega, ‹_›⟩

theorem eaRange_lt (c : Config) (a n : Nat) (as : List Nat) (h : eaRange c a n = .ok as) : ∀ b ∈ as, b < memSize := by
  induction n generalizing a as with
  | zero => cases h; simp
  | succ n ih =>
    simp only [eaRange] at h
    split at h
    · cases h
    · rename_i b hb
      split at h
      · cases h
      · rename_i bs hbs
        cases h
        simp only [List.mem_cons, forall_eq_or_imp]
        exact ⟨ea_lt _ _ _ hb, ih _ _ hbs⟩

theorem eaRange_length (c : Config) (a n : Nat) (as : List Nat) (h : eaRange c a n = .ok as) : as.length = n := by
  induction n generalizing a as with
  | zero => cases h; rfl
  | succ n ih =>
    simp only [eaRange] at h
    split at h
    · cases h
    · split at h
      · cases h
      · rename_i bs hbs
        cases h; simp [ih _ _ hbs]

/-- A range inside memory is its own addresses (R41). -/
theorem eaRange_inside (c : Config) (a n : Nat) (h : a + n ≤ memSize) : eaRange c a n = .ok (List.range' a n) := by
  induction n generalizing a with
  | zero => rfl
  | succ n ih =>
    simp only [memSize] at h
    rw [eaRange, ea_inside _ _ (by omega)]
    simp only [ih (a + 1) (by simp only [memSize]; omega), List.range'_succ]

/-- Under `ADDR_OOR = FAULT` a range that leaves memory reports its lowest address past 0xFFF (60_exceptions.md R138). -/
theorem eaRange_outside (c : Config) (a n : Nat) (hf : c.addrOor = .fault) (h : memSize < a + n) (hn : 0 < n) :
    eaRange c a n = .error (max a 0x1000) := by
  induction n generalizing a with
  | zero => omega
  | succ n ih =>
    simp only [memSize] at h
    by_cases ha : a ≤ 0xFFF
    · rw [eaRange, ea_inside _ _ ha]
      simp only [ih (a + 1) (by simp only [memSize]; omega) (by omega)]
      congr 1; omega
    · rw [eaRange]; simp only [ea, if_neg ha, hf]; congr 1; omega

/-- Under `ADDR_OOR = WRAP` every range is legal, each address taken mod 4096 (R41). -/
theorem eaRange_wrap (c : Config) (a n : Nat) (hw : c.addrOor = .wrap) :
    eaRange c a n = .ok ((List.range' a n).map (· % memSize)) := by
  induction n generalizing a with
  | zero => rfl
  | succ n ih =>
    have hea : ea c a = .ok (a % memSize) := by
      unfold ea; simp only [hw, memSize]; split
      · rw [Nat.mod_eq_of_lt (by omega)]
      · rfl
    rw [eaRange, hea]
    simp only [ih, List.range'_succ, List.map_cons]

/-- A legal range, whatever makes it legal: each address at its memory index (R41). -/
theorem eaRange_ok (c : Config) (a n : Nat) (h : BlockInMemory c a n) :
    eaRange c a n = .ok ((List.range n).map fun j => memIndex (a + j)) := by
  rcases h with rfl | h | h
  · rfl
  · rw [eaRange_wrap _ _ _ h, List.range'_eq_map_range, List.map_map]
    rfl
  · rw [eaRange_inside _ _ _ h, List.range'_eq_map_range]
    congr 1
    refine List.map_congr_left fun j hj => ?_
    rw [memIndex, Nat.mod_eq_of_lt (by have := List.mem_range.mp hj; omega)]

/-- The addresses of a legal block of at most 4096 bytes are distinct (R41). -/
theorem memIndex_range_nodup (a n : Nat) (h : n ≤ 0x1000) : ((List.range n).map fun j => memIndex (a + j)).Nodup := by
  refine List.Nodup.map_on (fun i hi j hj hij => ?_) List.nodup_range
  simp only [memIndex, List.mem_range] at *
  omega

/-- A legal block load gives the block's bytes (49_memory_ops.md R133; 46_draw.md R119). -/
theorem loadBlock_ok (s : State) (a n : Nat) (h : BlockInMemory s.cfg a n) :
    loadBlock s a n = .ok (s.blockBytes a n) := by
  rw [loadBlock, eaRange_ok _ _ _ h]
  simp only [List.map_map, State.blockBytes]
  rfl

/-- A legal block store writes at the block's addresses (49_memory_ops.md R131, R132). -/
theorem storeBlock_ok (s : State) (a : Nat) (vals : List Byte) (h : BlockInMemory s.cfg a vals.length)
    (hf : BlockStorable s.cfg a vals.length) :
    storeBlock s a vals =
      .ok (memWriteAll s.cfg s.mem ((List.range vals.length).map fun j => memIndex (a + j)) vals) := by
  rw [storeBlock, eaRange_ok _ _ _ h]
  have : fontHit s.cfg ((List.range vals.length).map fun j => memIndex (a + j)) = none := by
    unfold fontHit
    split
    · rfl
    · rename_i hw
      rcases hf with hf | hf
      · rw [hf] at hw; cases hw
      · rw [List.min?_eq_none_iff, List.filter_eq_nil_iff]
        intro b hb
        obtain ⟨j, hj, rfl⟩ := List.mem_map.mp hb
        simp [hf j (List.mem_range.mp hj)]
  simp only [this]

/-- The bytes of memory after a block of writes to a legal range: the stored byte at each address outside the font,
every other byte as before (20_memory.md R39, R43). -/
theorem memByte_writeBlock (c : Config) (m : Memory) (a : Nat) (vals : List Byte) (hl : vals.length ≤ 0x1000) (b : Nat) :
    (∀ (j : Nat) (h : j < vals.length), b = memIndex (a + j) → isFont c b = false →
      memByte c (memWriteAll c m ((List.range vals.length).map fun j => memIndex (a + j)) vals) b = vals[j]) ∧
    ((∀ j, j < vals.length → b ≠ memIndex (a + j)) ∨ isFont c b = true →
      memByte c (memWriteAll c m ((List.range vals.length).map fun j => memIndex (a + j)) vals) b = memByte c m b) := by
  refine ⟨fun j hj hb hf => ?_, ?_⟩
  · have hj' : j < ((List.range vals.length).map fun j => memIndex (a + j)).length := by simpa using hj
    have hg : ((List.range vals.length).map fun j => memIndex (a + j))[j] = b := by simp [hb]
    have := memByte_writeAll_at c _ vals m j (memIndex_range_nodup a _ hl) (by simp) hj' (by rw [hg]; exact hf)
    rw [hg] at this
    exact this
  · rintro (h | h)
    · refine memByte_writeAll_other _ _ _ _ _ fun hb => ?_
      obtain ⟨j, hj, rfl⟩ := List.mem_map.mp hb
      exact h j (List.mem_range.mp hj) rfl
    · exact memByte_writeAll_font _ _ _ _ _ h

/-! ## Block loads and stores -/

/-- Everything a block store can answer: memory with the bytes written at checked addresses, or a fatal error. -/
theorem storeBlock_cases (s : State) (base : Nat) (vals : List Byte) :
    (∃ as, eaRange s.cfg base vals.length = .ok as ∧ fontHit s.cfg as = none ∧
      storeBlock s base vals = .ok (memWriteAll s.cfg s.mem as vals)) ∨
    (∃ as a, eaRange s.cfg base vals.length = .ok as ∧ fontHit s.cfg as = some a ∧
      storeBlock s base vals = .error (.fontWrite a s.pc)) ∨
    (∃ a, eaRange s.cfg base vals.length = .error a ∧ storeBlock s base vals = .error (.addressFault a s.pc)) := by
  unfold storeBlock
  split
  · rename_i a ha; exact .inr (.inr ⟨a, ha, rfl⟩)
  · rename_i as ha
    split
    · rename_i a hf; exact .inr (.inl ⟨as, a, ha, hf, rfl⟩)
    · rename_i hf; exact .inl ⟨as, ha, hf, rfl⟩

/-- Everything a block load can answer: the bytes at checked addresses, or an address fault. -/
theorem loadBlock_cases (s : State) (base n : Nat) :
    (∃ as, eaRange s.cfg base n = .ok as ∧ loadBlock s base n = .ok (as.map s.readByte)) ∨
    (∃ a, eaRange s.cfg base n = .error a ∧ loadBlock s base n = .error (.addressFault a s.pc)) := by
  unfold loadBlock
  split
  · rename_i a ha; exact .inr ⟨a, ha, rfl⟩
  · rename_i as ha; exact .inl ⟨as, ha, rfl⟩

/-- A block store keeps the canonical form. -/
theorem storeBlock_wf (s : State) (base : Nat) (vals : List Byte) (m : Memory) (h : Memory.wf s.cfg s.mem)
    (hm : storeBlock s base vals = .ok m) : Memory.wf s.cfg m := by
  rcases storeBlock_cases s base vals with ⟨as, ha, _, hs⟩ | ⟨as, a, _, _, hs⟩ | ⟨a, _, hs⟩
  · rw [hs] at hm; cases hm
    exact memWriteAll_wf _ _ _ _ (eaRange_lt _ _ _ _ ha) h
  · rw [hs] at hm; cases hm
  · rw [hs] at hm; cases hm

/-- A block store changes no font byte (20_memory.md R39). -/
theorem storeBlock_font (s : State) (base : Nat) (vals : List Byte) (m : Memory) (b : Nat)
    (hb : isFont s.cfg b = true) (hm : storeBlock s base vals = .ok m) :
    memByte s.cfg m b = memByte s.cfg s.mem b := by
  rcases storeBlock_cases s base vals with ⟨as, ha, _, hs⟩ | ⟨as, a, _, _, hs⟩ | ⟨a, _, hs⟩
  · rw [hs] at hm; cases hm
    exact memByte_writeAll_font _ _ _ _ _ hb
  · rw [hs] at hm; cases hm
  · rw [hs] at hm; cases hm

/-- Where a word is placed for a fetch keeps the canonical form. -/
theorem placeWord_wf (c : Config) (m : Memory) (pc w : Word) (h : Memory.wf c m) : Memory.wf c (placeWord c m pc w) := by
  unfold placeWord
  split
  · rename_i a b ha hb
    exact memSet_wf _ _ _ _ (ea_lt _ _ _ hb) (memSet_wf _ _ _ _ (ea_lt _ _ _ ha) h)
  · exact h

end Sys2Proof.Machine
end

