-- ==== Sys2Proof/Laws/Ops.lean ====
section
/-! SUPPORT. Sys2Proof/Laws/Ops.lean: one lemma per operation over registers, keypad, display, end of a Tick and
fetch, saying all that it can do. -/

namespace Sys2Proof.Machine

/-! ## Registers -/

theorem nibble_toNat_inj {x y : Nibble} : x.toNat = y.toNat ↔ x = y :=
  ⟨BitVec.eq_of_toNat_eq, fun h => h ▸ rfl⟩

/-- A register after `V[x] <- b` (10_state.md R15: none aliases another). -/
theorem reg_setReg (s : State) (x j : Nibble) (b : Byte) :
    (s.setReg x b).reg j = if j = x then b else s.reg j := by
  simp only [State.reg, State.setReg, Vector.getElem_set, nibble_toNat_inj]
  by_cases h : x = j <;> simp [h, eq_comm]

/-- The registers after a result and its flag: the flag is last (44_arithmetic.md R109). -/
theorem reg_writeResultFlag (x j : Nibble) (res flag : Byte) (s : State) :
    (writeResultFlag x res flag s).reg j = if j = vf then flag else if j = x then res else s.reg j := by
  rw [writeResultFlag, reg_setReg, reg_setReg]

/-- The registers after `OR`, `AND`, `XOR` (44_arithmetic.md R110). -/
theorem reg_writeLogic (x j : Nibble) (res : Byte) (s : State) :
    (writeLogic x res s).reg j =
      if j = vf ∧ s.cfg.logicVf = .reset then 0#8 else if j = x then res else s.reg j := by
  unfold writeLogic
  split
  · rename_i h; simp [reg_writeResultFlag, h]
  · rename_i h; simp [reg_setReg, h]

/-- The registers after a key wait completes (40_cycle_and_host.md R73). -/
theorem reg_completeWait (r j : Nibble) (k : Nat) (s : State) :
    (completeWait r k s).reg j = if j = r then BitVec.ofNat 8 k else s.reg j := by
  exact reg_setReg s r j (BitVec.ofNat 8 k)

theorem regBlock_length (v : Vector Byte 16) (x : Nibble) : (regBlock v x).length = x.toNat + 1 := by
  have := x.isLt
  simp [regBlock]; omega

theorem regBlock_get (v : Vector Byte 16) (x : Nibble) (j : Nat) (h : j < (regBlock v x).length)
    (h' : j < 16) : (regBlock v x)[j] = v[j] := by
  simp [regBlock]

/-- A register after a block load: loaded inside the block, kept outside (49_memory_ops.md R133). -/
theorem writeRegs_get (v : Vector Byte 16) (bs : List Byte) (j k : Nat) (hk : k < 16) :
    (writeRegs v j bs)[k] = if h : j ≤ k ∧ k < j + bs.length then bs[k - j]'(by omega) else v[k] := by
  induction bs generalizing v j with
  | nil => rw [writeRegs, dif_neg (by simp only [List.length_nil]; omega)]
  | cons b bs ih =>
    rw [writeRegs, ih]
    simp only [List.length_cons]
    by_cases h1 : j + 1 ≤ k ∧ k < j + 1 + bs.length
    · rw [dif_pos h1, dif_pos (by omega)]
      have : k - j = (k - (j + 1)) + 1 := by omega
      simp only [this, List.getElem_cons_succ]
    · rw [dif_neg h1, Vector.getElem_setIfInBounds]
      by_cases h2 : j = k
      · subst h2; simp
      · rw [if_neg h2, dif_neg (by omega)]

/-! ## Accessors after the updates that do not reach them -/

@[simp] theorem setReg_readByte (s : State) (x : Nibble) (b : Byte) (b' : Nat) : (s.setReg x b).readByte b' = s.readByte b' := rfl
@[simp] theorem setReg_key (s : State) (x : Nibble) (b : Byte) (k' : Nibble) : (s.setReg x b).key k' = s.key k' := rfl
@[simp] theorem advance_reg (s : State) (j : Nibble) : (advance s).reg j = s.reg j := rfl
@[simp] theorem advance_readByte (s : State) (b' : Nat) : (advance s).readByte b' = s.readByte b' := rfl
@[simp] theorem advance_key (s : State) (k' : Nibble) : (advance s).key k' = s.key k' := rfl
@[simp] theorem skipIf_reg (c : Bool) (s : State) (j : Nibble) : (skipIf c s).reg j = s.reg j := rfl
@[simp] theorem skipIf_readByte (c : Bool) (s : State) (b' : Nat) : (skipIf c s).readByte b' = s.readByte b' := rfl
@[simp] theorem skipIf_key (c : Bool) (s : State) (k' : Nibble) : (skipIf c s).key k' = s.key k' := rfl
@[simp] theorem writeResultFlag_readByte (x : Nibble) (res flag : Byte) (s : State) (b' : Nat) : (writeResultFlag x res flag s).readByte b' = s.readByte b' := rfl
@[simp] theorem writeResultFlag_key (x : Nibble) (res flag : Byte) (s : State) (k' : Nibble) : (writeResultFlag x res flag s).key k' = s.key k' := rfl
@[simp] theorem pushReturn_reg (s : State) (w : Word) (h : s.sp.val < 16) (j : Nibble) : (pushReturn s w h).reg j = s.reg j := rfl
@[simp] theorem pushReturn_readByte (s : State) (w : Word) (h : s.sp.val < 16) (b' : Nat) : (pushReturn s w h).readByte b' = s.readByte b' := rfl
@[simp] theorem pushReturn_key (s : State) (w : Word) (h : s.sp.val < 16) (k' : Nibble) : (pushReturn s w h).key k' = s.key k' := rfl
@[simp] theorem popReturn_reg (s : State) (h : 0 < s.sp.val) (j : Nibble) : (popReturn s h).reg j = s.reg j := rfl
@[simp] theorem popReturn_readByte (s : State) (h : 0 < s.sp.val) (b' : Nat) : (popReturn s h).readByte b' = s.readByte b' := rfl
@[simp] theorem popReturn_key (s : State) (h : 0 < s.sp.val) (k' : Nibble) : (popReturn s h).key k' = s.key k' := rfl
@[simp] theorem timerStep_reg (s : State) (j : Nibble) : (timerStep s).reg j = s.reg j := rfl
@[simp] theorem timerStep_readByte (s : State) (b' : Nat) : (timerStep s).readByte b' = s.readByte b' := rfl
@[simp] theorem timerStep_key (s : State) (k' : Nibble) : (timerStep s).key k' = s.key k' := rfl
@[simp] theorem dirtyUpdate_reg (s : State) (j : Nibble) : (dirtyUpdate s).reg j = s.reg j := rfl
@[simp] theorem dirtyUpdate_readByte (s : State) (b' : Nat) : (dirtyUpdate s).readByte b' = s.readByte b' := rfl
@[simp] theorem dirtyUpdate_key (s : State) (k' : Nibble) : (dirtyUpdate s).key k' = s.key k' := rfl
@[simp] theorem takeFatal_reg (e : FatalError) (s : State) (j : Nibble) : (takeFatal e s).reg j = s.reg j := rfl
@[simp] theorem takeFatal_readByte (e : FatalError) (s : State) (b' : Nat) : (takeFatal e s).readByte b' = s.readByte b' := rfl
@[simp] theorem takeFatal_key (e : FatalError) (s : State) (k' : Nibble) : (takeFatal e s).key k' = s.key k' := rfl
@[simp] theorem beginTick_reg (r : Byte) (s : State) (j : Nibble) : (beginTick r s).reg j = s.reg j := rfl
@[simp] theorem beginTick_readByte (r : Byte) (s : State) (b' : Nat) : (beginTick r s).readByte b' = s.readByte b' := rfl
@[simp] theorem beginTick_key (r : Byte) (s : State) (k' : Nibble) : (beginTick r s).key k' = s.key k' := rfl
@[simp] theorem releaseInput_reg (s : State) (j : Nibble) : (releaseInput s).reg j = s.reg j := rfl
@[simp] theorem releaseInput_readByte (s : State) (b' : Nat) : (releaseInput s).readByte b' = s.readByte b' := rfl
@[simp] theorem releaseInput_key (s : State) (k' : Nibble) : (releaseInput s).key k' = s.key k' := rfl
@[simp] theorem drawRandom_reg (s : State) (j : Nibble) : (drawRandom s).reg j = s.reg j := rfl
@[simp] theorem drawRandom_readByte (s : State) (b' : Nat) : (drawRandom s).readByte b' = s.readByte b' := rfl
@[simp] theorem drawRandom_key (s : State) (k' : Nibble) : (drawRandom s).key k' = s.key k' := rfl
@[simp] theorem skipUnknown_reg (op : Word) (s : State) (j : Nibble) : (skipUnknown op s).reg j = s.reg j := rfl
@[simp] theorem skipUnknown_readByte (op : Word) (s : State) (b' : Nat) : (skipUnknown op s).readByte b' = s.readByte b' := rfl
@[simp] theorem skipUnknown_key (op : Word) (s : State) (k' : Nibble) : (skipUnknown op s).key k' = s.key k' := rfl
@[simp] theorem completeWait_readByte (r : Nibble) (k : Nat) (s : State) (b' : Nat) : (completeWait r k s).readByte b' = s.readByte b' := rfl
@[simp] theorem completeWait_key (r : Nibble) (k : Nat) (s : State) (k' : Nibble) : (completeWait r k s).key k' = s.key k' := rfl

@[simp] theorem tickTimerStep_reg (s : State) (j : Nibble) : (tickTimerStep s).reg j = s.reg j := by
  unfold tickTimerStep; split <;> rfl
@[simp] theorem tickTimerStep_readByte (s : State) (a : Nat) : (tickTimerStep s).readByte a = s.readByte a := by
  unfold tickTimerStep; split <;> rfl
@[simp] theorem writeLogic_readByte (x : Nibble) (res : Byte) (s : State) (a : Nat) :
    (writeLogic x res s).readByte a = s.readByte a := by
  unfold writeLogic; split <;> rfl

/-! ## Keypad -/

/-- The lowest pressed key is pressed and no lower key is (40_cycle_and_host.md R73). -/
theorem lowestKey_some (keys : Vector Bool 16) (k : Nat) (h : lowestKey keys = some k) :
    ∃ hk : k < 16, keys[k] = true ∧ ∀ j, (hj : j < k) → keys[j] = false := by
  unfold lowestKey at h
  rw [List.findIdx?_eq_some_iff_getElem] at h
  obtain ⟨hk, h1, h2⟩ := h
  have hk' : k < 16 := by simpa using hk
  refine ⟨hk', by simpa using h1, fun j hj => ?_⟩
  simpa using h2 j hj

/-- No key is found exactly when none is pressed (R73). -/
theorem lowestKey_none (keys : Vector Bool 16) (h : lowestKey keys = none) (j : Nat) (hj : j < 16) :
    keys[j] = false := by
  unfold lowestKey at h
  rw [List.findIdx?_eq_none_iff] at h
  have := h keys[j] (by rw [Vector.mem_toList_iff]; exact Vector.getElem_mem hj)
  simpa using this

/-- A pressed key that no lower key precedes is the one found (R73). -/
theorem lowestKey_eq (keys : Vector Bool 16) (k : Nat) (hk : k < 16) (h1 : keys[k] = true)
    (h2 : ∀ j, (hj : j < k) → keys[j] = false) : lowestKey keys = some k := by
  unfold lowestKey
  rw [List.findIdx?_eq_some_iff_getElem]
  exact ⟨by simpa using hk, by simpa using h1, fun j hj => by simpa using h2 j hj⟩

/-! ## Display -/

theorem setBit_getLsbD (w : Byte) (k i : Nat) (b : Bool) (hk : k < 8) (hi : i < 8) :
    (setBit w k b).getLsbD i = if i = k then b else w.getLsbD i := by
  have hb : (1#8 <<< k).getLsbD i = decide (i = k) := by
    simp only [BitVec.getLsbD_shiftLeft, BitVec.getLsbD_one]
    by_cases h : i = k
    · subst h; simp [hi]
    · by_cases h' : i < k
      · simp [h, h']
      · simp [h, hi]; omega
  unfold setBit
  cases b
  · simp only [Bool.false_eq_true, if_false, BitVec.getLsbD_and, BitVec.getLsbD_not, hb, hi, decide_true, Bool.true_and]
    by_cases h : i = k <;> simp [h]
  · simp only [if_true, BitVec.getLsbD_or, hb]
    by_cases h : i = k <;> simp [h]

/-- The pixels after `Pix(px, py) <- b`: every other pixel is unchanged (10_state.md R26). -/
theorem pix_setPix (d : Display) (px qx : Fin 64) (py qy : Fin 32) (b : Bool) :
    pix (setPix d px py b) qx qy = if qx = px ∧ qy = py then b else pix d qx qy := by
  unfold pix setPix
  rw [Vector.getElem_set]
  have hb : ∀ z : Fin 64, pixBit z < 8 := fun z => by unfold pixBit; omega
  by_cases hi : (pixByte px py).val = (pixByte qx qy).val
  · have hrow : qy.val = py.val ∧ qx.val / 8 = px.val / 8 := by simp only [pixByte] at hi; omega
    simp only [hi, if_true]
    rw [setBit_getLsbD _ _ _ _ (hb _) (hb _)]
    by_cases hp : pixBit qx = pixBit px
    · have : qx = px ∧ qy = py := by
        simp only [pixBit] at hp
        exact ⟨Fin.ext (by omega), Fin.ext hrow.1⟩
      rw [if_pos hp, if_pos this]
    · have : ¬(qx = px ∧ qy = py) := fun h => hp (by rw [h.1])
      rw [if_neg hp, if_neg this]
  · have : ¬(qx = px ∧ qy = py) := fun h => hi (by rw [h.1, h.2])
    rw [if_neg hi, if_neg this]

/-- Two columns of one sprite row never meet: 8 < 64 (46_draw.md R120). -/
theorem wrapX_inj (vx : Byte) (c e : Nat) (hc : c < 8) (he : e < 8) (h : wrapX vx c = wrapX vx e) : c = e := by
  have := Fin.val_eq_of_eq h
  simp only [wrapX] at this
  omega

/-- Two rows of one sprite never meet: at most 32 rows apart (46_draw.md R120). -/
theorem wrapY_inj (vy : Byte) (r q : Nat) (hr : r < q + 32) (hq : q < r + 32) (h : wrapY vy r = wrapY vy q) : r = q := by
  have := Fin.val_eq_of_eq h
  simp only [wrapY] at this
  omega

/-- One bit of a sprite row: it flips its own pixel if it is 1, and changes no other (46_draw.md R119). -/
theorem pix_drawBit (vx vy : Byte) (r : Nat) (b : Byte) (p : Display × Bool) (c : Nat) (qx : Fin 64) (qy : Fin 32) :
    pix (drawBit vx vy r b p c).1 qx qy =
      (pix p.1 qx qy ^^ decide (b.getLsbD (7 - c) = true ∧ qx = wrapX vx c ∧ qy = wrapY vy r)) := by
  unfold drawBit
  by_cases hb : b.getLsbD (7 - c) = true
  · simp only [hb, if_true, pix_setPix]
    by_cases h : qx = wrapX vx c ∧ qy = wrapY vy r
    · simp [h]
    · simp [h]
  · simp [hb]

/-- Some columns of one sprite row, on the pixels. -/
theorem pix_drawCols (vx vy : Byte) (r : Nat) (b : Byte) (cs : List Nat) (p : Display × Bool) (hn : cs.Nodup)
    (hc : ∀ c ∈ cs, c < 8) (qx : Fin 64) (qy : Fin 32) :
    pix (cs.foldl (drawBit vx vy r b) p).1 qx qy =
      (pix p.1 qx qy ^^ decide (∃ c ∈ cs, b.getLsbD (7 - c) = true ∧ qx = wrapX vx c ∧ qy = wrapY vy r)) := by
  induction cs generalizing p with
  | nil => simp
  | cons c cs ih =>
    rw [List.nodup_cons] at hn
    rw [List.foldl_cons, ih _ hn.2 (fun e he => hc e (List.mem_cons_of_mem _ he)), pix_drawBit, Bool.xor_assoc]
    congr 1
    by_cases h1 : b.getLsbD (7 - c) = true ∧ qx = wrapX vx c ∧ qy = wrapY vy r
    · have h2 : ¬ ∃ e ∈ cs, b.getLsbD (7 - e) = true ∧ qx = wrapX vx e ∧ qy = wrapY vy r := by
        rintro ⟨e, he, _, hx, _⟩
        have := wrapX_inj vx c e (hc c List.mem_cons_self) (hc e (List.mem_cons_of_mem _ he)) (h1.2.1 ▸ hx)
        exact hn.1 (this ▸ he)
      have h3 : ∃ e ∈ c :: cs, b.getLsbD (7 - e) = true ∧ qx = wrapX vx e ∧ qy = wrapY vy r :=
        ⟨c, List.mem_cons_self, h1⟩
      rw [decide_eq_true h1, decide_eq_false h2, decide_eq_true h3]; rfl
    · rw [decide_eq_false h1, Bool.false_xor, decide_eq_decide]
      simp only [List.mem_cons, exists_eq_or_imp, h1, false_or]

/-- Some columns of one sprite row, on the collision flag. -/
theorem hit_drawCols (vx vy : Byte) (r : Nat) (b : Byte) (cs : List Nat) (p : Display × Bool) (hn : cs.Nodup)
    (hc : ∀ c ∈ cs, c < 8) :
    (cs.foldl (drawBit vx vy r b) p).2 =
      (p.2 || decide (∃ c ∈ cs, b.getLsbD (7 - c) = true ∧ pix p.1 (wrapX vx c) (wrapY vy r) = true)) := by
  induction cs generalizing p with
  | nil => simp
  | cons c cs ih =>
    rw [List.nodup_cons] at hn
    have hstep : (drawBit vx vy r b p c).2 =
        (p.2 || decide (b.getLsbD (7 - c) = true ∧ pix p.1 (wrapX vx c) (wrapY vy r) = true)) := by
      unfold drawBit; by_cases hb : b.getLsbD (7 - c) = true <;> simp [hb]
    have hrest : (∃ e ∈ cs, b.getLsbD (7 - e) = true ∧ pix (drawBit vx vy r b p c).1 (wrapX vx e) (wrapY vy r) = true) ↔
        (∃ e ∈ cs, b.getLsbD (7 - e) = true ∧ pix p.1 (wrapX vx e) (wrapY vy r) = true) := by
      refine exists_congr fun e => and_congr_right fun he => and_congr_right fun _ => ?_
      have hne : wrapX vx e ≠ wrapX vx c := fun h => hn.1 (by
        have := wrapX_inj vx e c (hc e (List.mem_cons_of_mem _ he)) (hc c List.mem_cons_self) h
        exact this ▸ he)
      rw [pix_drawBit]; simp [hne]
    rw [List.foldl_cons, ih _ hn.2 (fun e he => hc e (List.mem_cons_of_mem _ he)), hstep, Bool.or_assoc]
    congr 1
    simp only [hrest, List.mem_cons, exists_eq_or_imp, Bool.decide_or]

/-- What a sprite row covers, in the drawing's own terms. -/
theorem rowCovers_iff (vx vy : Byte) (r : Nat) (b : Byte) (qx : Fin 64) (qy : Fin 32) :
    RowCovers vx vy r b qx qy ↔
      ∃ c, c < 8 ∧ b.getLsbD (7 - c) = true ∧ qx = wrapX vx c ∧ qy = wrapY vy r := by
  simp only [RowCovers, Fin.ext_iff, wrapX, wrapY]

theorem spriteCovers_nil (vx vy : Byte) (r : Nat) (qx : Fin 64) (qy : Fin 32) : ¬ SpriteCovers vx vy r [] qx qy := by
  rintro ⟨j, hj, _⟩; exact absurd hj (by simp)

theorem spriteCovers_cons (vx vy : Byte) (r : Nat) (b : Byte) (bs : List Byte) (qx : Fin 64) (qy : Fin 32) :
    SpriteCovers vx vy r (b :: bs) qx qy ↔ RowCovers vx vy r b qx qy ∨ SpriteCovers vx vy (r + 1) bs qx qy := by
  constructor
  · rintro ⟨j, hj, h⟩
    cases j with
    | zero => exact .inl h
    | succ j =>
      refine .inr ⟨j, by simpa using hj, ?_⟩
      rw [show r + 1 + j = r + (j + 1) by omega]; exact h
  · rintro (h | ⟨j, hj, h⟩)
    · exact ⟨0, by simp, h⟩
    · refine ⟨j + 1, by simpa using hj, ?_⟩
      rw [show r + (j + 1) = r + 1 + j by omega]; exact h

/-- No pixel is covered by two rows of one sprite (46_draw.md R120). -/
theorem rowCovers_spriteCovers (vx vy : Byte) (r : Nat) (b : Byte) (bs : List Byte) (qx : Fin 64) (qy : Fin 32)
    (hl : bs.length < 32) (h : RowCovers vx vy r b qx qy) : ¬ SpriteCovers vx vy (r + 1) bs qx qy := by
  rintro ⟨j, hj, hc⟩
  obtain ⟨c, _, _, _, hy⟩ := (rowCovers_iff _ _ _ _ _ _).mp hc
  obtain ⟨e, _, _, _, hy'⟩ := (rowCovers_iff _ _ _ _ _ _).mp h
  have := wrapY_inj vy r (r + 1 + j) (by omega) (by omega) (hy' ▸ hy)
  omega

/-- One sprite row, on the pixels (46_draw.md R119, R120). -/
theorem pix_drawRow (vx vy : Byte) (r : Nat) (b : Byte) (p : Display × Bool) (qx : Fin 64) (qy : Fin 32) :
    pix (drawRow vx vy r b p).1 qx qy = true ↔ ¬ (pix p.1 qx qy = true ↔ RowCovers vx vy r b qx qy) := by
  rw [drawRow, pix_drawCols _ _ _ _ _ _ (by decide) (by decide)]
  have hm : (∃ c ∈ [0, 1, 2, 3, 4, 5, 6, 7], b.getLsbD (7 - c) = true ∧ qx = wrapX vx c ∧ qy = wrapY vy r) ↔
      RowCovers vx vy r b qx qy := by
    rw [rowCovers_iff]
    refine exists_congr fun c => and_congr_left fun _ => ?_
    constructor
    · intro h; simp only [List.mem_cons, List.not_mem_nil, or_false] at h; omega
    · intro h; simp only [List.mem_cons, List.not_mem_nil, or_false]; omega
  by_cases h : RowCovers vx vy r b qx qy
  · rw [decide_eq_true (hm.mpr h)]; simp [h]
  · rw [decide_eq_false (fun h' => h (hm.mp h'))]; simp [h]

/-- One sprite row, on the collision flag (46_draw.md R119). -/
theorem hit_drawRow (vx vy : Byte) (r : Nat) (b : Byte) (p : Display × Bool) :
    (drawRow vx vy r b p).2 = true ↔ p.2 = true ∨ ∃ qx qy, RowCovers vx vy r b qx qy ∧ pix p.1 qx qy = true := by
  rw [drawRow, hit_drawCols _ _ _ _ _ _ (by decide) (by decide), Bool.or_eq_true, decide_eq_true_iff]
  refine or_congr_right ⟨?_, ?_⟩
  · rintro ⟨c, hc, hb, hp⟩
    refine ⟨_, _, (rowCovers_iff _ _ _ _ _ _).mpr ⟨c, ?_, hb, rfl, rfl⟩, hp⟩
    simp only [List.mem_cons, List.not_mem_nil, or_false] at hc; omega
  · rintro ⟨_, _, h, hp⟩
    obtain ⟨c, hc, hb, rfl, rfl⟩ := (rowCovers_iff _ _ _ _ _ _).mp h
    refine ⟨c, ?_, hb, hp⟩
    simp only [List.mem_cons, List.not_mem_nil, or_false]; omega

/-- All rows of a sprite, on the pixels: a pixel flips exactly when a sprite bit 1 lands on it (46_draw.md R119,
R120). -/
theorem pix_drawRows (vx vy : Byte) (bs : List Byte) (r : Nat) (p : Display × Bool) (hl : bs.length ≤ 32)
    (qx : Fin 64) (qy : Fin 32) :
    pix (drawRows vx vy r bs p).1 qx qy = true ↔ ¬ (pix p.1 qx qy = true ↔ SpriteCovers vx vy r bs qx qy) := by
  induction bs generalizing r p with
  | nil => simp [drawRows, spriteCovers_nil]
  | cons b bs ih =>
    simp only [List.length_cons] at hl
    have hd := rowCovers_spriteCovers vx vy r b bs qx qy (by omega)
    rw [drawRows, ih _ _ (by omega), pix_drawRow, spriteCovers_cons]
    tauto

/-- All rows of a sprite, on the collision flag: some sprite bit 1 lands on a lit pixel (46_draw.md R119). -/
theorem hit_drawRows (vx vy : Byte) (bs : List Byte) (r : Nat) (p : Display × Bool) (hl : bs.length ≤ 32) :
    (drawRows vx vy r bs p).2 = true ↔
      p.2 = true ∨ ∃ qx qy, SpriteCovers vx vy r bs qx qy ∧ pix p.1 qx qy = true := by
  induction bs generalizing r p with
  | nil => simp [drawRows, spriteCovers_nil]
  | cons b bs ih =>
    simp only [List.length_cons] at hl
    rw [drawRows, ih _ _ (by omega), hit_drawRow, or_assoc]
    refine or_congr_right ?_
    have hq : ∀ qx qy, SpriteCovers vx vy (r + 1) bs qx qy ∧ pix (drawRow vx vy r b p).1 qx qy = true ↔
        SpriteCovers vx vy (r + 1) bs qx qy ∧ pix p.1 qx qy = true := fun qx qy => by
      have hd := rowCovers_spriteCovers vx vy r b bs qx qy (by omega)
      rw [pix_drawRow]; tauto
    simp only [hq, spriteCovers_cons, or_and_right, exists_or]

/-! ## The end of a Tick -/

/-- What the end of a Tick does (40_cycle_and_host.md R69): after a fatal error it only lets the input go; else the
timer step and the dirty update come first. -/
theorem endTick_cases (t : State) :
    (∃ e, t.mode = .halted e ∧ endTick t = releaseInput t) ∨
    ((∀ e, t.mode ≠ .halted e) ∧ endTick t = releaseInput (dirtyUpdate (tickTimerStep t))) := by
  unfold endTick
  split
  · rename_i e h; exact .inl ⟨e, h, rfl⟩
  · rename_i h; exact .inr ⟨fun e he => h e he, rfl⟩

/-- What the end of a Tick never changes: everything but the timers, `Dirty` and the latched input (R69). -/
theorem endTick_keeps (t : State) :
    endTick t = { t with dt := (endTick t).dt, st := (endTick t).st, dirty := (endTick t).dirty, rnd := 0#8 } := by
  rcases endTick_cases t with ⟨e, _, h⟩ | ⟨_, h⟩
  · rw [h]; rfl
  · rw [h]; unfold tickTimerStep; split <;> rfl

/-! ## Fetch -/

/-- A fetch inside memory reads the two bytes at `PC`, big-endian (40_cycle_and_host.md R70; 20_memory.md R44). -/
theorem fetch_inside (s : State) (h : s.pc.toNat + 1 ≤ 0xFFF) :
    fetch s = .ok (joinBytes (s.readByte s.pc.toNat) (s.readByte (s.pc.toNat + 1))) := by
  unfold fetch
  rw [ea_inside _ _ (by omega), ea_inside _ _ h]

/-- When a fetch faults: `ADDR_OOR = FAULT` and the lower of the two addresses past 0xFFF (60_exceptions.md R138). -/
theorem fetch_error (s : State) (a : Nat) (h : fetch s = .error a) :
    s.cfg.addrOor = .fault ∧ 0xFFF < s.pc.toNat + 1 ∧ a = max s.pc.toNat 0x1000 := by
  unfold fetch at h
  split at h
  · rename_i b hb
    cases h
    obtain ⟨h1, h2, h3⟩ := ea_error _ _ _ hb
    exact ⟨h3, by omega, by omega⟩
  · rename_i b hb
    split at h
    · rename_i e he
      cases h
      obtain ⟨h1, h2, h3⟩ := ea_error _ _ _ he
      have : s.pc.toNat ≤ 0xFFF := by
        unfold ea at hb; simp only [h3] at hb
        split at hb
        · assumption
        · cases hb
      exact ⟨h3, by omega, by omega⟩
    · cases h

/-- Splitting a word into its bytes and joining them gives it back (20_memory.md R44). -/
theorem joinBytes_split (w : Word) : joinBytes (highByte w) (lowByte w) = w := by
  unfold joinBytes highByte lowByte
  ext i hi
  simp only [BitVec.getElem_append, BitVec.getElem_extractLsb', Nat.zero_add]
  split
  · exact BitVec.getLsbD_eq_getElem hi
  · rw [show 8 + (i - 8) = i by omega]; exact BitVec.getLsbD_eq_getElem hi

end Sys2Proof.Machine
end

