-- ==== Sys2Proof/Laws/Decode.lean ====
section
/-! SUPPORT. Sys2Proof/Laws/Decode.lean: the fields of R55 read from a word put together from its fields, for each
format of 30_encoding.md R56, and the first tests of `Decode` (R60). -/

namespace Sys2Proof

/-! ## Format FA: `o`, `nnn` -/

@[simp] theorem fieldO_addr (o : Nibble) (nnn : Addr12) : fieldO (o ++ nnn) = o := by
  unfold fieldO; ext i hi
  simp only [BitVec.getElem_extractLsb', BitVec.getLsbD_append]
  rw [if_neg (by omega), show 12 + i - 12 = i by omega]; exact BitVec.getLsbD_eq_getElem hi

@[simp] theorem fieldNNN_addr (o : Nibble) (nnn : Addr12) : fieldNNN (o ++ nnn) = nnn := by
  unfold fieldNNN; ext i hi
  simp only [BitVec.getElem_extractLsb', BitVec.getLsbD_append]
  rw [if_pos (by omega), show 0 + i = i by omega]; exact BitVec.getLsbD_eq_getElem hi

/-! ## Formats FXK and FX: `o`, `x`, `kk` -/

@[simp] theorem fieldO_xkk (o x : Nibble) (kk : Byte) : fieldO (o ++ x ++ kk) = o := by
  unfold fieldO; ext i hi
  simp only [BitVec.getElem_extractLsb', BitVec.getLsbD_append]
  rw [if_neg (by omega), if_neg (by omega), show 12 + i - 8 - 4 = i by omega]; exact BitVec.getLsbD_eq_getElem hi

@[simp] theorem fieldX_xkk (o x : Nibble) (kk : Byte) : fieldX (o ++ x ++ kk) = x := by
  unfold fieldX; ext i hi
  simp only [BitVec.getElem_extractLsb', BitVec.getLsbD_append]
  rw [if_neg (by omega), if_pos (by omega), show 8 + i - 8 = i by omega]; exact BitVec.getLsbD_eq_getElem hi

@[simp] theorem fieldKK_xkk (o x : Nibble) (kk : Byte) : fieldKK (o ++ x ++ kk) = kk := by
  unfold fieldKK; ext i hi
  simp only [BitVec.getElem_extractLsb', BitVec.getLsbD_append]
  rw [if_pos (by omega), show 0 + i = i by omega]; exact BitVec.getLsbD_eq_getElem hi

/-! ## Formats FXY and FXYN: `o`, `x`, `y`, `n` -/

@[simp] theorem fieldO_xyn (o x y n : Nibble) : fieldO (o ++ x ++ y ++ n) = o := by
  unfold fieldO; ext i hi
  simp only [BitVec.getElem_extractLsb', BitVec.getLsbD_append]
  rw [if_neg (by omega), if_neg (by omega), if_neg (by omega), show 12 + i - 4 - 4 - 4 = i by omega]
  exact BitVec.getLsbD_eq_getElem hi

@[simp] theorem fieldX_xyn (o x y n : Nibble) : fieldX (o ++ x ++ y ++ n) = x := by
  unfold fieldX; ext i hi
  simp only [BitVec.getElem_extractLsb', BitVec.getLsbD_append]
  rw [if_neg (by omega), if_neg (by omega), if_pos (by omega), show 8 + i - 4 - 4 = i by omega]
  exact BitVec.getLsbD_eq_getElem hi

@[simp] theorem fieldY_xyn (o x y n : Nibble) : fieldY (o ++ x ++ y ++ n) = y := by
  unfold fieldY; ext i hi
  simp only [BitVec.getElem_extractLsb', BitVec.getLsbD_append]
  rw [if_neg (by omega), if_pos (by omega), show 4 + i - 4 = i by omega]
  exact BitVec.getLsbD_eq_getElem hi

@[simp] theorem fieldN_xyn (o x y n : Nibble) : fieldN (o ++ x ++ y ++ n) = n := by
  unfold fieldN; ext i hi
  simp only [BitVec.getElem_extractLsb', BitVec.getLsbD_append]
  rw [if_pos (by omega), show 0 + i = i by omega]
  exact BitVec.getLsbD_eq_getElem hi

/-! ## A word is put together from its fields -/

theorem word_eq_addr (op : Word) : op = fieldO op ++ fieldNNN op := by
  apply BitVec.eq_of_getLsbD_eq; intro i hi
  simp only [fieldO, fieldNNN, BitVec.getLsbD_append, BitVec.getLsbD_extractLsb']
  split
  · rw [decide_eq_true (by omega), show 0 + i = i by omega]; rfl
  · rw [decide_eq_true (by omega), show 12 + (i - 12) = i by omega]; rfl

theorem word_eq_xkk (op : Word) : op = fieldO op ++ fieldX op ++ fieldKK op := by
  apply BitVec.eq_of_getLsbD_eq; intro i hi
  simp only [fieldO, fieldX, fieldKK, BitVec.getLsbD_append, BitVec.getLsbD_extractLsb']
  split
  · rw [decide_eq_true (by omega), show 0 + i = i by omega]; rfl
  · split
    · rw [decide_eq_true (by omega), show 8 + (i - 8) = i by omega]; rfl
    · rw [decide_eq_true (by omega), show 12 + (i - 8 - 4) = i by omega]; rfl

theorem word_eq_xyn (op : Word) : op = fieldO op ++ fieldX op ++ fieldY op ++ fieldN op := by
  apply BitVec.eq_of_getLsbD_eq; intro i hi
  simp only [fieldO, fieldX, fieldY, fieldN, BitVec.getLsbD_append, BitVec.getLsbD_extractLsb']
  split
  · rw [decide_eq_true (by omega), show 0 + i = i by omega]; rfl
  · split
    · rw [decide_eq_true (by omega), show 4 + (i - 4) = i by omega]; rfl
    · split
      · rw [decide_eq_true (by omega), show 8 + (i - 4 - 4) = i by omega]; rfl
      · rw [decide_eq_true (by omega), show 12 + (i - 4 - 4 - 4) = i by omega]; rfl

/-! ## The order of the tests (R60) -/

/-- A word whose leading nibble is not 0 is neither `CLS` nor `RET` (R60). -/
theorem decode_of_nibble (pol : SysPolicy) (op : Word) (h : fieldO op ≠ 0x0#4) :
    decode pol op = decodeByNibble pol op := by
  unfold decode
  rw [if_neg, if_neg]
  · rintro rfl; exact h (by decide)
  · rintro rfl; exact h (by decide)

/-- A `0nnn` word that is neither `CLS` nor `RET` is decoded by the policy (R60). -/
theorem decode_zero (pol : SysPolicy) (nnn : Addr12) (h : sysOperandOk nnn = true) :
    decode pol (0x0#4 ++ nnn) = decodeZero pol (0x0#4 ++ nnn) := by
  have hn : ∀ k : Addr12, (0x0#4 ++ nnn : Word) = 0x0#4 ++ k → nnn = k := fun k hk => by
    have := congrArg fieldNNN hk
    simpa using this
  simp only [sysOperandOk, Bool.and_eq_true, bne_iff_ne, ne_eq] at h
  have h1 : ¬ (0x0#4 ++ nnn : Word) = 0x00E0#16 := fun he => h.1 (hn _ (he.trans (by decide)))
  have h2 : ¬ (0x0#4 ++ nnn : Word) = 0x00EE#16 := fun he => h.2 (hn _ (he.trans (by decide)))
  unfold decode
  rw [if_neg h1, if_neg h2]
  simp [decodeByNibble]

end Sys2Proof
end

