-- ==== Sys2Proof/Laws/Step.lean ====
section
/-! SUPPORT. Sys2Proof/Laws/Step.lean: what each instruction that can raise does (one inversion lemma each), what no
instruction touches, and what a Tick can do, so that later proofs unfold neither `exec` nor `tick`. -/

namespace Sys2Proof.Machine

/-! ## The instructions that can raise (60_exceptions.md R134) -/

theorem execRet_cases (s t : State) (h : execRet s = .next t) :
    (∃ hs : 0 < s.sp.val, t = popReturn s hs) ∨ (s.sp.val = 0 ∧ t = takeFatal (.stackUnderflow s.pc) s) := by
  unfold execRet at h
  split at h
  · cases h; exact .inl ⟨‹_›, rfl⟩
  · cases h; exact .inr ⟨by omega, rfl⟩

theorem execCall_cases (nnn : Addr12) (s t : State) (h : execCall nnn s = .next t) :
    (∃ hs : s.sp.val < 16, t = { pushReturn s (s.pc + 2#16) hs with pc := zextAddr nnn }) ∨
    (s.sp.val = 16 ∧ t = takeFatal (.stackOverflow s.pc) s) := by
  unfold execCall at h
  split at h
  · cases h; exact .inl ⟨‹_›, rfl⟩
  · cases h; exact .inr ⟨by omega, rfl⟩

/-- A failing block load is an address fault above 0xFFF under `ADDR_OOR = FAULT`. -/
theorem loadBlock_error (s : State) (base n : Nat) (e : FatalError) (h : loadBlock s base n = .error e) :
    ∃ a, e = .addressFault a s.pc ∧ eaRange s.cfg base n = .error a := by
  rcases loadBlock_cases s base n with ⟨as, _, hl⟩ | ⟨a, ha, hl⟩
  · rw [hl] at h; cases h
  · rw [hl] at h; cases h; exact ⟨a, rfl, ha⟩

theorem execDrw_cases (x y n : Nibble) (s t : State) (h : execDrw x y n s = .next t) :
    (∃ rows, loadBlock s s.i.toNat n.toNat = .ok rows ∧
      t = advance ({ s with display := (drawRows (s.reg x) (s.reg y) 0 rows (s.display, false)).1,
                            touched := true }.setReg vf
                    (flagByte (drawRows (s.reg x) (s.reg y) 0 rows (s.display, false)).2))) ∨
    (∃ e, loadBlock s s.i.toNat n.toNat = .error e ∧ t = takeFatal e s) := by
  unfold execDrw at h
  split at h
  · rename_i e he; cases h; exact .inr ⟨e, he, rfl⟩
  · rename_i rows he; cases h; exact .inl ⟨rows, he, rfl⟩

theorem execLdB_cases (x : Nibble) (s t : State) (h : execLdB x s = .next t) :
    (∃ m, storeBlock s s.i.toNat (bcdDigits (s.reg x)) = .ok m ∧ t = advance { s with mem := m }) ∨
    (∃ e, storeBlock s s.i.toNat (bcdDigits (s.reg x)) = .error e ∧ t = takeFatal e s) := by
  unfold execLdB at h
  split at h
  · rename_i e he; cases h; exact .inr ⟨e, he, rfl⟩
  · rename_i m he; cases h; exact .inl ⟨m, he, rfl⟩

theorem execStoreRegs_cases (x : Nibble) (s t : State) (h : execStoreRegs x s = .next t) :
    (∃ m, storeBlock s s.i.toNat (regBlock s.v x) = .ok m ∧
      t = advance { s with mem := m, i := blockIndex s.cfg s.i x }) ∨
    (∃ e, storeBlock s s.i.toNat (regBlock s.v x) = .error e ∧ t = takeFatal e s) := by
  unfold execStoreRegs at h
  split at h
  · rename_i e he; cases h; exact .inr ⟨e, he, rfl⟩
  · rename_i m he; cases h; exact .inl ⟨m, he, rfl⟩

theorem execLoadRegs_cases (x : Nibble) (s t : State) (h : execLoadRegs x s = .next t) :
    (∃ bs, loadBlock s s.i.toNat (x.toNat + 1) = .ok bs ∧
      t = advance { s with v := writeRegs s.v 0 bs, i := blockIndex s.cfg s.i x }) ∨
    (∃ e, loadBlock s s.i.toNat (x.toNat + 1) = .error e ∧ t = takeFatal e s) := by
  unfold execLoadRegs at h
  split at h
  · rename_i e he; cases h; exact .inr ⟨e, he, rfl⟩
  · rename_i bs he; cases h; exact .inl ⟨bs, he, rfl⟩

theorem execLdKey_cases (x : Nibble) (s t : State) (h : execLdKey x s = .next t) :
    (∃ k, s.cfg.keywaitSampleOnEntry = true ∧ lowestKey s.keys = some k ∧ t = completeWait x k s) ∨
    ((s.cfg.keywaitSampleOnEntry = false ∨ lowestKey s.keys = none) ∧ t = { s with mode := .awaitKey x }) := by
  unfold execLdKey at h
  split at h
  · rename_i k h1 h2; cases h; exact .inl ⟨k, h1, h2, rfl⟩
  · rename_i hno
    cases h
    refine .inr ⟨?_, rfl⟩
    cases hc : s.cfg.keywaitSampleOnEntry
    · exact .inl rfl
    · cases hk : lowestKey s.keys
      · exact .inr rfl
      · exact absurd hk (hno _ hc)

/-! ## Every instruction -/

/-- Every instruction answers a next state in every state: a fatal error is one too (40_cycle_and_host.md R67). -/
theorem exec_answers (i : Instr) (s : State) : ∃ t, exec i s = .next t := by
  cases i <;> simp only [exec] <;> first | exact ⟨_, rfl⟩ | skip
  case ret => unfold execRet; split <;> exact ⟨_, rfl⟩
  case call => unfold execCall; split <;> exact ⟨_, rfl⟩
  case drw => unfold execDrw; split <;> exact ⟨_, rfl⟩
  case ldKey => unfold execLdKey; split <;> exact ⟨_, rfl⟩
  case ldB => unfold execLdB; split <;> exact ⟨_, rfl⟩
  case storeRegs => unfold execStoreRegs; split <;> exact ⟨_, rfl⟩
  case loadRegs => unfold execLoadRegs; split <;> exact ⟨_, rfl⟩

/-- What no instruction writes: the parameters, the keypad, `Loaded`, the Tick's input and its counter
(40_cycle_and_host.md R66). -/
theorem exec_keeps (i : Instr) (s t : State) (h : exec i s = .next t) :
    t.cfg = s.cfg ∧ t.keys = s.keys ∧ t.loaded = s.loaded ∧ t.rnd = s.rnd ∧ t.rndIndex = s.rndIndex := by
  cases i <;> simp only [exec] at h
  case ret => rcases execRet_cases _ _ h with ⟨_, rfl⟩ | ⟨_, rfl⟩ <;> simp
  case call => rcases execCall_cases _ _ _ h with ⟨_, rfl⟩ | ⟨_, rfl⟩ <;> simp
  case drw => rcases execDrw_cases _ _ _ _ _ h with ⟨_, _, rfl⟩ | ⟨_, _, rfl⟩ <;> simp
  case ldKey => rcases execLdKey_cases _ _ _ h with ⟨_, _, _, rfl⟩ | ⟨_, rfl⟩ <;> simp
  case ldB => rcases execLdB_cases _ _ _ h with ⟨_, _, rfl⟩ | ⟨_, _, rfl⟩ <;> simp
  case storeRegs => rcases execStoreRegs_cases _ _ _ h with ⟨_, _, rfl⟩ | ⟨_, _, rfl⟩ <;> simp
  case loadRegs => rcases execLoadRegs_cases _ _ _ h with ⟨_, _, rfl⟩ | ⟨_, _, rfl⟩ <;> simp
  all_goals (cases h; simp)

/-! ## A Tick -/

/-- Everything a Tick of a loaded core can do (40_cycle_and_host.md R69). -/
theorem tick_cases (rnd : Byte) (s t : State) (h : tick rnd s = .next t) :
    s.loaded = true ∧
    ((∃ e, s.mode = .halted e ∧ t = { s with tickResult := .halted e }) ∨
     (∃ r, s.mode = .awaitKey r ∧ t = endTick (awaitStep r (beginTick rnd s))) ∨
     (s.mode = .running ∧
       ((∃ a, fetch s = .error a ∧ t = endTick (takeFatal (.addressFault a s.pc) (beginTick rnd s))) ∨
        (∃ op e, fetch s = .ok op ∧ decode s.cfg.sysPolicy op = .error e ∧
          t = endTick (skipUnknown op (beginTick rnd s))) ∨
        (∃ op i u, fetch s = .ok op ∧ decode s.cfg.sysPolicy op = .ok i ∧
          exec i (beginTick rnd s) = .next u ∧ t = endTick u)))) := by
  unfold tick at h
  split at h
  · rename_i hl
    refine ⟨hl, ?_⟩
    split at h
    · rename_i e hm; cases h; exact .inl ⟨e, hm, rfl⟩
    · rename_i r hm; cases h; exact .inr (.inl ⟨r, hm, rfl⟩)
    · rename_i hm
      refine .inr (.inr ⟨hm, ?_⟩)
      have hf : fetch (beginTick rnd s) = fetch s := rfl
      unfold runInstr at h
      rw [hf] at h
      split at h
      · rename_i a ha; cases h; exact .inl ⟨a, ha, rfl⟩
      · rename_i op hop
        simp only [beginTick_cfg] at h
        split at h
        · rename_i e he; cases h; exact .inr (.inl ⟨op, e, hop, he, rfl⟩)
        · rename_i i hi
          obtain ⟨u, hu⟩ := exec_answers i (beginTick rnd s)
          rw [hu] at h; cases h
          exact .inr (.inr ⟨op, i, u, hop, hi, hu, rfl⟩)
  · cases h

/-- What the await step can do (40_cycle_and_host.md R73). -/
theorem awaitStep_cases (r : Nibble) (s : State) :
    (∃ k, lowestKey s.keys = some k ∧ awaitStep r s = completeWait r k s) ∨
    (lowestKey s.keys = none ∧ awaitStep r s = s) := by
  unfold awaitStep
  split
  · rename_i k hk; exact .inl ⟨k, hk, rfl⟩
  · rename_i hk; exact .inr ⟨hk, rfl⟩

/-- Which instruction the next Tick executes is what the fetched word decodes as (40_cycle_and_host.md R69). -/
theorem executes_iff (s : State) (op : Word) (i : Instr) (hl : s.loaded = true) (hm : s.mode = .running)
    (hf : fetch s = .ok op) : s.Executes i ↔ decode s.cfg.sysPolicy op = .ok i := by
  constructor
  · rintro ⟨_, _, op', hf', hd⟩
    rw [hf] at hf'; cases hf'; exact hd
  · exact fun hd => ⟨hl, hm, op, hf, hd⟩

end Sys2Proof.Machine
end

