-- ==== Sys2Proof/Laws/PerInstr.lean ====
section
/-! SUPPORT. Sys2Proof/Laws/PerInstr.lean: the per-instruction family OpcodeRow: the word of every instruction matches
the `match` and `mask` columns of its row (30_encoding.md R59). -/

namespace Sys2Proof.Laws.OpcodeRow

/-- `op & mask = match` for the word of `i` and its row of R59. -/
def Statement (i : Instr) : Prop := encode i &&& (opcodeRow i).2 = (opcodeRow i).1

theorem nibble_and_ones (o : Nibble) : o &&& 0xF#4 = o := by revert o; decide

theorem byte_and_ones (b : Byte) : b &&& 0xFF#8 = b := BitVec.and_allOnes

/-- Mask `F000` on the format FA (R56). -/
theorem mask_addr (o : Nibble) (nnn : Addr12) : (o ++ nnn : Word) &&& 0xF000#16 = o ++ 0x000#12 := by
  rw [show (0xF000#16 : Word) = 0xF#4 ++ 0x000#12 from rfl, BitVec.and_append, nibble_and_ones, BitVec.and_zero]

/-- Mask `F000` on the format FXK (R56). -/
theorem mask_xkk (o x : Nibble) (kk : Byte) : (o ++ x ++ kk : Word) &&& 0xF000#16 = o ++ 0x0#4 ++ 0x00#8 := by
  rw [show (0xF000#16 : Word) = 0xF#4 ++ 0x0#4 ++ 0x00#8 from rfl, BitVec.and_append, BitVec.and_append,
    nibble_and_ones, BitVec.and_zero, BitVec.and_zero]

/-- Mask `F0FF` on the format FX (R56). -/
theorem mask_x (o x : Nibble) (kk : Byte) : (o ++ x ++ kk : Word) &&& 0xF0FF#16 = o ++ 0x0#4 ++ kk := by
  rw [show (0xF0FF#16 : Word) = 0xF#4 ++ 0x0#4 ++ 0xFF#8 from rfl, BitVec.and_append, BitVec.and_append,
    nibble_and_ones, BitVec.and_zero, byte_and_ones]

/-- Mask `F00F` on the format FXY (R56). -/
theorem mask_xy (o x y n : Nibble) :
    (o ++ x ++ y ++ n : Word) &&& 0xF00F#16 = o ++ 0x0#4 ++ 0x0#4 ++ n := by
  rw [show (0xF00F#16 : Word) = 0xF#4 ++ 0x0#4 ++ 0x0#4 ++ 0xF#4 from rfl, BitVec.and_append, BitVec.and_append,
    BitVec.and_append, nibble_and_ones, nibble_and_ones, BitVec.and_zero, BitVec.and_zero]

/-- Mask `F000` on the format FXYN (R56). -/
theorem mask_xyn (o x y n : Nibble) :
    (o ++ x ++ y ++ n : Word) &&& 0xF000#16 = o ++ 0x0#4 ++ 0x0#4 ++ 0x0#4 := by
  rw [show (0xF000#16 : Word) = 0xF#4 ++ 0x0#4 ++ 0x0#4 ++ 0x0#4 from rfl, BitVec.and_append, BitVec.and_append,
    BitVec.and_append, nibble_and_ones, BitVec.and_zero, BitVec.and_zero, BitVec.and_zero]

theorem sys (nnn : Addr12) : Statement (.sys nnn) := mask_addr _ nnn

theorem cls : Statement (.cls) := rfl

theorem ret : Statement (.ret) := rfl

theorem jp (nnn : Addr12) : Statement (.jp nnn) := mask_addr _ nnn

theorem call (nnn : Addr12) : Statement (.call nnn) := mask_addr _ nnn

theorem seImm (x : Nibble) (kk : Byte) : Statement (.seImm x kk) := mask_xkk _ x kk

theorem sneImm (x : Nibble) (kk : Byte) : Statement (.sneImm x kk) := mask_xkk _ x kk

theorem seReg (x y : Nibble) : Statement (.seReg x y) := mask_xy _ x y _

theorem sneReg (x y : Nibble) : Statement (.sneReg x y) := mask_xy _ x y _

theorem ldImm (x : Nibble) (kk : Byte) : Statement (.ldImm x kk) := mask_xkk _ x kk

theorem addImm (x : Nibble) (kk : Byte) : Statement (.addImm x kk) := mask_xkk _ x kk

theorem ldReg (x y : Nibble) : Statement (.ldReg x y) := mask_xy _ x y _

theorem ldI (nnn : Addr12) : Statement (.ldI nnn) := mask_addr _ nnn

theorem jpV0 (nnn : Addr12) : Statement (.jpV0 nnn) := mask_addr _ nnn

theorem orReg (x y : Nibble) : Statement (.orReg x y) := mask_xy _ x y _

theorem andReg (x y : Nibble) : Statement (.andReg x y) := mask_xy _ x y _

theorem xorReg (x y : Nibble) : Statement (.xorReg x y) := mask_xy _ x y _

theorem addReg (x y : Nibble) : Statement (.addReg x y) := mask_xy _ x y _

theorem sub (x y : Nibble) : Statement (.sub x y) := mask_xy _ x y _

theorem shr (x y : Nibble) : Statement (.shr x y) := mask_xy _ x y _

theorem subn (x y : Nibble) : Statement (.subn x y) := mask_xy _ x y _

theorem shl (x y : Nibble) : Statement (.shl x y) := mask_xy _ x y _

theorem rnd (x : Nibble) (kk : Byte) : Statement (.rnd x kk) := mask_xkk _ x kk

theorem drw (x y n : Nibble) : Statement (.drw x y n) := mask_xyn _ x y n

theorem skp (x : Nibble) : Statement (.skp x) := mask_x _ x _

theorem sknp (x : Nibble) : Statement (.sknp x) := mask_x _ x _

theorem ldKey (x : Nibble) : Statement (.ldKey x) := mask_x _ x _

theorem ldFromDt (x : Nibble) : Statement (.ldFromDt x) := mask_x _ x _

theorem ldDt (x : Nibble) : Statement (.ldDt x) := mask_x _ x _

theorem ldSt (x : Nibble) : Statement (.ldSt x) := mask_x _ x _

theorem addI (x : Nibble) : Statement (.addI x) := mask_x _ x _

theorem ldF (x : Nibble) : Statement (.ldF x) := mask_x _ x _

theorem ldB (x : Nibble) : Statement (.ldB x) := mask_x _ x _

theorem storeRegs (x : Nibble) : Statement (.storeRegs x) := mask_x _ x _

theorem loadRegs (x : Nibble) : Statement (.loadRegs x) := mask_x _ x _

end Sys2Proof.Laws.OpcodeRow
end

