-- ==== Sys2Proof/Tests/Slice0.lean ====
section
/-! SUPPORT. Sys2Proof/Tests/Slice0.lean: the smoke tests of well-formedness, a word written out for every instruction,
one-step tests whose expected results are rows of spec/95_test_vectors.md (each test names its row), and a witness for
the hypotheses of each statement that has some. -/

namespace Sys2Proof.Tests

open Sys2Proof.Machine

/-! ## Well-formedness -/

theorem test_wf_refuses_sys_00E0 : (Instr.sys 0x0E0#12).wellFormed = false := by decide
theorem test_wf_refuses_sys_00EE : (Instr.sys 0x0EE#12).wellFormed = false := by decide
theorem test_wf_accepts_sys : (Instr.sys 0x0EF#12).wellFormed = true := by decide
theorem test_wf_refuses_sys_under_unknown : (Instr.sys 0x123#12).validUnder .unknown = false := by decide
theorem test_wf_spec_parameters : Config.spec.WellFormed := by decide
theorem test_wf_refuses_font_over_program : ¬ { Config.spec with fontBase := 0x1B1 }.WellFormed := by decide
theorem test_wf_refuses_short_font : ¬ { Config.spec with fontData := [0xF0] }.WellFormed := by decide

/-! ## One written-out word for every instruction (30_encoding.md R59), leading nibble first -/

theorem test_decode_control :
    decode .nop 0b0000000100100011#16 = .ok (.sys 0x123#12) ∧ decode .nop 0b0000000011100000#16 = .ok .cls ∧
    decode .nop 0b0000000011101110#16 = .ok .ret ∧ decode .nop 0b0001001000001000#16 = .ok (.jp 0x208#12) ∧
    decode .nop 0b0010001100000000#16 = .ok (.call 0x300#12) := by decide

theorem test_decode_skip :
    decode .nop 0b0011001100101010#16 = .ok (.seImm 3#4 0x2A#8) ∧
    decode .nop 0b0100001100101010#16 = .ok (.sneImm 3#4 0x2A#8) ∧
    decode .nop 0b0101000100100000#16 = .ok (.seReg 1#4 2#4) ∧
    decode .nop 0b1001000100100000#16 = .ok (.sneReg 1#4 2#4) := by decide

theorem test_decode_load :
    decode .nop 0b0110111110101010#16 = .ok (.ldImm 0xF#4 0xAA#8) ∧
    decode .nop 0b0111001000000001#16 = .ok (.addImm 2#4 0x01#8) ∧
    decode .nop 0b1000000100100000#16 = .ok (.ldReg 1#4 2#4) ∧
    decode .nop 0b1010001000010000#16 = .ok (.ldI 0x210#12) ∧
    decode .nop 0b1011001100000000#16 = .ok (.jpV0 0x300#12) := by decide

theorem test_decode_arithmetic :
    decode .nop 0b1000000100100001#16 = .ok (.orReg 1#4 2#4) ∧
    decode .nop 0b1000000100100010#16 = .ok (.andReg 1#4 2#4) ∧
    decode .nop 0b1000000100100011#16 = .ok (.xorReg 1#4 2#4) ∧
    decode .nop 0b1000000100100100#16 = .ok (.addReg 1#4 2#4) ∧
    decode .nop 0b1000000100100101#16 = .ok (.sub 1#4 2#4) ∧
    decode .nop 0b1000000100100110#16 = .ok (.shr 1#4 2#4) ∧
    decode .nop 0b1000000100100111#16 = .ok (.subn 1#4 2#4) ∧
    decode .nop 0b1000000100101110#16 = .ok (.shl 1#4 2#4) := by decide

theorem test_decode_random_draw :
    decode .nop 0b1100001100001111#16 = .ok (.rnd 3#4 0x0F#8) ∧
    decode .nop 0b1101000100100101#16 = .ok (.drw 1#4 2#4 5#4) := by decide

theorem test_decode_input_timer :
    decode .nop 0b1110010010011110#16 = .ok (.skp 4#4) ∧ decode .nop 0b1110010010100001#16 = .ok (.sknp 4#4) ∧
    decode .nop 0b1111001000001010#16 = .ok (.ldKey 2#4) ∧ decode .nop 0b1111010100000111#16 = .ok (.ldFromDt 5#4) ∧
    decode .nop 0b1111001100010101#16 = .ok (.ldDt 3#4) ∧ decode .nop 0b1111001100011000#16 = .ok (.ldSt 3#4) := by
  decide

theorem test_decode_memory :
    decode .nop 0b1111000100011110#16 = .ok (.addI 1#4) ∧ decode .nop 0b1111001000101001#16 = .ok (.ldF 2#4) ∧
    decode .nop 0b1111001100110011#16 = .ok (.ldB 3#4) ∧ decode .nop 0b1111001001010101#16 = .ok (.storeRegs 2#4) ∧
    decode .nop 0b1111001001100101#16 = .ok (.loadRegs 2#4) := by decide

/-- E6, E7, E9, E14, E15, E17, E19, and a `0nnn` word under `UNKNOWN` (E1). -/
theorem test_decode_rejects :
    decode .nop 0x5121#16 = .error (.unknown 0x5121#16) ∧ decode .nop 0x8008#16 = .error (.unknown 0x8008#16) ∧
    decode .nop 0x800F#16 = .error (.unknown 0x800F#16) ∧ decode .nop 0xE09F#16 = .error (.unknown 0xE09F#16) ∧
    decode .nop 0xF00B#16 = .error (.unknown 0xF00B#16) ∧ decode .nop 0xFFFF#16 = .error (.unknown 0xFFFF#16) ∧
    decode .nop 0xF075#16 = .error (.unknown 0xF075#16) ∧
    decode .unknown 0x0000#16 = .error (.unknown 0x0000#16) := by decide

/-- The byte at the lower address is bits 15..8 (20_memory.md R44); one byte is no instruction. -/
theorem test_decode_bytes :
    decodeBytes .nop [0x12#8, 0x08#8, 0xFF#8] = .ok (.jp 0x208#12, [0xFF#8]) ∧
    decodeBytes .nop [0x12#8] = .error .truncated := by decide

theorem test_decode_table_word :
    decodeTableWord 16 0xF165 = some (.loadRegs 1#4) ∧ decodeTableWord 16 0x5121 = none := by decide

/-! ## Small states -/

/-- The reset state with one instruction word placed at `PC = 0x200`. -/
def placed (w : Nat) : State := State.reset.withFetchWord 16 w

/-- The same under other parameters. -/
def placedWith (c : Config) (w : Nat) : State := (State.resetWith c).withFetchWord 16 w

/-- The state an outcome goes on in; the core as constructed where it stops. -/
def after : Host.Outcome State Fault Refusal → State
  | .next t => t
  | _ => State.constructed

/-- One byte stored directly in memory. -/
def poke (s : State) (a : Nat) (b : Byte) : State := { s with mem := memSet s.cfg s.mem a b }

/-- A key set by the host. -/
def press (k : Int) (s : State) : State := (setKeyState k true s).2

/-- The result a Tick recorded. -/
def resultOf (o : Host.Outcome State Fault Refusal) : Result := (after o).tickResult

/-! ## Control (95_test_vectors.md C1 to C11) -/

theorem test_C1_sys : (after (step (placed 0x0123))).pc = 0x202#16 ∧ resultOf (step (placed 0x0123)) = .ok := by decide

theorem test_C2_cls :
    let t := after (step { placed 0x00E0 with display := Vector.replicate 256 0xFF#8 })
    t.display[0] = 0 ∧ t.display[255] = 0 ∧ t.pc = 0x202#16 ∧ t.dirty = true := by decide

theorem test_C4_ret :
    let s := placed 0x00EE
    let t := after (step { s with sp := 1, stack := s.stack.set 0 0x302#16 })
    t.sp = 0 ∧ t.pc = 0x302#16 ∧ t.stack[0] = 0x302#16 := by decide

theorem test_C5_ret_underflow :
    let t := after (step { placed 0x00EE with dt := 5 })
    t.mode = .halted (.stackUnderflow 0x200#16) ∧ t.pc = 0x200#16 ∧ t.dt = 5 ∧ t.dirty = false ∧
      t.tickResult = .fatal (.stackUnderflow 0x200#16) := by decide

theorem test_C6_halted :
    let s := { placed 0x00EE with mode := .halted (.stackUnderflow 0x200#16), dt := 5 }
    step s = .next { s with rndIndex := 1, tickResult := .halted (.stackUnderflow 0x200#16) } := rfl

theorem test_C8_jp_to_itself :
    let t := after (step { placed 0x1200 with dt := 3 })
    t.pc = 0x200#16 ∧ t.dt = 2 := by decide

theorem test_C10_call_at_depth_15 :
    let t := after (step { placed 0x2300 with sp := 15 })
    t.stack[15] = 0x202#16 ∧ t.sp = 16 ∧ t.pc = 0x300#16 := by decide

theorem test_C11_call_overflow :
    let t := after (step { placed 0x2300 with sp := 16 })
    t.mode = .halted (.stackOverflow 0x200#16) ∧ t.pc = 0x200#16 ∧ t.sp = 16 := by decide

/-! ## Skip (S1 to S11) -/

theorem test_S1_se_imm : (after (step ((placed 0x332A).setReg 3 0x2A))).pc = 0x204#16 := by decide
theorem test_S2_se_imm : (after (step ((placed 0x332A).setReg 3 0x2B))).pc = 0x202#16 := by decide
theorem test_S3_sne_imm : (after (step ((placed 0x432A).setReg 3 0x2A))).pc = 0x202#16 := by decide
theorem test_S4_sne_imm : (after (step ((placed 0x432A).setReg 3 0x00))).pc = 0x204#16 := by decide
theorem test_S5_se_reg : (after (step (((placed 0x5120).setReg 1 7).setReg 2 7))).pc = 0x204#16 := by decide
theorem test_S7_sne_reg : (after (step (((placed 0x9120).setReg 1 7).setReg 2 8))).pc = 0x204#16 := by decide
theorem test_S8_sne_reg : (after (step (placed 0x9110))).pc = 0x202#16 := by decide

/-! ## Load (L2 to L11) -/

theorem test_L2_ld_imm : (after (step (placed 0x6FAA))).reg vf = 0xAA := by decide

theorem test_L3_add_imm_no_flag :
    let t := after (step (((placed 0x7201).setReg 2 0xFF).setReg vf 0x07))
    t.reg 2 = 0x00 ∧ t.reg vf = 0x07 := by decide

theorem test_L5_add_imm_vf : (after (step ((placed 0x7F01).setReg vf 0xFF))).reg vf = 0x00 := by decide
theorem test_L6_ld_reg : (after (step ((placed 0x8120).setReg 2 0x33))).reg 1 = 0x33 := by decide
theorem test_L8_ld_i : (after (step (placed 0xAFFF))).i = 0x0FFF#16 := by decide
theorem test_L10_jp_v0 : (after (step ((placed 0xBFFF).setReg 0 0xFF))).pc = 0x10FE#16 := by decide

theorem test_L10_next_tick :
    resultOf (step { placed 0 with pc := 0x10FE#16 }) = .fatal (.addressFault 0x10FE 0x10FE#16) := by decide

theorem test_L11_jp_v0_not_vx :
    (after (step (((placed 0xB500).setReg 0 0x01).setReg 5 0x50))).pc = 0x501#16 := by decide

/-! ## Arithmetic (A1 to A26) -/

theorem test_A1_or :
    let t := after (step ((((placed 0x8121).setReg 1 0x0C).setReg 2 0x0A).setReg vf 1))
    t.reg 1 = 0x0E ∧ t.reg vf = 0 := by decide

theorem test_A2_or_keep :
    let s := placedWith { Config.spec with logicVf := .keep } 0x8121
    let t := after (step (((s.setReg 1 0x0C).setReg 2 0x0A).setReg vf 1))
    t.reg 1 = 0x0E ∧ t.reg vf = 1 := by decide

theorem test_A3_and : (after (step (((placed 0x8122).setReg 1 0x0C).setReg 2 0x0A))).reg 1 = 0x08 := by decide
theorem test_A4_xor : (after (step (((placed 0x8123).setReg 1 0x0C).setReg 2 0x0A))).reg 1 = 0x06 := by decide

theorem test_A6_add :
    let t := after (step (((placed 0x8124).setReg 1 0xFF).setReg 2 0x01))
    t.reg 1 = 0x00 ∧ t.reg vf = 1 := by decide

theorem test_A11_add_vf : (after (step (((placed 0x8F14).setReg 1 0xF0).setReg vf 0x20))).reg vf = 0x01 := by decide

theorem test_A14_sub :
    let t := after (step (((placed 0x8125).setReg 1 3).setReg 2 5))
    t.reg 1 = 0xFE ∧ t.reg vf = 0 := by decide

theorem test_A15_sub_equal :
    let t := after (step (((placed 0x8125).setReg 1 7).setReg 2 7))
    t.reg 1 = 0 ∧ t.reg vf = 1 := by decide

theorem test_A17_subn :
    let t := after (step (((placed 0x8127).setReg 1 3).setReg 2 5))
    t.reg 1 = 2 ∧ t.reg vf = 1 := by decide

theorem test_A18_subn :
    let t := after (step (((placed 0x8127).setReg 1 5).setReg 2 3))
    t.reg 1 = 0xFE ∧ t.reg vf = 0 := by decide

theorem test_A20_shr :
    let t := after (step (((placed 0x8126).setReg 1 0xAA).setReg 2 0x05))
    t.reg 1 = 0x02 ∧ t.reg vf = 1 := by decide

theorem test_A21_shr_vx :
    let s := placedWith { Config.spec with shiftSource := .vx } 0x8126
    let t := after (step ((s.setReg 1 0xAA).setReg 2 0x05))
    t.reg 1 = 0x55 ∧ t.reg vf = 0 := by decide

theorem test_A23_shl :
    let t := after (step ((placed 0x812E).setReg 2 0x81))
    t.reg 1 = 0x02 ∧ t.reg vf = 1 := by decide

theorem test_A24_shl :
    let t := after (step ((placed 0x812E).setReg 2 0x40))
    t.reg 1 = 0x80 ∧ t.reg vf = 0 := by decide

/-! ## Random (N1, N4): the Tick's byte is its input -/

theorem test_N1_rnd : (after (tick 0xB7 (placed 0xC30F))).reg 3 = 0x07 := by decide
theorem test_N4_rnd : (after (tick 0xFF (placed 0xCFF0))).reg vf = 0xF0 := by decide

/-! ## Draw (D3 to D13) -/

/-- D7: the sprite wraps from the right edge to the left edge of the same row. -/
theorem test_D7_drw_wraps :
    let t := after (step ((poke { placed 0xD011 with i := 0x300#16 } 0x300 0xFF).setReg 0 60))
    t.display[7] = 0x0F ∧ t.display[0] = 0xF0 ∧ t.reg vf = 0 ∧ t.dirty = true := by decide

/-- D5: a collision, and only the lit pixel is turned off. -/
theorem test_D5_drw_collision :
    let s := poke { placed 0xD011 with i := 0x300#16 } 0x300 0xC0
    let t := after (step { s with display := s.display.set 0 0x80#8 })
    t.display[0] = 0x40 ∧ t.reg vf = 1 := by decide

/-- D3: glyph 0 from the font. -/
theorem test_D3_drw_font :
    let t := after (step { placed 0xD015 with i := 0x050#16 })
    t.display[0] = 0xF0 ∧ t.display[8] = 0x90 ∧ t.display[24] = 0x90 ∧ t.display[32] = 0xF0 ∧ t.display[40] = 0 := by
  decide

set_option maxRecDepth 8000 in
/-- D8: rows 31 and 0. -/
theorem test_D8_drw_bottom :
    let s := poke (poke { placed 0xD012 with i := 0x300#16 } 0x300 0xFF) 0x301 0xFF
    let t := after (step (s.setReg 1 31))
    pix t.display 0 31 = true ∧ pix t.display 7 31 = true ∧ pix t.display 8 31 = false ∧ pix t.display 0 0 = true ∧
      t.display[0] = 0xFF ∧ t.reg vf = 0 := by decide

theorem test_D11_drw_past_memory :
    let t := after (step { placed 0xD014 with i := 0xFFE#16 })
    t.mode = .halted (.addressFault 0x1000 0x200#16) ∧ t.touched = false ∧ t.pc = 0x200#16 := by decide

/-- D12: under `WRAP` row 3 comes from `M[0x001]`. -/
theorem test_D12_drw_wrap :
    let s := { placedWith { Config.spec with addrOor := .wrap } 0xD014 with i := 0xFFE#16 }
    let t := after (step (poke (poke (poke (poke s 0xFFE 1) 0xFFF 2) 0x000 3) 0x001 4))
    t.display[0] = 1 ∧ t.display[8] = 2 ∧ t.display[16] = 3 ∧ t.display[24] = 4 := by decide

/-- D13: the column is `VF` as it was before the flag write. -/
theorem test_D13_drw_from_vf :
    let t := after (step ((poke { placed 0xDF11 with i := 0x300#16 } 0x300 0x80).setReg vf 8))
    t.display[1] = 0x80 ∧ t.reg vf = 0 := by decide

/-! ## Input (K1 to K13) -/

theorem test_K1_skp : (after (step (press 3 ((placed 0xE49E).setReg 4 3)))).pc = 0x204#16 := by decide
theorem test_K4_skp_low_nibble : (after (step (press 3 ((placed 0xE49E).setReg 4 0x13)))).pc = 0x204#16 := by decide
theorem test_K3_sknp : (after (step (press 3 ((placed 0xE4A1).setReg 4 3)))).pc = 0x202#16 := by decide

theorem test_K5_ld_key :
    let t := after (step (press 5 (placed 0xF10A)))
    t.mode = .awaitKey 1 ∧ t.pc = 0x200#16 ∧ t.reg 1 = 0 := by decide

theorem test_K7_ld_key_sampled :
    let t := after (step (press 5 (placedWith { Config.spec with keywaitSampleOnEntry := true } 0xF10A)))
    t.mode = .running ∧ t.pc = 0x202#16 ∧ t.reg 1 = 5 := by decide

theorem test_K8_lowest_key :
    let t := after (step (press 9 (press 5 { placed 0xF10A with mode := .awaitKey 1 })))
    t.mode = .running ∧ t.pc = 0x202#16 ∧ t.reg 1 = 5 := by decide

theorem test_K9_waiting_counts :
    let t := after (step { placed 0xF10A with mode := .awaitKey 1, dt := 3 })
    t.mode = .awaitKey 1 ∧ t.pc = 0x200#16 ∧ t.dt = 2 := by decide

theorem test_K11_invalid_key : setKeyState 16 true State.reset = (.invalidKeyIndex 16, State.reset) := rfl
theorem test_K12_invalid_key : setKeyState (-1) false State.reset = (.invalidKeyIndex (-1), State.reset) := rfl

/-! ## Timer (T1 to T9) -/

theorem test_T1_ld_from_dt :
    let t := after (step { placed 0xF507 with dt := 0x20 })
    t.reg 5 = 0x20 ∧ t.dt = 0x1F := by decide

theorem test_T2_ld_dt : (after (step ((placed 0xF315).setReg 3 10))).dt = 9 := by decide
theorem test_T4_ld_st : (after (step ((placed 0xF318).setReg 3 1))).st = 0 := by decide

theorem test_T5_ld_dt_separate :
    (after (step ((placedWith { Config.spec with timerMode := .separate } 0xF315).setReg 3 10))).dt = 10 := by decide

theorem test_T8_tick_timers :
    let s := { State.resetWith { Config.spec with timerMode := .separate } with dt := 2 }
    tickTimers s = .next (.ok, { s with dt := 1 }) := rfl

/-! ## Memory (M1 to M21) -/

theorem test_M2_add_i : (after (step (({ placed 0xF11E with i := 0xFFFF#16 }).setReg 1 2))).i = 0x0001#16 := by decide

theorem test_M1_add_i_no_flag :
    let t := after (step (({ placed 0xF11E with i := 0x0FFF#16 }).setReg 1 1))
    t.i = 0x1000#16 ∧ t.reg vf = 0 := by decide

theorem test_M4_ld_f : (after (step ((placed 0xF229).setReg 2 0x1A))).i = 0x082#16 := by decide

theorem test_M6_ld_b :
    let t := after (step (({ placed 0xF333 with i := 0x300#16 }).setReg 3 156))
    t.readByte 0x300 = 1 ∧ t.readByte 0x301 = 5 ∧ t.readByte 0x302 = 6 ∧ t.i = 0x300#16 := by decide

/-- M10: a store to the font is discarded and the instruction completes. -/
theorem test_M10_ld_b_font :
    let t := after (step (({ placed 0xF333 with i := 0x050#16 }).setReg 3 156))
    t.readByte 0x050 = 0xF0 ∧ t.readByte 0x051 = 0x90 ∧ t.tickResult = .ok ∧ t.pc = 0x202#16 := by decide

theorem test_M13_store_keep :
    let s := { placedWith { Config.spec with loadStoreI := .keep } 0xF255 with i := 0x300#16 }
    let t := after (step (((s.setReg 0 1).setReg 1 2).setReg 2 3))
    t.readByte 0x300 = 1 ∧ t.readByte 0x302 = 3 ∧ t.i = 0x300#16 := by decide

theorem test_M12_store_regs :
    let t := after (step (((({ placed 0xF255 with i := 0x300#16 }).setReg 0 1).setReg 1 2).setReg 2 3))
    t.readByte 0x300 = 1 ∧ t.readByte 0x301 = 2 ∧ t.readByte 0x302 = 3 ∧ t.i = 0x303#16 := by decide

/-- M17. -/
theorem test_M17_load_regs :
    let s := poke (poke (poke { placed 0xF265 with i := 0x300#16 } 0x300 1) 0x301 2) 0x302 3
    let t := after (step s)
    t.reg 0 = 1 ∧ t.reg 1 = 2 ∧ t.reg 2 = 3 ∧ t.reg 3 = 0 ∧ t.i = 0x303#16 := by decide

theorem test_M19_load_past_memory :
    resultOf (step { placed 0xF165 with i := 0xFFF#16 }) = .fatal (.addressFault 0x1000 0x200#16) := by decide

theorem test_M20_font_write :
    resultOf (step { placedWith { Config.spec with fontWrite := .fault } 0xF355 with i := 0x04E#16 }) =
      .fatal (.fontWrite 0x050 0x200#16) := by decide

theorem test_M21_address_check_first :
    resultOf (step { placedWith { Config.spec with fontWrite := .fault } 0xF355 with i := 0xFFE#16 }) =
      .fatal (.addressFault 0x1000 0x200#16) := by decide

/-! ## Cycle and host operations (H1 to H13) -/

theorem test_H1_unknown_word :
    let t := after (step { placed 0x5121 with dt := 5 })
    t.tickResult = .unknownOpcode 0x5121#16 0x200#16 ∧ t.pc = 0x202#16 ∧ t.dt = 4 ∧ t.mode = .running := by decide

theorem test_H2_fetch_past_memory :
    resultOf (step { placed 0 with pc := 0xFFF#16 }) = .fatal (.addressFault 0x1000 0xFFF#16) := by decide

/-- H3: under `WRAP` the second byte of the word comes from address 0. -/
theorem test_H3_fetch_wraps :
    let s := poke (poke (State.resetWith { Config.spec with addrOor := .wrap }) 0xFFF 0x6A) 0x000 0x77
    (after (step { s with pc := 0xFFF#16 })).reg 0xA = 0x77 := by decide

theorem test_H4_dirty_read : displayShouldUpdate { State.reset with dirty := true } = (true, State.reset) := rfl

theorem test_H6_sticky :
    (after (step { placedWith { Config.spec with dirtyMode := .sticky } 0x6000 with dirty := true })).dirty = true := by
  decide

theorem test_H8_too_large :
    loadProgram (List.replicate 3585 0#8) State.constructed = (.programTooLarge 3585, State.constructed) := by
  unfold loadProgram; rw [if_pos (by rw [List.length_replicate]; decide), List.length_replicate]

theorem test_H10_load_leaves_halted :
    let t := (loadProgram [0x12, 0x00] (press 1 { State.reset with mode := .halted (.stackUnderflow 0x300#16) })).2
    t.mode = .running ∧ t.pc = 0x200#16 ∧ t.key 1 = true ∧ t.readByte 0x200 = 0x12 ∧ t.readByte 0x201 = 0 := by decide

theorem test_H11_tick_before_load : step State.constructed = .fault .notLoaded := rfl

theorem test_H13_tick_timers_halted :
    let s := { State.resetWith { Config.spec with timerMode := .separate } with
      mode := .halted (.stackUnderflow 0x200#16), dt := 4 }
    tickTimers s = .next (.ok, s) := rfl

/-- 60_exceptions.md R134, the codes. -/
theorem test_result_codes :
    resultCode .ok = 0 ∧ resultCode (.unknownOpcode 0 0) = 1 ∧ resultCode (.fatal (.stackOverflow 0)) = 2 ∧
    resultCode (.fatal (.stackUnderflow 0)) = 3 ∧ resultCode (.fatal (.addressFault 0 0)) = 4 ∧
    resultCode (.fatal (.fontWrite 0 0)) = 5 ∧ resultCode (.halted (.stackOverflow 0)) = 6 ∧
    resultCode (.programTooLarge 0) = 7 ∧ resultCode (.invalidKeyIndex 0) = 8 := by decide

/-! ## Witnesses: concrete states and operands that meet the hypotheses of the statements -/

/-- A loaded core about to execute the word `w` at its reset `PC`. -/
theorem placed_executes (w : Nat) (i : Instr) (op : Word) (hf : fetch (placed w) = .ok op)
    (hd : decode Config.spec.sysPolicy op = .ok i) : (placed w).Executes i :=
  ⟨rfl, rfl, op, hf, hd⟩

theorem test_witness_DecodeInvertsEncode :
    (Instr.loadRegs 0xF#4).validUnder .unknown = true ∧ (Instr.sys 0xFFF#12).validUnder .nop = true := by decide

theorem test_witness_EncodeInvertsDecode :
    decode .nop 0x00EF#16 = .ok (.sys 0x0EF#12) ∧ decode .unknown 0x00EE#16 = .ok .ret := by decide

theorem test_witness_OpcodeRowsDoNotOverlap :
    let i := Instr.seReg 1#4 2#4
    let j := Instr.seReg 3#4 4#4
    0x5120#16 &&& (opcodeRow i).2 = (opcodeRow i).1 ∧ 0x5120#16 &&& (opcodeRow j).2 = (opcodeRow j).1 ∧
      (opcodeRow i).1 ≠ 0x0000#16 ∧ (opcodeRow j).1 ≠ 0x0000#16 := by decide

/-- The last word of memory, at 0xFFE. -/
theorem test_witness_StepRunsTheDecodedInstruction :
    let s := ({ State.reset with pc := 0xFFE#16 }).withFetchWord 16 0x1200
    s.loaded = true ∧ s.mode = .running ∧ ea s.cfg s.pc.toNat = .ok 0xFFE ∧ ea s.cfg (s.pc.toNat + 1) = .ok 0xFFF ∧
      decodeBytes s.cfg.sysPolicy [s.readByte 0xFFE, s.readByte 0xFFF] = .ok (.jp 0x200#12, []) := by decide

theorem test_witness_CompletingTickCountsTimersAndSetsDirty :
    (placed 0xD000).Executes (.drw 0#4 0#4 0#4) ∧
    ∃ t, exec (.drw 0#4 0#4 0#4) { placed 0xD000 with touched := false, tickResult := .ok, rnd := 7#8 } = .next t ∧
      ∀ e, t.mode ≠ .halted e :=
  ⟨placed_executes _ _ 0xD000#16 (by decide) (by decide), _, rfl, nofun⟩

/-- The clauses meet at 0xFFE and 0xFFF: a legal `PC`, one that wraps, and the two that fault. -/
theorem test_witness_FetchIsBigEndianAndChecksItsAddresses :
    ({ State.reset with pc := 0xFFE#16 }).pc.toNat ≤ 0xFFE ∧
    (State.resetWith { Config.spec with addrOor := .wrap }).cfg.addrOor = .wrap ∧
    (State.reset.cfg.addrOor = .fault ∧ 0xFFE < ({ State.reset with pc := 0xFFF#16 }).pc.toNat ∧
      0xFFF < ({ State.reset with pc := 0x1000#16 }).pc.toNat) := by decide

theorem test_witness_FetchFaultHaltsTheCore :
    let s := { State.reset with pc := 0xFFF#16 }
    s.loaded = true ∧ s.mode = .running ∧ s.cfg.addrOor = .fault ∧ 0xFFE < s.pc.toNat := by decide

theorem test_witness_UnknownWordIsSkippedAndReported :
    (placed 0x5121).loaded = true ∧ (placed 0x5121).mode = .running ∧ fetch (placed 0x5121) = .ok 0x5121#16 ∧
      decode (placed 0x5121).cfg.sysPolicy 0x5121#16 = .error (.unknown 0x5121#16) := by decide

theorem test_witness_AwaitKeyTickStoresTheLowestPressedKey :
    let s := { placed 0xF10A with mode := .awaitKey 1#4 }
    s.loaded = true ∧ s.mode = .awaitKey 1#4 ∧ (∀ k : Nibble, s.key k = false) ∧
      (press 15 s).key 15#4 = true ∧ (∀ j : Nibble, j.toNat < 15 → (press 15 s).key j = false) := by decide

theorem test_witness_TickIsTotalExactlyOnceLoaded :
    State.reset.loaded = true ∧ State.constructed.loaded = false ∧
      (∀ q, HostOp.getDisplay ≠ .tick q) ∧ HostOp.getDisplay ≠ .tickTimers := ⟨rfl, rfl, nofun, nofun⟩

theorem test_witness_OnlyRndDependsOnTheRandomByte : ∀ x kk, ¬ (placed 0x1200).Executes (.rnd x kk) := fun x kk h => by
  have h' := (executes_iff (placed 0x1200) 0x1200#16 _ rfl rfl (by decide)).mp h
  rw [show decode (placed 0x1200).cfg.sysPolicy 0x1200#16 = .ok (.jp 0x200#12) by decide] at h'
  cases h'

theorem test_witness_FatalErrorsArePrecise :
    (placed 0x00EE).mode = .running ∧
    ∃ t, exec .ret (placed 0x00EE) = .next t ∧ t.mode = .halted (.stackUnderflow 0x200#16) := ⟨rfl, _, rfl, rfl⟩

theorem test_witness_HaltingTickKeepsEverythingElse :
    (placed 0x00EE).mode = .running ∧
    ∃ t, tick 0#8 (placed 0x00EE) = .next t ∧ t.mode = .halted (.stackUnderflow 0x200#16) := ⟨rfl, _, rfl, rfl⟩

theorem test_witness_TickResultsAreTheListed :
    (∃ t, tick 0#8 (placed 0x5121) = .next t ∧ (placed 0x5121).mode = .running) ∧
    (∃ t, tick 0#8 { placed 0xF10A with mode := .awaitKey 1#4 } = .next t) ∧
    (∃ t, tick 0#8 { placed 0x00EE with mode := .halted (.stackUnderflow 0x200#16) } = .next t) :=
  ⟨⟨_, rfl, rfl⟩, ⟨_, rfl⟩, ⟨_, rfl⟩⟩

theorem test_witness_SysOnlyAdvancesAndJpSetsPc : 0x0EF#12 ≠ 0x0E0#12 ∧ 0x0EF#12 ≠ 0x0EE#12 := by decide

/-- A full stack popped, and an empty one. -/
theorem test_witness_RetPopsOrUnderflows :
    ({ State.reset with sp := 16 }).sp.val = 15 + 1 ∧ State.reset.sp.val = 0 := by decide

theorem test_witness_CallPushesOrOverflows :
    ({ State.reset with sp := 15 }).sp.val < 16 ∧ ({ State.reset with sp := 16 }).sp.val = 16 := by decide

theorem test_witness_RetReturnsAfterItsCall :
    State.reset.sp.val < 16 ∧ ∃ t, exec (.call 0x300#12) State.reset = .next t ∧ t.stack = t.stack ∧ t.sp = t.sp :=
  ⟨by decide, _, rfl, rfl, rfl⟩

theorem test_witness_SkipsAddFourOrTwo : 1#4 ≠ 0#4 := by decide

theorem test_witness_KeySkipsReadTheKeyOfTheLowNibble :
    (3#4).toNat = ((State.reset.setReg 4 0x13).reg 4).toNat % 16 := by decide

/-- `x` other than `VF`, for the clauses that give the result register. -/
theorem test_witness_AddSetsCarry_SubtractionsSetNotBorrow : 0xE#4 ≠ 0xF#4 := by decide

theorem test_witness_ShiftsSetTheShiftedOutBit :
    let s := State.reset.setReg 2 0x81
    0x81#8 = (if s.cfg.shiftSource = .vy then s.reg 2 else s.reg 1) ∧ 1#4 ≠ 0xF#4 := by decide

theorem test_witness_RndMasksTheTicksRandomByte : (placed 0xC30F).Executes (.rnd 3#4 0x0F#8) :=
  placed_executes _ _ 0xC30F#16 (by decide) (by decide)

/-- A block that ends at 0xFFF, one that passes it, and the empty block anywhere. -/
theorem test_witness_DrwXorsTheSpriteAndReportsCollision :
    BlockInMemory Config.spec 0xFFE 2 ∧ ¬ BlockInMemory Config.spec 0xFFE 3 ∧ BlockInMemory Config.spec 0xFFFF 0 ∧
    BlockInMemory { Config.spec with addrOor := .wrap } 0xFFE 4 :=
  ⟨.inr (.inr (by decide)), by unfold BlockInMemory; decide, .inl rfl, .inr (.inl rfl)⟩

theorem test_witness_DrawingTwiceRestoresTheDisplay :
    let s := { State.reset with i := 0x050#16 }
    BlockInMemory s.cfg s.i.toNat (5#4).toNat ∧
      (∃ t, exec (.drw 0#4 1#4 5#4) s = .next t ∧ t.reg 0#4 = s.reg 0#4 ∧ t.reg 1#4 = s.reg 1#4) ∧
      (∀ k, k < (5#4).toNat → (31 : Fin 32).val ≠ ((s.reg 1#4).toNat + k) % 32) := by
  refine ⟨.inr (.inr (by decide)), ⟨after (exec (.drw 0#4 1#4 5#4) { State.reset with i := 0x050#16 }), ?_, ?_, ?_⟩, ?_⟩
  · obtain ⟨t, ht⟩ := exec_answers (.drw 0#4 1#4 5#4) { State.reset with i := 0x050#16 }
    rw [ht]; rfl
  · decide
  · decide
  · decide

theorem test_witness_PixelsAreBitsOfTheDisplayBytes : (31 : Fin 32).val * 8 + (63 : Fin 64).val / 8 < 256 := by decide

theorem test_witness_LdKeyEntersTheWait :
    let c := { Config.spec with keywaitSampleOnEntry := true }
    State.reset.cfg.keywaitSampleOnEntry = false ∧ (∀ k : Nibble, (State.resetWith c).key k = false) ∧
    ((press 5 (State.resetWith c)).cfg.keywaitSampleOnEntry = true ∧ (press 5 (State.resetWith c)).key 5 = true ∧
      ∀ j : Nibble, j.toNat < (5#4).toNat → (press 5 (State.resetWith c)).key j = false) := by decide

theorem test_witness_KeyWaitStateMachine :
    (∃ t, tick 0#8 (placed 0xF10A) = .next t ∧ (placed 0xF10A).mode = .running ∧ t.mode = .awaitKey 1#4) ∧
    (∃ t, tick 0#8 { placed 0xF10A with mode := .awaitKey 1#4 } = .next t) ∧
    (List.replicate 3584 0#8).length ≤ 3584 :=
  ⟨⟨_, rfl, rfl, rfl⟩, ⟨_, rfl⟩, by rw [List.length_replicate]⟩

theorem test_witness_TimerInstructionsMoveTheByte :
    (placed 0xF507).Executes (.ldFromDt 5#4) ∧ (placed 0xF315).Executes (.ldDt 3#4) ∧
    (placed 0xF318).Executes (.ldSt 3#4) :=
  ⟨placed_executes _ _ 0xF507#16 (by decide) (by decide), placed_executes _ _ 0xF315#16 (by decide) (by decide),
    placed_executes _ _ 0xF318#16 (by decide) (by decide)⟩

theorem test_witness_EveryCompletingTickCountsDown :
    (∃ t, tick 0#8 (placed 0x1200) = .next t ∧ t.Alive) ∧ (∀ x, ¬ (placed 0x1200).Executes (.ldDt x)) ∧
      ∀ x, ¬ (placed 0x1200).Executes (.ldSt x) := by
  refine ⟨⟨_, rfl, rfl, nofun⟩, fun x h => ?_, fun x h => ?_⟩
  all_goals
    have h' := (executes_iff (placed 0x1200) 0x1200#16 _ rfl rfl (by decide)).mp h
    rw [show decode (placed 0x1200).cfg.sysPolicy 0x1200#16 = .ok (.jp 0x200#12) by decide] at h'
    cases h'

/-- The three bytes that end at 0xFFF, outside the font under `FONT_WRITE = FAULT`; the three that pass it; and the
block at 0x04E, whose third byte is the first of the font. -/
theorem test_witness_LdBStoresTheDecimalDigits :
    let c := { Config.spec with fontWrite := .fault }
    (BlockInMemory c 0xFFD 3 ∧ BlockStorable c 0xFFD 3) ∧ BlockStorable Config.spec 0x050 3 ∧
    ¬ BlockInMemory c 0xFFE 3 ∧
    (2 < 3 ∧ BlockInMemory c 0x04E 3 ∧ c.fontWrite = .fault ∧ isFont c (memIndex (0x04E + 2)) = true ∧
      ∀ k, k < 3 → isFont c (memIndex (0x04E + k)) = true → memIndex (0x04E + 2) ≤ memIndex (0x04E + k)) :=
  ⟨⟨.inr (.inr (by decide)), .inr (by decide)⟩, .inl rfl, by unfold BlockInMemory; decide,
    by decide, .inr (.inr (by decide)), rfl, by decide⟩

/-- The block of all sixteen registers that ends at 0xFFF, the one that passes it, and a block into the font. -/
theorem test_witness_StoreRegsStoresTheBlock :
    let c := { Config.spec with fontWrite := .fault }
    (BlockInMemory Config.spec 0xFF0 ((0xF#4).toNat + 1) ∧ BlockStorable Config.spec 0xFF0 ((0xF#4).toNat + 1)) ∧
    ¬ BlockInMemory Config.spec 0xFF1 ((0xF#4).toNat + 1) ∧
    (2 ≤ (3#4).toNat ∧ BlockInMemory c 0x04E ((3#4).toNat + 1) ∧ c.fontWrite = .fault ∧
      isFont c (memIndex (0x04E + 2)) = true ∧
      ∀ k, k ≤ (3#4).toNat → isFont c (memIndex (0x04E + k)) = true → memIndex (0x04E + 2) ≤ memIndex (0x04E + k)) ∧
    Config.spec.loadStoreI = .increment ∧ { Config.spec with loadStoreI := .keep }.loadStoreI = .keep := by
  refine ⟨⟨.inr (.inr (by decide)), .inl rfl⟩, by unfold BlockInMemory; decide,
    ⟨by decide, .inr (.inr (by decide)), rfl, by decide, fun k hk hf => ?_⟩, rfl, rfl⟩
  have h : ∀ k, k < 4 → isFont { Config.spec with fontWrite := .fault } (memIndex (0x4E + k)) = true →
      memIndex 0x50 ≤ memIndex (0x4E + k) := by decide
  exact h k (by simpa using Nat.lt_succ_of_le hk) hf

theorem test_witness_LoadRegsLoadsTheBlock :
    BlockInMemory Config.spec 0xFF0 ((0xF#4).toNat + 1) ∧ ¬ BlockInMemory Config.spec 0xFF1 ((0xF#4).toNat + 1) :=
  ⟨.inr (.inr (by decide)), by unfold BlockInMemory; decide⟩

theorem test_witness_MemWriteSetsOneByteOutsideTheFont :
    ea Config.spec 0xFFF = .ok 0xFFF ∧ isFont Config.spec 0xFFF = false ∧ isFont Config.spec 0x050 = true ∧
    ea { Config.spec with addrOor := .wrap } 0x1050 = .ok 0x050 := by decide

theorem test_witness_LoadRegsUndoesStoreRegs :
    let s := { State.reset with i := 0x300#16 }
    BlockInMemory s.cfg s.i.toNat ((2#4).toNat + 1) ∧
    (∀ j : Nibble, j.toNat ≤ (2#4).toNat → isFont s.cfg (memIndex (s.i.toNat + j.toNat)) = false) ∧
    ∃ t, exec (.storeRegs 2#4) s = .next t ∧
      ({ t with i := s.i }).cfg = t.cfg ∧ ({ t with i := s.i }).mem = t.mem ∧ ({ t with i := s.i }).i = s.i := by
  refine ⟨.inr (.inr (by decide)), by decide, ?_⟩
  obtain ⟨t, ht⟩ := exec_answers (.storeRegs 2#4) { State.reset with i := 0x300#16 }
  exact ⟨t, ht, rfl, rfl, rfl⟩

theorem test_witness_StoredBytesAreFetchedAtOnce :
    let s := { State.reset with i := 0x201#16 }
    s.pc.toNat + 3 ≤ 0xFFF ∧ s.i.toNat + (2#4).toNat ≤ 0xFFF ∧ s.i.toNat + (1#4).toNat = s.pc.toNat + 2 ∧
    (2#4).toNat = (1#4).toNat + 1 ∧ (2#4).toNat ≤ (2#4).toNat ∧ isFont s.cfg (s.pc.toNat + 2) = false ∧
    isFont s.cfg (s.pc.toNat + 3) = false ∧ (∃ t, exec (.storeRegs 2#4) s = .next t ∧ t.mode = s.mode) ∧
    ∀ e, s.mode ≠ .halted e :=
  ⟨by decide, by decide, by decide, by decide, by decide, by decide, by decide, ⟨_, rfl, rfl⟩, nofun⟩

/-- An instruction that writes no register but its own. -/
theorem test_witness_RegistersWrittenAreTheTables :
    (∃ t, exec (.ldImm 3#4 7#8) State.reset = .next t) ∧ ¬ WritesReg State.reset.cfg (.ldImm 3#4 7#8) 4#4 ∧
    (∃ t, exec (.loadRegs 3#4) State.reset = .next t) ∧ ¬ WritesReg State.reset.cfg (.loadRegs 3#4) 4#4 :=
  ⟨exec_answers _ _, show ¬ (4#4 = 3#4) by decide, exec_answers _ _, show ¬ ((4#4).toNat ≤ (3#4).toNat) by decide⟩

theorem test_witness_MemoryWrittenOnlyByTheStores : ∃ t, exec (.ldB 3#4) State.reset = .next t := exec_answers _ _

/-- Each clause has an instruction that changes its piece of state. -/
theorem test_witness_OtherStateWrittenOnlyByItsInstructions :
    (let s := { State.reset with display := Vector.replicate 256 0xFF#8 }
     ∃ t, exec .cls s = .next t ∧ t.display ≠ s.display ∧ t.touched ≠ false ∧ s.touched = false) ∧
    (∃ t, exec (.call 0x300#12) State.reset = .next t ∧ t.stack ≠ State.reset.stack ∧ t.sp ≠ State.reset.sp) ∧
    (∃ t, exec (.ldDt 0#4) (State.reset.setReg 0 5) = .next t ∧ t.dt ≠ State.reset.dt) ∧
    (∃ t, exec (.ldSt 0#4) (State.reset.setReg 0 5) = .next t ∧ t.st ≠ State.reset.st) ∧
    (∃ t, exec (.ldI 0x300#12) State.reset = .next t ∧ t.i ≠ State.reset.i) := by
  refine ⟨⟨_, rfl, ?_, by decide, by decide⟩, ⟨_, rfl, ?_, by decide⟩, ⟨_, rfl, by decide⟩, ⟨_, rfl, by decide⟩,
    ⟨_, rfl, by decide⟩⟩
  · exact fun h => absurd (congrArg (fun d : Display => d[0]) h) (by decide)
  · exact fun h => absurd (congrArg (fun d : Vector Word 16 => d[0]) h) (by decide)

theorem test_witness_StepKeepsKeypadLoadedAndParameters : ∃ t, step (press 3 (placed 0x1200)) = .next t := ⟨_, rfl⟩

/-- A Tick that draws and one that does not. -/
theorem test_witness_DirtyExactlyAfterClsOrDrw :
    (placed 0xD000).cfg.dirtyMode = .perTick ∧ (∃ t, tick 0#8 (placed 0xD000) = .next t ∧ t.Alive) ∧
    (∃ t, tick 0#8 (placed 0x1200) = .next t ∧ t.Alive) :=
  ⟨rfl, ⟨_, rfl, rfl, nofun⟩, ⟨_, rfl, rfl, nofun⟩⟩

/-- A memory with listed bytes, stepped. -/
theorem test_witness_StepKeepsMemoryCanonical : (placed 0x1200).MemOk ∧ ∃ t, step (placed 0x1200) = .next t :=
  ⟨⟨by decide, by decide⟩, _, rfl⟩

/-- The invariant at its boundary, and the step from it (which faults, and keeps `PC`). -/
theorem test_witness_StepKeepsPcInRange :
    ({ State.reset with pc := 0x10FE#16 }).PcInRange ∧ ∃ t, step { State.reset with pc := 0x10FE#16 } = .next t :=
  ⟨fun _ => ⟨by decide, by decide, nofun⟩, _, rfl⟩

theorem test_witness_StepKeepsEveryFontByte :
    (∃ t, step { placed 0xF333 with i := 0x050#16 } = .next t) ∧
    isFont Config.spec 0x050 = true ∧ isFont Config.spec 0x09F = true ∧ isFont Config.spec 0x0A0 = false :=
  ⟨⟨_, rfl⟩, by decide, by decide, by decide⟩

theorem test_witness_HostRunsKeepTheInvariants :
    Config.spec.WellFormed ∧
    ∃ replies t, hostRun [.loadProgram [0x12#8, 0x00#8], .setKeyState 3 true, .tick 7#8, .displayShouldUpdate]
      (State.constructedWith Config.spec) = .next (replies, t) := ⟨by decide, _, _, rfl⟩

theorem test_witness_LoadProgramResetsTheCoreOrRefuses :
    Config.spec.WellFormed ∧ 3584 < (List.replicate 3585 0#8).length ∧ (List.replicate 3584 0#8).length ≤ 3584 := by
  refine ⟨by decide, ?_, ?_⟩
  · rw [List.length_replicate]; decide
  · rw [List.length_replicate]

theorem test_witness_HostReadsTheDisplayAndSetsKeys :
    ((-1 : Int) < 0 ∨ 15 < (-1 : Int)) ∧ ((16 : Int) < 0 ∨ 15 < (16 : Int)) := by decide

theorem test_witness_TickTimersStepsTheTimersUnderSeparate :
    let c := { Config.spec with timerMode := .separate }
    State.reset.loaded = true ∧ State.reset.cfg.timerMode = .perTick ∧
    ((State.resetWith c).cfg.timerMode = .separate ∧ ∀ e, (State.resetWith c).mode ≠ .halted e) ∧
    ({ State.resetWith c with mode := .halted (.stackOverflow 0x200#16) }).mode =
      .halted (.stackOverflow 0x200#16) := ⟨rfl, rfl, ⟨rfl, nofun⟩, rfl⟩

theorem test_witness_OnlyLoadProgramLeavesHalted :
    let s := { State.reset with mode := .halted (.stackOverflow 0x200#16) }
    s.mode = .halted (.stackOverflow 0x200#16) ∧ s.loaded = true ∧
      (∃ reply t, hostStep (.tick 7#8) s = .next (reply, t)) ∧ (∀ bytes, HostOp.tick 7#8 ≠ .loadProgram bytes) ∧
      ([] : List Byte).length ≤ 3584 := ⟨rfl, rfl, ⟨_, _, rfl⟩, nofun, by decide⟩

end Sys2Proof.Tests
end

section
/-! SUPPORT. Operations on the state that the claims of the scope rest on: when a block operation raises, what the end
of a Tick keeps, and where a fetch can read. -/

namespace Sys2Proof.Machine

/-! ## When a block operation raises (20_memory.md R39, R41) -/

/-- Under `ADDR_OOR = FAULT` an address that `EA` answers is inside memory. -/
theorem ea_ok_inside (c : Config) (a b : Nat) (hf : c.addrOor = .fault) (h : ea c a = .ok b) : a ≤ 0xFFF := by
  by_contra ha
  rw [ea, if_neg ha, hf] at h
  cases h

/-- A range raises only under `ADDR_OOR = FAULT`, with an address past 0xFFF. -/
theorem eaRange_error (c : Config) (a n e : Nat) (h : eaRange c a n = .error e) :
    c.addrOor = .fault ∧ 0xFFF < e := by
  induction n generalizing a with
  | zero => cases h
  | succ n ih =>
    rw [eaRange] at h
    split at h
    · rename_i b hb
      cases h
      obtain ⟨rfl, hlt, hf⟩ := ea_error _ _ _ hb
      exact ⟨hf, hlt⟩
    · split at h
      · rename_i b hb
        cases h
        exact ih _ hb
      · cases h

/-- The font address that a block store reports is one, and `FONT_WRITE = FAULT`. -/
theorem fontHit_some (c : Config) (as : List Nat) (a : Nat) (h : fontHit c as = some a) :
    c.fontWrite = .fault ∧ isFont c a = true := by
  unfold fontHit at h
  split at h
  · cases h
  · exact ⟨‹_›, (List.mem_filter.mp (List.min?_mem h)).2⟩

/-- The errors of a block load: an address fault at the instruction's `PC`. -/
theorem loadBlock_error_cases (s : State) (base n : Nat) (e : FatalError) (h : loadBlock s base n = .error e) :
    s.cfg.addrOor = .fault ∧ ∃ a, 0xFFF < a ∧ e = .addressFault a s.pc := by
  obtain ⟨a, rfl, ha⟩ := loadBlock_error s base n e h
  obtain ⟨hf, hlt⟩ := eaRange_error _ _ _ _ ha
  exact ⟨hf, a, hlt, rfl⟩

/-- The errors of a block store: an address fault or a font write at the instruction's `PC`. -/
theorem storeBlock_error_cases (s : State) (base : Nat) (vals : List Byte) (e : FatalError)
    (h : storeBlock s base vals = .error e) :
    (s.cfg.addrOor = .fault ∧ ∃ a, 0xFFF < a ∧ e = .addressFault a s.pc) ∨
    (s.cfg.fontWrite = .fault ∧ ∃ a, isFont s.cfg a = true ∧ e = .fontWrite a s.pc) := by
  rcases storeBlock_cases s base vals with ⟨_, _, _, hs⟩ | ⟨_, a, _, hhit, hs⟩ | ⟨a, ha, hs⟩
  · rw [hs] at h; cases h
  · rw [hs] at h; cases h
    obtain ⟨hw, hfont⟩ := fontHit_some _ _ _ hhit
    exact .inr ⟨hw, a, hfont, rfl⟩
  · rw [hs] at h; cases h
    obtain ⟨hf, hlt⟩ := eaRange_error _ _ _ _ ha
    exact .inl ⟨hf, a, hlt, rfl⟩

/-! ## Taking a fatal error, the end of a Tick, fetch -/

/-- `takeFatal` leaves the state that the claims describe (60_exceptions.md R136). -/
theorem takeFatal_eq_haltedBy (e : FatalError) (s : State) : takeFatal e s = s.haltedBy e := by
  unfold takeFatal dirtyUpdate State.haltedBy dirtyAfter
  cases s.cfg.dirtyMode <;> rfl

@[simp] theorem endTick_cfg (s : State) : (endTick s).cfg = s.cfg := by rw [endTick_keeps]
@[simp] theorem endTick_pc (s : State) : (endTick s).pc = s.pc := by rw [endTick_keeps]
@[simp] theorem endTick_stack (s : State) : (endTick s).stack = s.stack := by rw [endTick_keeps]
@[simp] theorem endTick_mem (s : State) : (endTick s).mem = s.mem := by rw [endTick_keeps]
@[simp] theorem endTick_mode (s : State) : (endTick s).mode = s.mode := by rw [endTick_keeps]

/-- Under `ADDR_OOR = FAULT` a fetch succeeds only with both bytes of the word inside memory
(40_cycle_and_host.md R70). -/
theorem fetch_ok_inside (s : State) (op : Word) (hf : s.cfg.addrOor = .fault) (h : fetch s = .ok op) :
    s.pc.toNat ≤ 0xFFE := by
  unfold fetch at h
  split at h
  · cases h
  · split at h
    · cases h
    · rename_i b hb
      have := ea_ok_inside _ _ _ hf hb
      omega

end Sys2Proof.Machine
end

section
/-! SUPPORT. What an instruction can do to the flow of control and to memory, said once for all 35 instructions, and
O15 from it. -/

namespace Sys2Proof.Machine

/-! ## The two kinds of completion -/

/-- What an instruction that raises nothing does to `PC`, the return stack and `Mode`. -/
inductive ControlFlow (s t : State) : Prop where
  /-- On to a following word; a key wait that completes at once also sets `Running`. -/
  | onward (hpc : t.pc = s.pc + 2#16 ∨ t.pc = s.pc + 4#16) (hstack : t.stack = s.stack)
      (hmode : t.mode = s.mode ∨ t.mode = .running)
  /-- `JP nnn` and `JP V0, nnn` (41_control.md R98; 43_load.md R108). -/
  | jump (hpc : t.pc.toNat ≤ 0x10FE) (hstack : t.stack = s.stack) (hmode : t.mode = s.mode)
  /-- `CALL nnn` (R99). -/
  | call (hsp : s.sp.val < 16) (hpc : t.pc.toNat ≤ 0xFFF)
      (hstack : t.stack = s.stack.set s.sp.val (s.pc + 2#16) hsp) (hmode : t.mode = s.mode)
  /-- `RET` (R97). -/
  | ret (hsp : s.sp.val - 1 < 16) (hpc : t.pc = s.stack[s.sp.val - 1]) (hstack : t.stack = s.stack)
      (hmode : t.mode = s.mode)
  /-- `LD Vx, K` that enters the wait (47_input.md R124). -/
  | await (r : Nibble) (hpc : t.pc = s.pc) (hstack : t.stack = s.stack) (hmode : t.mode = .awaitKey r)

/-- A skip goes on to the next word or the one after it (42_skip.md). -/
theorem controlFlow_skipIf (c : Bool) (s : State) : ControlFlow s (skipIf c s) :=
  .onward (by cases c <;> simp) rfl (.inl rfl)

theorem zextAddr_le (nnn : Addr12) : (zextAddr nnn).toNat ≤ 0xFFF := by
  have := nnn.isLt
  rw [zextAddr, BitVec.toNat_setWidth]
  omega

theorem jumpOffsetTarget_le (nnn : Addr12) (v0 : Byte) : (jumpOffsetTarget nnn v0).toNat ≤ 0x10FE := by
  have := nnn.isLt
  have := v0.isLt
  rw [jumpOffsetTarget, BitVec.toNat_ofNat]
  omega

/-- An instruction raises an error of its row of the table and writes nothing, or it completes (60_exceptions.md R134,
R136; 00_scope.md R12). -/
theorem exec_raises_or_flows (i : Instr) (s t : State) (h : exec i s = .next t) :
    (∃ e, CanRaise s.cfg s.pc i e ∧ t = takeFatal e s) ∨ ControlFlow s t := by
  cases i <;> simp only [exec] at h
  case ret =>
    rcases execRet_cases _ _ h with ⟨hs, rfl⟩ | ⟨_, rfl⟩
    · exact .inr (.ret (by omega) rfl rfl rfl)
    · exact .inl ⟨_, .inl ⟨rfl, rfl⟩, rfl⟩
  case call nnn =>
    rcases execCall_cases _ _ _ h with ⟨hs, rfl⟩ | ⟨_, rfl⟩
    · exact .inr (.call hs (zextAddr_le nnn) rfl rfl)
    · exact .inl ⟨_, .inr (.inl ⟨⟨nnn, rfl⟩, rfl⟩), rfl⟩
  case drw x y n =>
    rcases execDrw_cases _ _ _ _ _ h with ⟨_, _, rfl⟩ | ⟨e, he, rfl⟩
    · exact .inr (.onward (.inl rfl) rfl (.inl rfl))
    · exact .inl ⟨e, .inr (.inr (.inl ⟨.inl ⟨x, y, n, rfl⟩, loadBlock_error_cases _ _ _ _ he⟩)), rfl⟩
  case loadRegs x =>
    rcases execLoadRegs_cases _ _ _ h with ⟨_, _, rfl⟩ | ⟨e, he, rfl⟩
    · exact .inr (.onward (.inl rfl) rfl (.inl rfl))
    · exact .inl ⟨e, .inr (.inr (.inl ⟨.inr ⟨x, .inr (.inr rfl)⟩, loadBlock_error_cases _ _ _ _ he⟩)), rfl⟩
  case ldB x =>
    rcases execLdB_cases _ _ _ h with ⟨_, _, rfl⟩ | ⟨e, he, rfl⟩
    · exact .inr (.onward (.inl rfl) rfl (.inl rfl))
    · rcases storeBlock_error_cases _ _ _ _ he with ha | hw
      · exact .inl ⟨e, .inr (.inr (.inl ⟨.inr ⟨x, .inl rfl⟩, ha⟩)), rfl⟩
      · exact .inl ⟨e, .inr (.inr (.inr ⟨⟨x, .inl rfl⟩, hw⟩)), rfl⟩
  case storeRegs x =>
    rcases execStoreRegs_cases _ _ _ h with ⟨_, _, rfl⟩ | ⟨e, he, rfl⟩
    · exact .inr (.onward (.inl rfl) rfl (.inl rfl))
    · rcases storeBlock_error_cases _ _ _ _ he with ha | hw
      · exact .inl ⟨e, .inr (.inr (.inl ⟨.inr ⟨x, .inr (.inl rfl)⟩, ha⟩)), rfl⟩
      · exact .inl ⟨e, .inr (.inr (.inr ⟨⟨x, .inr rfl⟩, hw⟩)), rfl⟩
  case ldKey x =>
    rcases execLdKey_cases _ _ _ h with ⟨_, _, _, rfl⟩ | ⟨_, rfl⟩
    · exact .inr (.onward (.inl rfl) rfl (.inr rfl))
    · exact .inr (.await x rfl rfl rfl)
  case jp nnn => cases h; exact .inr (.jump (Nat.le_trans (zextAddr_le nnn) (by decide)) rfl rfl)
  case jpV0 nnn => cases h; exact .inr (.jump (jumpOffsetTarget_le nnn _) rfl rfl)
  case seImm | sneImm | seReg | sneReg | skp | sknp => cases h; exact .inr (controlFlow_skipIf _ s)
  all_goals
    cases h
    exact .inr (.onward (.inl (by simp)) (by simp) (.inl (by simp)))

/-- `Mode` after an instruction that raises nothing. -/
theorem ControlFlow.mode_cases {s t : State} (hf : ControlFlow s t) :
    t.mode = s.mode ∨ t.mode = .running ∨ ∃ r, t.mode = .awaitKey r := by
  cases hf with
  | onward _ _ hmode => exact hmode.imp_right .inl
  | jump _ _ hmode => exact .inl hmode
  | call _ _ _ hmode => exact .inl hmode
  | ret _ _ _ hmode => exact .inl hmode
  | await r _ _ hmode => exact .inr (.inr ⟨r, hmode⟩)

/-- A running core that completes an instruction is not halted. -/
theorem ControlFlow.not_halted {s t : State} (hf : ControlFlow s t) (hs : s.mode = .running) (e : FatalError) :
    t.mode ≠ .halted e := by
  rcases hf.mode_cases with h | h | ⟨r, h⟩
  · rw [h, hs]; nofun
  · rw [h]; nofun
  · rw [h]; nofun

/-- Settles O15: an instruction either raises, with nothing written, or completes, and then it is not halted. -/
theorem fatalErrorsArePrecise : Obligations.FatalErrorsArePrecise := by
  unfold Obligations.FatalErrorsArePrecise
  intro i s t e hs h ht
  rcases exec_raises_or_flows i s t h with ⟨e', hcan, rfl⟩ | hf
  · obtain rfl : e' = e := by simpa using ht
    exact ⟨takeFatal_eq_haltedBy _ _, hcan⟩
  · exact absurd ht (hf.not_halted hs e)

end Sys2Proof.Machine
end

section
/-! SUPPORT. What a Tick does to memory and to the range of `PC`, and O55: the invariants along every run of host
operations. -/

namespace Sys2Proof.Machine

/-! ## Memory -/

/-- An instruction leaves memory alone or makes one block store at `I` (20_memory.md R35). -/
theorem exec_mem (i : Instr) (s t : State) (h : exec i s = .next t) :
    t.mem = s.mem ∨ ∃ vals, storeBlock s s.i.toNat vals = .ok t.mem := by
  cases i <;> simp only [exec] at h
  case ldB =>
    rcases execLdB_cases _ _ _ h with ⟨_, hm, rfl⟩ | ⟨_, _, rfl⟩
    · exact .inr ⟨_, hm⟩
    · exact .inl rfl
  case storeRegs =>
    rcases execStoreRegs_cases _ _ _ h with ⟨_, hm, rfl⟩ | ⟨_, _, rfl⟩
    · exact .inr ⟨_, hm⟩
    · exact .inl rfl
  case ret => rcases execRet_cases _ _ h with ⟨_, rfl⟩ | ⟨_, rfl⟩ <;> exact .inl rfl
  case call => rcases execCall_cases _ _ _ h with ⟨_, rfl⟩ | ⟨_, rfl⟩ <;> exact .inl rfl
  case drw => rcases execDrw_cases _ _ _ _ _ h with ⟨_, _, rfl⟩ | ⟨_, _, rfl⟩ <;> exact .inl rfl
  case ldKey => rcases execLdKey_cases _ _ _ h with ⟨_, _, _, rfl⟩ | ⟨_, rfl⟩ <;> exact .inl rfl
  case loadRegs => rcases execLoadRegs_cases _ _ _ h with ⟨_, _, rfl⟩ | ⟨_, _, rfl⟩ <;> exact .inl rfl
  all_goals (cases h; exact .inl (by simp))

@[simp] theorem awaitStep_cfg (r : Nibble) (s : State) : (awaitStep r s).cfg = s.cfg := by
  rcases awaitStep_cases r s with ⟨_, _, h⟩ | ⟨_, h⟩ <;> simp [h]
@[simp] theorem awaitStep_mem (r : Nibble) (s : State) : (awaitStep r s).mem = s.mem := by
  rcases awaitStep_cases r s with ⟨_, _, h⟩ | ⟨_, h⟩ <;> simp [h]

/-- A Tick leaves the parameters alone (00_scope.md R7). -/
theorem tick_cfg (r : Byte) (s t : State) (h : tick r s = .next t) : t.cfg = s.cfg := by
  obtain ⟨_, ⟨_, _, rfl⟩ | ⟨_, _, rfl⟩ | ⟨_, ⟨_, _, rfl⟩ | ⟨_, _, _, _, rfl⟩ | ⟨_, i, u, _, _, hu, rfl⟩⟩⟩ :=
    tick_cases r s t h
  case inr.inr.inr.inr =>
    obtain ⟨hcfg, _⟩ := exec_keeps i _ u hu
    simpa using hcfg
  all_goals simp

/-- A Tick leaves memory alone or makes one block store (20_memory.md R35). -/
theorem tick_mem (r : Byte) (s t : State) (h : tick r s = .next t) :
    t.mem = s.mem ∨ ∃ vals, storeBlock s s.i.toNat vals = .ok t.mem := by
  obtain ⟨_, ⟨_, _, rfl⟩ | ⟨_, _, rfl⟩ | ⟨_, ⟨_, _, rfl⟩ | ⟨_, _, _, _, rfl⟩ | ⟨_, i, u, _, _, hu, rfl⟩⟩⟩ :=
    tick_cases r s t h
  case inr.inr.inr.inr =>
    rw [endTick_mem]
    exact exec_mem i (beginTick r s) u hu
  all_goals exact .inl (by simp)

/-- A Tick keeps the canonical form of memory (10_state.md R24; log entry 2). -/
theorem tick_memOk (r : Byte) (s t : State) (h : tick r s = .next t) (hs : s.MemOk) : t.MemOk := by
  rw [State.MemOk, tick_cfg r s t h]
  rcases tick_mem r s t h with hm | ⟨vals, hm⟩
  · rw [hm]; exact hs
  · exact storeBlock_wf _ _ _ _ hs hm

/-- A Tick changes no font byte (20_memory.md R39). -/
theorem tick_readByte_font (r : Byte) (s t : State) (a : Nat) (h : tick r s = .next t)
    (ha : isFont s.cfg a = true) : t.readByte a = s.readByte a := by
  rw [State.readByte, tick_cfg r s t h]
  rcases tick_mem r s t h with hm | ⟨vals, hm⟩
  · rw [hm]; rfl
  · exact storeBlock_font _ _ _ _ _ ha hm

/-- The addresses of the font's bytes are font addresses (20_memory.md R37). -/
theorem isFont_of_lt (c : Config) (hc : c.WellFormed) (j : Nat) (hj : j < c.fontData.length) :
    isFont c (c.fontBase + j) = true := by
  rw [isFont, decide_eq_true_iff, ← hc.2]
  omega

/-- A Tick keeps the font in place (20_memory.md R39). -/
theorem tick_fontIntact (r : Byte) (s t : State) (hc : s.cfg.WellFormed) (h : tick r s = .next t)
    (hs : s.FontIntact) : t.FontIntact := by
  rw [State.FontIntact, tick_cfg r s t h]
  intro j hj
  rw [tick_readByte_font r s t _ h (isFont_of_lt _ hc j hj)]
  exact hs j hj

/-! ## The range of `PC` (10_state.md R19) -/

theorem pcInRange_endTick (s : State) (hs : s.PcInRange) : (endTick s).PcInRange := by
  simpa only [State.PcInRange, endTick_cfg, endTick_pc, endTick_stack, endTick_mode] using hs

theorem pcInRange_takeFatal (e : FatalError) (s : State) (hs : s.PcInRange) : (takeFatal e s).PcInRange := by
  intro hf
  obtain ⟨hpc, hstack, _⟩ := hs hf
  exact ⟨hpc, hstack, by simp⟩

theorem toNat_add_le (pc : Word) (hpc : pc.toNat ≤ 0xFFE) :
    (pc + 2#16).toNat ≤ 0x1000 ∧ (pc + 4#16).toNat ≤ 0x1002 := by
  constructor <;> bv_omega

/-- An instruction fetched inside memory keeps the range when it completes. -/
theorem ControlFlow.pcInRange {s t : State} (hf : ControlFlow s t) (hcfg : t.cfg = s.cfg) (hm : s.mode = .running)
    (hfetched : s.cfg.addrOor = .fault → s.pc.toNat ≤ 0xFFE) (hs : s.PcInRange) : t.PcInRange := by
  intro hfault
  rw [hcfg] at hfault
  obtain ⟨_, hold, _⟩ := hs hfault
  have hin := hfetched hfault
  obtain ⟨h2, h4⟩ := toNat_add_le s.pc hin
  have hrunning (h : t.mode = .running) : ∀ r, t.mode = .awaitKey r → t.pc.toNat ≤ 0xFFE := by
    rw [h]; nofun
  cases hf with
  | onward hpc hstack hmode =>
    refine ⟨?_, hstack ▸ hold, hrunning (hmode.elim (·.trans hm) id)⟩
    rcases hpc with hpc | hpc <;> rw [hpc] <;> omega
  | jump hpc hstack hmode => exact ⟨hpc, hstack ▸ hold, hrunning (hmode.trans hm)⟩
  | call hsp hpc hstack hmode =>
    refine ⟨by omega, fun k hk => ?_, hrunning (hmode.trans hm)⟩
    simp only [hstack, Vector.getElem_set]
    split
    · exact h2
    · exact hold k hk
  | ret hsp hpc hstack hmode =>
    have := hold _ hsp
    exact ⟨by rw [hpc]; omega, hstack ▸ hold, hrunning (hmode.trans hm)⟩
  | await r hpc hstack hmode => exact ⟨by rw [hpc]; omega, hstack ▸ hold, fun _ _ => hpc ▸ hin⟩

/-- A waiting core keeps the range: `PC` is on a fetched word until the wait completes (40_cycle_and_host.md R73). -/
theorem pcInRange_awaitStep (r q : Nibble) (s : State) (hm : s.mode = .awaitKey q) (hs : s.PcInRange) :
    (awaitStep r s).PcInRange := by
  rcases awaitStep_cases r s with ⟨k, _, h⟩ | ⟨_, h⟩ <;> rw [h]
  · intro hf
    obtain ⟨_, hstack, hwait⟩ := hs hf
    obtain ⟨h2, _⟩ := toNat_add_le s.pc (hwait q hm)
    exact ⟨by rw [completeWait_pc]; omega, hstack, by simp⟩
  · exact hs

/-- An unknown word is skipped (40_cycle_and_host.md R71). -/
theorem controlFlow_skipUnknown (op : Word) (s : State) : ControlFlow s (skipUnknown op s) :=
  .onward (.inl rfl) rfl (.inl rfl)

/-- A Tick keeps the range of `PC` (10_state.md R19). -/
theorem tick_pcInRange (r : Byte) (s t : State) (h : tick r s = .next t) (hs : s.PcInRange) : t.PcInRange := by
  have hbegin : (beginTick r s).PcInRange := hs
  obtain ⟨_, ⟨e, _, rfl⟩ | ⟨q, hm, rfl⟩ | ⟨hm, ⟨a, _, rfl⟩ | ⟨op, _, hop, _, rfl⟩ | ⟨op, i, u, hop, _, hu, rfl⟩⟩⟩ :=
    tick_cases r s t h
  · intro hf
    obtain ⟨hpc, hstack, hwait⟩ := hs hf
    exact ⟨hpc, hstack, hwait⟩
  · exact pcInRange_endTick _ (pcInRange_awaitStep q q _ hm hbegin)
  · exact pcInRange_endTick _ (pcInRange_takeFatal _ _ hbegin)
  · exact pcInRange_endTick _
      ((controlFlow_skipUnknown op _).pcInRange rfl hm (fetch_ok_inside s op · hop) hbegin)
  · obtain ⟨hcfg, _⟩ := exec_keeps i _ u hu
    rcases exec_raises_or_flows i _ u hu with ⟨e, _, rfl⟩ | hf
    · exact pcInRange_endTick _ (pcInRange_takeFatal _ _ hbegin)
    · exact pcInRange_endTick _ (hf.pcInRange hcfg hm (fetch_ok_inside s op · hop) hbegin)

/-! ## Host operations and runs -/

/-- What every run of host operations keeps, for a core with parameters `c`. -/
structure RunInvariant (c : Config) (s : State) : Prop where
  cfg : s.cfg = c
  memOk : s.MemOk
  fontIntact : s.FontIntact
  pcInRange : s.PcInRange

/-- Everything a host operation can do to the state (40_cycle_and_host.md R66 to R82; 70_reset_and_hazards.md R152,
R153). -/
theorem hostStep_cases (op : HostOp) (s t : State) (reply : HostReply) (h : hostStep op s = .next (reply, t)) :
    (∃ bytes, op = .loadProgram bytes ∧ bytes.length ≤ progMax ∧ t = loadReset bytes s) ∨
    (∃ r, op = .tick r ∧ tick r s = .next t) ∨
    (op = .tickTimers ∧ t = timerStep s) ∨
    (∃ key pressed, op = .setKeyState key pressed ∧
      t = { s with keys := s.keys.setIfInBounds key.toNat pressed }) ∨
    (op = .displayShouldUpdate ∧ t = { s with dirty := false }) ∨
    t = s := by
  cases op with
  | loadProgram bytes =>
    simp only [hostStep, loadProgram] at h
    split at h <;> cases h
    · simp
    · exact .inl ⟨bytes, rfl, by omega, rfl⟩
  | tick r =>
    simp only [hostStep] at h
    cases hu : tick r s with
    | next u => rw [hu] at h; cases h; exact .inr (.inl ⟨r, rfl, hu⟩)
    | fault f => rw [hu] at h; cases h
    | refused f => rw [hu] at h; cases h
  | tickTimers =>
    simp only [hostStep, tickTimers] at h
    split at h
    · split at h <;> cases h <;> simp
    · cases h
  | getDisplay => cases h; simp
  | setKeyState key pressed =>
    simp only [hostStep, setKeyState] at h
    split at h <;> cases h
    · simp
    · exact .inr (.inr (.inr (.inl ⟨key, pressed, rfl, rfl⟩)))
  | displayShouldUpdate => cases h; exact .inr (.inr (.inr (.inr (.inl ⟨rfl, rfl⟩))))

/-- The font stays below the program area (20_memory.md R37). -/
theorem font_below_program (c : Config) (hc : c.WellFormed) : c.fontBase + c.fontData.length ≤ progBase := by
  obtain ⟨hbase, hlen⟩ := hc
  simp only [fontSize] at hlen
  simp only [progBase]
  omega

/-- A successful `LoadProgram` puts the font in place, whatever memory held (70_reset_and_hazards.md R152). -/
theorem loadReset_fontIntact (bytes : List Byte) (s : State) (hc : s.cfg.WellFormed) :
    (loadReset bytes s).FontIntact := by
  intro j hj
  have hbelow := font_below_program _ hc
  have hj' : j < s.cfg.fontData.length := hj
  show memByte s.cfg (memFill s.cfg (memFill s.cfg s.mem s.cfg.fontBase s.cfg.fontData) progBase bytes)
    (s.cfg.fontBase + j) = _
  rw [memByte_fill_other _ _ _ _ _ (by omega), memByte_fill_at _ _ _ _ _ hj']
  rfl

/-- A successful `LoadProgram` keeps the canonical form of memory (R152). -/
theorem loadReset_memOk (bytes : List Byte) (s : State) (hc : s.cfg.WellFormed) (hb : bytes.length ≤ progMax)
    (hs : s.MemOk) : (loadReset bytes s).MemOk := by
  have hbelow := font_below_program _ hc
  simp only [progMax] at hb
  simp only [progBase] at hbelow
  refine memFill_wf _ _ _ _ ?_ (memFill_wf _ _ _ _ ?_ hs)
  · simp only [progBase, memSize]; omega
  · simp only [memSize]; omega

/-- The state at the reset address with an empty stack is in range (10_state.md R34). -/
theorem pcInRange_of_reset (s : State) (hpc : s.pc = BitVec.ofNat 16 progBase) (hm : s.mode = .running)
    (hstack : s.stack = Vector.replicate 16 0) : s.PcInRange := by
  intro _
  rw [hpc, hm, hstack]
  exact ⟨by decide, fun k hk => by simp, nofun⟩

/-- Memory that lists nothing reads as `FONT_DATA` in the font (20_memory.md R38; log entry 3). -/
theorem memByte_nil_font (c : Config) (hc : c.WellFormed) (j : Nat) (hj : j < c.fontData.length) :
    memByte c [] (c.fontBase + j) = c.fontData[j] := by
  have hbyte : unlisted c (c.fontBase + j) = some c.fontData[j] := by
    rw [unlisted, if_pos (isFont_of_lt c hc j hj), Nat.add_sub_cancel_left, List.getElem?_eq_getElem hj]
  simp only [memByte, memLookup, hbyte]

/-- A newly constructed core meets the invariant (70_reset_and_hazards.md R151). -/
theorem constructedWith_runInvariant (c : Config) (hc : c.WellFormed) : RunInvariant c (State.constructedWith c) where
  cfg := rfl
  memOk := nil_wf c
  fontIntact := fun j hj => memByte_nil_font c hc j hj
  pcInRange := pcInRange_of_reset _ rfl rfl rfl

/-- Every host operation keeps the invariant. -/
theorem hostStep_runInvariant (c : Config) (hc : c.WellFormed) (op : HostOp) (s t : State) (reply : HostReply)
    (h : hostStep op s = .next (reply, t)) (hs : RunInvariant c s) : RunInvariant c t := by
  obtain ⟨rfl, hmem, hfont, hpc⟩ := hs
  rcases hostStep_cases op s t reply h with
    ⟨bytes, _, hb, rfl⟩ | ⟨r, _, ht⟩ | ⟨_, rfl⟩ | ⟨key, pressed, _, rfl⟩ | ⟨_, rfl⟩ | rfl
  · exact ⟨rfl, loadReset_memOk bytes s hc hb hmem, loadReset_fontIntact bytes s hc,
      pcInRange_of_reset _ rfl rfl rfl⟩
  · exact ⟨tick_cfg r s t ht, tick_memOk r s t ht hmem, tick_fontIntact r s t hc ht hfont,
      tick_pcInRange r s t ht hpc⟩
  all_goals exact ⟨rfl, hmem, hfont, hpc⟩

/-- A run that answers makes its first move and then the run of the rest. -/
theorem hostRun_cons (op : HostOp) (ops : List HostOp) (s u : State) (replies : List HostReply)
    (h : hostRun (op :: ops) s = .next (replies, u)) :
    ∃ reply t rest, hostStep op s = .next (reply, t) ∧ hostRun ops t = .next (rest, u) := by
  rw [hostRun] at h
  split at h
  · cases h
  · cases h
  · rename_i reply t ht
    split at h
    · cases h
    · cases h
    · rename_i rest u' hu
      cases h
      exact ⟨reply, t, rest, ht, hu⟩

/-- What every host operation keeps, every run of them keeps (40_cycle_and_host.md R84). -/
theorem hostRun_runInvariant (c : Config) (hc : c.WellFormed) (ops : List HostOp) (s t : State)
    (replies : List HostReply) (h : hostRun ops s = .next (replies, t)) (hs : RunInvariant c s) :
    RunInvariant c t := by
  induction ops generalizing s replies with
  | nil => cases h; exact hs
  | cons op ops ih =>
    obtain ⟨reply, u, rest, hstep, hrun⟩ := hostRun_cons op ops s t replies h
    exact ih u rest hrun (hostStep_runInvariant c hc op s u reply hstep hs)

/-- Settles O55, from the invariant at construction and along every run. -/
theorem hostRunsKeepTheInvariants : Obligations.HostRunsKeepTheInvariants := by
  unfold Obligations.HostRunsKeepTheInvariants
  intro c ops replies t hc h
  obtain ⟨hcfg, hmem, hfont, hpc⟩ := hostRun_runInvariant c hc ops _ t replies h (constructedWith_runInvariant c hc)
  exact ⟨hcfg, hmem, hfont, hpc⟩

end Sys2Proof.Machine
end

section
/-! SUPPORT. What a step keeps of 10_state.md: O52, O53 and O49 from the lemmas about a Tick, O51 for the reset state,
and O33 for a pixel. -/

namespace Sys2Proof.Machine

/-! ## The invariants along a step -/

/-- Settles O52: a step is a Tick, and a Tick leaves memory alone or makes one block store, which keeps the form. -/
theorem stepKeepsMemoryCanonical : Obligations.StepKeepsMemoryCanonical := by
  unfold Obligations.StepKeepsMemoryCanonical
  intro s t hs h
  exact tick_memOk _ (drawRandom s) t h hs

/-- Settles O53: a step is a Tick, and every way a Tick moves `PC` keeps the range. -/
theorem stepKeepsPcInRange : Obligations.StepKeepsPcInRange := by
  unfold Obligations.StepKeepsPcInRange
  intro s t hs h
  exact tick_pcInRange _ (drawRandom s) t h hs

/-! ## The keypad, `Loaded` and the parameters (10_state.md R27, R31) -/

@[simp] theorem endTick_keys (s : State) : (endTick s).keys = s.keys := by rw [endTick_keeps]
@[simp] theorem endTick_loaded (s : State) : (endTick s).loaded = s.loaded := by rw [endTick_keeps]
@[simp] theorem awaitStep_keys (r : Nibble) (s : State) : (awaitStep r s).keys = s.keys := by
  rcases awaitStep_cases r s with ⟨_, _, h⟩ | ⟨_, h⟩ <;> simp [h]
@[simp] theorem awaitStep_loaded (r : Nibble) (s : State) : (awaitStep r s).loaded = s.loaded := by
  rcases awaitStep_cases r s with ⟨_, _, h⟩ | ⟨_, h⟩ <;> simp [h]

/-- A Tick leaves the keypad and `Loaded` alone (40_cycle_and_host.md R66). -/
theorem tick_keys_loaded (r : Byte) (s t : State) (h : tick r s = .next t) :
    t.keys = s.keys ∧ t.loaded = s.loaded := by
  obtain ⟨_, ⟨_, _, rfl⟩ | ⟨_, _, rfl⟩ | ⟨_, ⟨_, _, rfl⟩ | ⟨_, _, _, _, rfl⟩ | ⟨_, i, u, _, _, hu, rfl⟩⟩⟩ :=
    tick_cases r s t h
  case inr.inr.inr.inr =>
    obtain ⟨_, hkeys, hloaded, _⟩ := exec_keeps i _ u hu
    exact ⟨by simpa using hkeys, by simpa using hloaded⟩
  all_goals simp

/-- Settles O49, from what a Tick keeps. -/
theorem stepKeepsKeypadLoadedAndParameters : Obligations.StepKeepsKeypadLoadedAndParameters := by
  unfold Obligations.StepKeepsKeypadLoadedAndParameters
  intro s t h
  exact ⟨tick_cfg _ (drawRandom s) t h, tick_keys_loaded _ (drawRandom s) t h⟩

/-! ## The reset state (10_state.md R34) -/

/-- The reset state meets what every run keeps: it is the constructed core with `Loaded` set. -/
theorem resetWith_runInvariant (c : Config) (hc : c.WellFormed) : RunInvariant c (State.resetWith c) := by
  obtain ⟨hcfg, hmem, hfont, hpc⟩ := constructedWith_runInvariant c hc
  exact ⟨hcfg, hmem, hfont, hpc⟩

/-- Settles O51: the invariants by `resetWith_runInvariant`, the values as the reset state names them. -/
theorem resetMeetsTheInvariants : Obligations.ResetMeetsTheInvariants := by
  unfold Obligations.ResetMeetsTheInvariants
  obtain ⟨_, hmem, hfont, hpc⟩ := resetWith_runInvariant Config.spec (by decide)
  have halive : State.reset.Alive := ⟨rfl, nofun⟩
  exact ⟨hmem, hfont, hpc, halive, rfl, fun j => Vector.getElem_replicate j.isLt, rfl, rfl, rfl, rfl, rfl, rfl,
    fun _ hk => Vector.getElem_replicate hk, fun _ hk => Vector.getElem_replicate hk⟩

/-! ## Pixels (10_state.md R26) -/

/-- Settles O33: the read is the definition of a pixel, the write is `pix_setPix`. -/
theorem pixelsAreBitsOfTheDisplayBytes : Obligations.PixelsAreBitsOfTheDisplayBytes := by
  unfold Obligations.PixelsAreBitsOfTheDisplayBytes
  intro d px qx py qy b _
  exact ⟨rfl, pix_setPix d px qx py qy b⟩

end Sys2Proof.Machine
end

section
/-! SUPPORT. Which instruction writes which piece of state: O46 for the general registers, O48 for the rest, and O50 for
`Dirty` after a Tick. -/

namespace Sys2Proof.Machine

/-! ## General registers (10_state.md R17) -/

/-- `OR`, `AND` and `XOR` write `Vx`, and `VF` under `LOGIC_VF = RESET` only (44_arithmetic.md R110). -/
theorem writeLogic_reg_other (x j : Nibble) (res : Byte) (s : State)
    (hj : ¬ (j = x ∨ (j = vf ∧ s.cfg.logicVf = .reset))) : (writeLogic x res s).reg j = s.reg j := by
  obtain ⟨hx, hvf⟩ := not_or.mp hj
  rw [reg_writeLogic, if_neg hvf, if_neg hx]

/-- A result with its flag writes `Vx` and `VF` only (44_arithmetic.md R109). -/
theorem writeResultFlag_reg_other (x j : Nibble) (res flag : Byte) (s : State) (hj : ¬ (j = x ∨ j = vf)) :
    (writeResultFlag x res flag s).reg j = s.reg j := by
  obtain ⟨hx, hvf⟩ := not_or.mp hj
  rw [reg_writeResultFlag, if_neg hvf, if_neg hx]

/-- A register past the loaded block keeps its byte (49_memory_ops.md R133). -/
theorem writeRegs_get_after (v : Vector Byte 16) (bs : List Byte) (k : Nat) (hk : k < 16) (h : bs.length ≤ k) :
    (writeRegs v 0 bs)[k] = v[k] := by
  rw [writeRegs_get, dif_neg (by omega)]

/-- A block load gives as many bytes as it asks for. -/
theorem loadBlock_length (s : State) (base n : Nat) (bs : List Byte) (h : loadBlock s base n = .ok bs) :
    bs.length = n := by
  rcases loadBlock_cases s base n with ⟨as, has, hl⟩ | ⟨_, _, hl⟩
  · rw [hl] at h
    cases h
    rw [List.length_map, eaRange_length _ _ _ _ has]
  · rw [hl] at h; cases h

/-- Settles O46, instruction by instruction as the table lists them. -/
theorem registersWrittenAreTheTables : Obligations.RegistersWrittenAreTheTables := by
  unfold Obligations.RegistersWrittenAreTheTables
  intro i s t j h hj
  cases i <;> simp only [exec] at h <;> simp only [WritesReg] at hj
  case ldImm | addImm | ldReg | rnd | ldFromDt => cases h; rw [advance_reg, reg_setReg, if_neg hj]
  case orReg | andReg | xorReg => cases h; exact writeLogic_reg_other _ _ _ _ hj
  case addReg | sub | shr | subn | shl => cases h; exact writeResultFlag_reg_other _ _ _ _ _ hj
  case ldKey =>
    rcases execLdKey_cases _ _ _ h with ⟨_, _, _, rfl⟩ | ⟨_, rfl⟩
    · rw [reg_completeWait, if_neg hj]
    · rfl
  case drw =>
    rcases execDrw_cases _ _ _ _ _ h with ⟨_, _, rfl⟩ | ⟨_, _, rfl⟩
    · rw [advance_reg, reg_setReg, vf, if_neg hj]; rfl
    · rfl
  case loadRegs x =>
    rcases execLoadRegs_cases _ _ _ h with ⟨bs, hbs, rfl⟩ | ⟨_, _, rfl⟩
    · have hlen := loadBlock_length _ _ _ _ hbs
      exact writeRegs_get_after _ _ _ j.isLt (by omega)
    · rfl
  case ret => rcases execRet_cases _ _ h with ⟨_, rfl⟩ | ⟨_, rfl⟩ <;> rfl
  case call => rcases execCall_cases _ _ _ h with ⟨_, rfl⟩ | ⟨_, rfl⟩ <;> rfl
  case ldB => rcases execLdB_cases _ _ _ h with ⟨_, _, rfl⟩ | ⟨_, _, rfl⟩ <;> rfl
  case storeRegs => rcases execStoreRegs_cases _ _ _ h with ⟨_, _, rfl⟩ | ⟨_, _, rfl⟩ <;> rfl
  all_goals (cases h; rfl)

/-! ## Display, `Touched`, stack, timers and `I` (10_state.md R18, R20 to R23, R25, R29) -/

/-- Settles O48: each instruction is among the writers of a piece of state or leaves it as it was; one that raises a
fatal error writes none of them. -/
theorem otherStateWrittenOnlyByItsInstructions : Obligations.OtherStateWrittenOnlyByItsInstructions := by
  unfold Obligations.OtherStateWrittenOnlyByItsInstructions
  intro i s t h
  cases i <;> simp only [exec] at h
  case ret => rcases execRet_cases _ _ h with ⟨_, rfl⟩ | ⟨_, rfl⟩ <;> simp
  case call => rcases execCall_cases _ _ _ h with ⟨_, rfl⟩ | ⟨_, rfl⟩ <;> simp
  case drw => rcases execDrw_cases _ _ _ _ _ h with ⟨_, _, rfl⟩ | ⟨_, _, rfl⟩ <;> simp
  case ldKey => rcases execLdKey_cases _ _ _ h with ⟨_, _, _, rfl⟩ | ⟨_, rfl⟩ <;> simp
  case ldB => rcases execLdB_cases _ _ _ h with ⟨_, _, rfl⟩ | ⟨_, _, rfl⟩ <;> simp
  case storeRegs => rcases execStoreRegs_cases _ _ _ h with ⟨_, _, rfl⟩ | ⟨_, _, rfl⟩ <;> simp
  case loadRegs => rcases execLoadRegs_cases _ _ _ h with ⟨_, _, rfl⟩ | ⟨_, _, rfl⟩ <;> simp
  all_goals (cases h; simp)

/-! ## `Dirty` after a Tick (10_state.md R28; 40_cycle_and_host.md R74) -/

/-- An instruction that raises nothing sets `Touched` exactly when it is `CLS` or `DRW` (10_state.md R29). -/
theorem exec_touched_iff (i : Instr) (s t : State) (h : exec i s = .next t) (hs : s.touched = false)
    (hlive : ∀ e, t.mode ≠ .halted e) : t.touched = true ↔ i = .cls ∨ ∃ x y n, i = .drw x y n := by
  constructor
  · intro ht
    obtain ⟨_, htouched, _⟩ := otherStateWrittenOnlyByItsInstructions i s t h
    exact htouched (by rw [ht]; decide) hs
  · rintro (rfl | ⟨x, y, n, rfl⟩)
    · cases h; rfl
    · rcases execDrw_cases x y n s t h with ⟨_, _, rfl⟩ | ⟨e, _, rfl⟩
      · rfl
      · exact absurd rfl (hlive e)

@[simp] theorem awaitStep_touched (r : Nibble) (s : State) : (awaitStep r s).touched = s.touched := by
  rcases awaitStep_cases r s with ⟨_, _, h⟩ | ⟨_, h⟩ <;> simp [h]

/-- Under `PER_TICK` a Tick that does not halt the core ends with `Dirty` at `Touched` (40_cycle_and_host.md R74). -/
theorem endTick_dirty_perTick (t : State) (hmode : t.cfg.dirtyMode = .perTick)
    (hlive : ∀ e, (endTick t).mode ≠ .halted e) : (endTick t).dirty = t.touched := by
  rcases endTick_cases t with ⟨e, he, _⟩ | ⟨_, h⟩
  · exact absurd ((endTick_mode t).trans he) (hlive e)
  · simp [h, hmode]

/-- At most one instruction is the one that the next Tick executes. -/
theorem State.Executes.unique {s : State} {i j : Instr} (hi : s.Executes i) (hj : s.Executes j) : i = j := by
  obtain ⟨hloaded, hrunning, op, hop, hdi⟩ := hi
  rw [executes_iff s op j hloaded hrunning hop, hdi] at hj
  exact Except.ok.inj hj

/-- The drawing instruction that a Tick executes is the one it decodes (40_cycle_and_host.md R69). -/
theorem State.Executes.draws_iff {s : State} {i : Instr} (hi : s.Executes i) :
    (s.Executes .cls ∨ ∃ x y n, s.Executes (.drw x y n)) ↔ i = .cls ∨ ∃ x y n, i = .drw x y n := by
  have hiff (j : Instr) : s.Executes j ↔ i = j := ⟨hi.unique, fun h => h ▸ hi⟩
  simp only [hiff]

/-- Under `PER_TICK` a Tick that executes no instruction and leaves `Touched` false has the `Dirty` that O50 asks. -/
theorem dirty_iff_draws_of_none {s u : State} (hno : ∀ i, ¬ s.Executes i) (htouched : u.touched = false)
    (hmode : u.cfg.dirtyMode = .perTick) (hlive : ∀ e, (endTick u).mode ≠ .halted e) :
    (endTick u).dirty = true ↔ s.Executes .cls ∨ ∃ x y n, s.Executes (.drw x y n) := by
  rw [endTick_dirty_perTick u hmode hlive, htouched]
  simp [hno]

/-- Settles O50: `Touched` starts a Tick false, only the executed instruction can set it, and `Dirty` ends at it. -/
theorem dirtyExactlyAfterClsOrDrw : Obligations.DirtyExactlyAfterClsOrDrw := by
  unfold Obligations.DirtyExactlyAfterClsOrDrw
  intro r s t hmode h ⟨_, hlive⟩
  obtain ⟨hl, ⟨e, hm, rfl⟩ | ⟨q, hm, rfl⟩ | ⟨hm, ⟨a, _, rfl⟩ | ⟨op, e, hop, hd, rfl⟩ | ⟨op, i, u, hop, hd, hu, rfl⟩⟩⟩ :=
    tick_cases r s t h
  · exact absurd hm (hlive e)
  · have hno (i : Instr) : ¬ s.Executes i := by
      rintro ⟨_, hrun, _⟩
      rw [hm] at hrun
      cases hrun
    exact dirty_iff_draws_of_none hno (by simp) (by simpa using hmode) hlive
  · exact absurd (endTick_mode _) (hlive _)
  · have hno (i : Instr) : ¬ s.Executes i := by
      rw [executes_iff s op i hl hm hop, hd]
      nofun
    exact dirty_iff_draws_of_none hno rfl hmode hlive
  · obtain ⟨hcfg, _⟩ := exec_keeps i _ u hu
    have hexec : s.Executes i := ⟨hl, hm, op, hop, hd⟩
    have hlive' (e : FatalError) : u.mode ≠ .halted e := endTick_mode u ▸ hlive e
    rw [endTick_dirty_perTick u (by rw [hcfg]; exact hmode) hlive, exec_touched_iff i _ u hu rfl hlive',
      hexec.draws_iff]

end Sys2Proof.Machine
end

section
/-! SUPPORT. What a block store leaves in memory, byte by byte, and the claims of 20_memory.md that rest on it: O45, O47,
O54 and O43. -/

namespace Sys2Proof.Machine

/-! ## The bytes after a block store (20_memory.md R41, R43, R44) -/

/-- Addresses that all have a memory index make a legal block (R41). -/
theorem blockInMemory_of_eaRange_ok (c : Config) (a n : Nat) (as : List Nat) (h : eaRange c a n = .ok as) :
    BlockInMemory c a n := by
  by_contra hout
  obtain ⟨hn, hout⟩ := not_or.mp hout
  obtain ⟨hwrap, hlt⟩ := not_or.mp hout
  have hfault : c.addrOor = .fault := by
    cases hc : c.addrOor with
    | fault => rfl
    | wrap => exact absurd hc hwrap
  rw [eaRange_outside c a n hfault (by simpa using hlt) (by omega)] at h
  cases h

/-- The memory that a block store answers: each byte written at the memory index of its address. -/
theorem storeBlock_ok_mem (s : State) (a : Nat) (vals : List Byte) (m : Memory) (h : storeBlock s a vals = .ok m) :
    m = memWriteAll s.cfg s.mem ((List.range vals.length).map fun j => memIndex (a + j)) vals := by
  rcases storeBlock_cases s a vals with ⟨as, has, _, hs⟩ | ⟨_, _, _, _, hs⟩ | ⟨_, _, hs⟩
  · rw [eaRange_ok _ _ _ (blockInMemory_of_eaRange_ok _ _ _ _ has)] at has
    cases has
    exact Except.ok.inj (h.symm.trans hs)
  · rw [hs] at h; cases h
  · rw [hs] at h; cases h

/-- A block store changes no byte but those of its block (R43). -/
theorem storeBlock_memByte (s : State) (a : Nat) (vals : List Byte) (m : Memory) (h : storeBlock s a vals = .ok m)
    (b : Nat) : memByte s.cfg m b = memByte s.cfg s.mem b ∨ ∃ j, j < vals.length ∧ b = memIndex (a + j) := by
  by_cases hb : ∃ j, j < vals.length ∧ b = memIndex (a + j)
  · exact .inr hb
  · rw [storeBlock_ok_mem s a vals m h]
    refine .inl (memByte_writeAll_other _ _ _ _ _ fun hmem => hb ?_)
    obtain ⟨j, hj, rfl⟩ := List.mem_map.mp hmem
    exact ⟨j, List.mem_range.mp hj, rfl⟩

/-- After `LD [I], Vx` each address of the block outside the font holds its register's byte (49_memory_ops.md R132). -/
theorem storeBlock_regBlock_memByte (s : State) (x j : Nibble) (m : Memory)
    (h : storeBlock s s.i.toNat (regBlock s.v x) = .ok m) (hj : j.toNat ≤ x.toNat)
    (hfont : isFont s.cfg (memIndex (s.i.toNat + j.toNat)) = false) :
    memByte s.cfg m (memIndex (s.i.toNat + j.toNat)) = s.reg j := by
  have hlen := regBlock_length s.v x
  have hx := x.isLt
  obtain ⟨hat, _⟩ := memByte_writeBlock s.cfg s.mem s.i.toNat (regBlock s.v x) (by omega)
    (memIndex (s.i.toNat + j.toNat))
  rw [storeBlock_ok_mem _ _ _ _ h, hat j.toNat (by omega) rfl hfont]
  exact regBlock_get _ _ _ _ j.isLt

/-- The memory index of an address inside memory is the address (R41). -/
theorem memIndex_of_le (a : Nat) (h : a ≤ 0xFFF) : memIndex a = a := Nat.mod_eq_of_lt (by omega)

/-! ## Stores and the next fetch (R52) -/

/-- Settles O45: the core did not halt, so the block was stored; the next fetch reads two bytes of it, one register
each. -/
theorem storedBytesAreFetchedAtOnce : Obligations.StoredBytesAreFetchedAtOnce := by
  unfold Obligations.StoredBytesAreFetchedAtOnce
  intro s t j k x hpc _ hj hk hkx hfont₂ hfont₃ h hmode hlive
  rcases execStoreRegs_cases x s t h with ⟨m, hm, rfl⟩ | ⟨e, _, rfl⟩
  · have hpc₂ : (s.pc + 2#16).toNat = s.pc.toNat + 2 := by
      rw [BitVec.toNat_add, BitVec.toNat_ofNat]; omega
    have hstored (q : Nibble) (a : Nat) (hq : s.i.toNat + q.toNat = a) (ha : a ≤ 0xFFF) (hqx : q.toNat ≤ x.toNat)
        (hfont : isFont s.cfg a = false) : memByte s.cfg m a = s.reg q := by
      have hidx : memIndex (s.i.toNat + q.toNat) = a := by rw [hq, memIndex_of_le a ha]
      rw [← hidx] at hfont ⊢
      exact storeBlock_regBlock_memByte s x q m hm hqx hfont
    rw [fetch_inside _ (by rw [advance_pc, hpc₂]; omega), advance_pc, hpc₂]
    simp only [State.readByte, advance_cfg, advance_mem]
    rw [hstored j _ hj (by omega) (by omega) hfont₂, hstored k _ (by omega) (by omega) hkx hfont₃]
  · exact absurd hmode.symm (hlive e)

/-! ## Who writes memory (R35) -/

/-- Only `LD B` and `LD [I]` make a block store, of their own bytes; every other instruction, and one that raises,
leaves memory alone (R35). -/
theorem exec_mem_cases (i : Instr) (s t : State) (h : exec i s = .next t) :
    t.mem = s.mem ∨
    (∃ x, i = .ldB x ∧ storeBlock s s.i.toNat (bcdDigits (s.reg x)) = .ok t.mem) ∨
    (∃ x, i = .storeRegs x ∧ storeBlock s s.i.toNat (regBlock s.v x) = .ok t.mem) := by
  cases i <;> simp only [exec] at h
  case ldB x =>
    rcases execLdB_cases _ _ _ h with ⟨_, hm, rfl⟩ | ⟨_, _, rfl⟩
    · exact .inr (.inl ⟨x, rfl, hm⟩)
    · exact .inl rfl
  case storeRegs x =>
    rcases execStoreRegs_cases _ _ _ h with ⟨_, hm, rfl⟩ | ⟨_, _, rfl⟩
    · exact .inr (.inr ⟨x, rfl, hm⟩)
    · exact .inl rfl
  case ret => rcases execRet_cases _ _ h with ⟨_, rfl⟩ | ⟨_, rfl⟩ <;> exact .inl rfl
  case call => rcases execCall_cases _ _ _ h with ⟨_, rfl⟩ | ⟨_, rfl⟩ <;> exact .inl rfl
  case drw => rcases execDrw_cases _ _ _ _ _ h with ⟨_, _, rfl⟩ | ⟨_, _, rfl⟩ <;> exact .inl rfl
  case ldKey => rcases execLdKey_cases _ _ _ h with ⟨_, _, _, rfl⟩ | ⟨_, rfl⟩ <;> exact .inl rfl
  case loadRegs => rcases execLoadRegs_cases _ _ _ h with ⟨_, _, rfl⟩ | ⟨_, _, rfl⟩ <;> exact .inl rfl
  all_goals (cases h; exact .inl (by simp))

/-- Settles O47: memory is kept, or it is what one of the two stores leaves, which keeps the bytes outside its block. -/
theorem memoryWrittenOnlyByTheStores : Obligations.MemoryWrittenOnlyByTheStores := by
  unfold Obligations.MemoryWrittenOnlyByTheStores
  intro i s t a h
  obtain ⟨hcfg, _⟩ := exec_keeps i s t h
  rw [State.readByte, State.readByte, hcfg]
  rcases exec_mem_cases i s t h with hm | ⟨x, rfl, hm⟩ | ⟨x, rfl, hm⟩
  · exact .inl (by rw [hm])
  · exact (storeBlock_memByte _ _ _ _ hm a).imp_right fun hblock => .inl ⟨x, rfl, hblock⟩
  · refine (storeBlock_memByte _ _ _ _ hm a).imp_right fun ⟨j, hj, ha⟩ => .inr ⟨x, rfl, j, ?_, ha⟩
    rw [regBlock_length] at hj
    omega

/-! ## The font and a single `MemWrite` (R39, R43) -/

/-- Settles O54: a step is a Tick, and a Tick changes no font byte. -/
theorem stepKeepsEveryFontByte : Obligations.StepKeepsEveryFontByte := by
  unfold Obligations.StepKeepsEveryFontByte
  intro s t a h ha
  exact tick_readByte_font _ (drawRandom s) t a h ha

/-- Settles O43: the read after a `MemWrite` is `memByte_write`, at any index. -/
theorem memWriteSetsOneByteOutsideTheFont : Obligations.MemWriteSetsOneByteOutsideTheFont := by
  unfold Obligations.MemWriteSetsOneByteOutsideTheFont
  intro c m _ i b v _
  simp only [memByte_write, eq_comm (a := i)]

end Sys2Proof.Machine
end

section
/-! SUPPORT. The decoder and the encoder against each other and against the tables of 30_encoding.md: O1 to O5. -/

namespace Sys2Proof

/-! ## Words from their fields, fields as numbers (30_encoding.md R55, R56; 20_memory.md R44) -/

theorem joinBytes_highByte_lowByte (w : Word) : joinBytes (highByte w) (lowByte w) = w := by
  apply BitVec.eq_of_toNat_eq
  unfold joinBytes highByte lowByte
  rw [BitVec.toNat_append, ← Nat.shiftLeft_add_eq_or_of_lt (BitVec.isLt _)]
  simp only [BitVec.extractLsb'_toNat]
  omega

/-- Format FA: a word is its leading nibble with its `nnn`. -/
theorem addr_word {op : Word} {o : Nibble} (ho : fieldO op = o) : o ++ fieldNNN op = op := by
  subst ho
  exact (word_eq_addr op).symm

/-- Formats FXK and FX: a word is its leading nibble with its `x` and `kk`. -/
theorem xkk_word {op : Word} {o : Nibble} {kk : Byte} (ho : fieldO op = o) (hkk : fieldKK op = kk) :
    o ++ fieldX op ++ kk = op := by
  subst ho hkk
  exact (word_eq_xkk op).symm

/-- Formats FXY and FXYN: a word is its leading nibble with its `x`, `y` and `n`. -/
theorem xyn_word {op : Word} {o n : Nibble} (ho : fieldO op = o) (hn : fieldN op = n) :
    o ++ fieldX op ++ fieldY op ++ n = op := by
  subst ho hn
  exact (word_eq_xyn op).symm

theorem fieldO_toNat (op : Word) : (fieldO op).toNat = op.toNat / 4096 := by
  have := op.isLt
  rw [fieldO, BitVec.extractLsb'_toNat, Nat.shiftRight_eq_div_pow]
  omega

theorem fieldN_toNat (op : Word) : (fieldN op).toNat = op.toNat % 16 := by
  rw [fieldN, BitVec.extractLsb'_toNat, Nat.shiftRight_zero]

theorem fieldKK_toNat (op : Word) : (fieldKK op).toNat = op.toNat % 256 := by
  rw [fieldKK, BitVec.extractLsb'_toNat, Nat.shiftRight_zero]

/-! ## Fields of a literal word and of a masked word -/

theorem fieldO_ofNat (k : Nat) : fieldO (BitVec.ofNat 16 k) = BitVec.ofNat 4 (k / 4096) := by
  apply BitVec.eq_of_toNat_eq
  rw [fieldO_toNat, BitVec.toNat_ofNat, BitVec.toNat_ofNat]
  omega

theorem fieldN_ofNat (k : Nat) : fieldN (BitVec.ofNat 16 k) = BitVec.ofNat 4 k := by
  apply BitVec.eq_of_toNat_eq
  rw [fieldN_toNat, BitVec.toNat_ofNat, BitVec.toNat_ofNat]
  omega

theorem fieldKK_ofNat (k : Nat) : fieldKK (BitVec.ofNat 16 k) = BitVec.ofNat 8 k := by
  apply BitVec.eq_of_toNat_eq
  rw [fieldKK_toNat, BitVec.toNat_ofNat, BitVec.toNat_ofNat]
  omega

theorem fieldO_and (a b : Word) : fieldO (a &&& b) = fieldO a &&& fieldO b := BitVec.extractLsb'_and

theorem fieldN_and (a b : Word) : fieldN (a &&& b) = fieldN a &&& fieldN b := BitVec.extractLsb'_and

theorem fieldKK_and (a b : Word) : fieldKK (a &&& b) = fieldKK a &&& fieldKK b := BitVec.extractLsb'_and

/-! ## Decoding an encoded instruction -/

/-- Decoding the word of a valid instruction gives it back (30_encoding.md R59, R60): one case per part of the
decoder. -/
theorem decode_encode (pol : SysPolicy) (i : Instr) (h : i.validUnder pol = true) : decode pol (encode i) = .ok i := by
  cases i <;> rw [encode]
  case sys nnn =>
    cases pol with
    | nop => rw [decode_zero _ _ h, decodeZero, fieldNNN_addr]
    | unknown => cases h
  case cls | ret => rfl
  case jp | call | ldI | jpV0 | seImm | sneImm | ldImm | addImm | rnd | seReg | sneReg | drw =>
    rw [decode_of_nibble] <;> simp [decodeByNibble]
  case ldReg | orReg | andReg | xorReg | addReg | sub | shr | subn | shl =>
    rw [decode_of_nibble] <;> simp [decodeByNibble, decodeEight]
  case skp | sknp => rw [decode_of_nibble] <;> simp [decodeByNibble, decodeE]
  case ldKey | ldFromDt | ldDt | ldSt | addI | ldF | ldB | storeRegs | loadRegs =>
    rw [decode_of_nibble] <;> simp [decodeByNibble, decodeF]

/-- Settles O1: by word `decode_encode`, and the two bytes of a word join to that word. -/
theorem decodeInvertsEncode : Obligations.DecodeInvertsEncode := by
  unfold Obligations.DecodeInvertsEncode
  intro pol i rest h
  have hword := decode_encode pol i h
  refine ⟨hword, ?_⟩
  rw [encodeBytes, List.cons_append, List.cons_append, List.nil_append, decodeBytes, joinBytes_highByte_lowByte, hword]

/-! ## What the decoder answers -/

/-- R61's table of illegal words, by leading nibble. -/
def IllegalWord (pol : SysPolicy) (op : Word) : Prop :=
  match fieldO op with
  | 0x0#4 => pol = .unknown ∧ op ≠ 0x00E0#16 ∧ op ≠ 0x00EE#16
  | 0x5#4 | 0x9#4 => fieldN op ≠ 0x0#4
  | 0x8#4 => fieldN op = 0x8#4 ∨ fieldN op = 0x9#4 ∨ fieldN op = 0xA#4 ∨ fieldN op = 0xB#4 ∨ fieldN op = 0xC#4 ∨
      fieldN op = 0xD#4 ∨ fieldN op = 0xF#4
  | 0xE#4 => fieldKK op ≠ 0x9E#8 ∧ fieldKK op ≠ 0xA1#8
  | 0xF#4 => fieldKK op ≠ 0x07#8 ∧ fieldKK op ≠ 0x0A#8 ∧ fieldKK op ≠ 0x15#8 ∧ fieldKK op ≠ 0x18#8 ∧
      fieldKK op ≠ 0x1E#8 ∧ fieldKK op ≠ 0x29#8 ∧ fieldKK op ≠ 0x33#8 ∧ fieldKK op ≠ 0x55#8 ∧ fieldKK op ≠ 0x65#8
  | _ => False

/-- What `Decode` may answer on a word: a valid instruction with that word when the word is legal, `Unknown` of it when
it is not (30_encoding.md R60, R61). -/
def IsReading (pol : SysPolicy) (op : Word) : Except DecodeError Instr → Prop
  | .ok i => ¬ IllegalWord pol op ∧ i.validUnder pol = true ∧ encode i = op
  | .error e => IllegalWord pol op ∧ e = .unknown op

/-- Every instruction but `SYS` is valid under both policies (30_encoding.md R59, R60). -/
theorem validUnder_of_ne_sys (pol : SysPolicy) (i : Instr) (h : ∀ nnn, i ≠ .sys nnn) : i.validUnder pol = true := by
  cases i <;> cases pol
  case sys.nop | sys.unknown => exact absurd rfl (h _)
  all_goals rfl

theorem isReading_ok {pol : SysPolicy} {op : Word} {i : Instr} (hlegal : ¬ IllegalWord pol op)
    (hsys : ∀ nnn, i ≠ .sys nnn) (hword : encode i = op) : IsReading pol op (.ok i) :=
  ⟨hlegal, validUnder_of_ne_sys pol i hsys, hword⟩

/-- The rows `8xyn` (30_encoding.md R59, R61). -/
theorem decodeEight_isReading (pol : SysPolicy) (op : Word) (ho : fieldO op = 0x8#4) :
    IsReading pol op (decodeEight op) := by
  unfold decodeEight
  split
  case h_10 => exact ⟨by simp only [IllegalWord, ho, imp_false] at *; bv_omega, rfl⟩
  all_goals exact isReading_ok (by simp [IllegalWord, *]) nofun (xyn_word ho ‹_›)

/-- The rows `Exkk` (30_encoding.md R59, R61). -/
theorem decodeE_isReading (pol : SysPolicy) (op : Word) (ho : fieldO op = 0xE#4) :
    IsReading pol op (decodeE op) := by
  unfold decodeE
  split
  case h_3 => exact ⟨by simp_all [IllegalWord], rfl⟩
  all_goals exact isReading_ok (by simp [IllegalWord, *]) nofun (xkk_word ho ‹_›)

/-- The rows `Fxkk` (30_encoding.md R59, R61). -/
theorem decodeF_isReading (pol : SysPolicy) (op : Word) (ho : fieldO op = 0xF#4) :
    IsReading pol op (decodeF op) := by
  unfold decodeF
  split
  case h_10 => exact ⟨by simp_all [IllegalWord], rfl⟩
  all_goals exact isReading_ok (by simp [IllegalWord, *]) nofun (xkk_word ho ‹_›)

/-- A `0nnn` word that is neither `CLS` nor `RET` has an operand that `SYS` may have (30_encoding.md R59). -/
theorem sysOperandOk_fieldNNN (op : Word) (ho : fieldO op = 0x0#4) (hcls : op ≠ 0x00E0#16) (hret : op ≠ 0x00EE#16) :
    sysOperandOk (fieldNNN op) = true := by
  rw [← addr_word ho] at hcls hret
  rw [sysOperandOk, Bool.and_eq_true, bne_iff_ne, bne_iff_ne]
  exact ⟨fun h => hcls (by rw [h]; rfl), fun h => hret (by rw [h]; rfl)⟩

/-- The row `0nnn` under each policy (30_encoding.md R60). -/
theorem decodeZero_isReading (pol : SysPolicy) (op : Word) (ho : fieldO op = 0x0#4) (hcls : op ≠ 0x00E0#16)
    (hret : op ≠ 0x00EE#16) : IsReading pol op (decodeZero pol op) := by
  cases pol with
  | nop => exact ⟨by simp [IllegalWord, ho], sysOperandOk_fieldNNN op ho hcls hret, addr_word ho⟩
  | unknown => exact ⟨by simp [IllegalWord, ho, hcls, hret], rfl⟩

/-- The arms of the decoder by leading nibble: arm `h_k` is nibble `k - 1`. -/
theorem decodeByNibble_isReading (pol : SysPolicy) (op : Word) (hcls : op ≠ 0x00E0#16) (hret : op ≠ 0x00EE#16) :
    IsReading pol op (decodeByNibble pol op) := by
  unfold decodeByNibble
  split
  case h_1 ho => exact decodeZero_isReading pol op ho hcls hret
  case h_2 ho | h_3 ho | h_11 ho | h_12 ho => exact isReading_ok (by simp [IllegalWord, ho]) nofun (addr_word ho)
  case h_4 ho | h_5 ho | h_7 ho | h_8 ho | h_13 ho =>
    exact isReading_ok (by simp [IllegalWord, ho]) nofun (xkk_word ho rfl)
  case h_6 ho | h_10 ho =>
    split
    · exact isReading_ok (by simp [IllegalWord, *]) nofun (xyn_word ho ‹_›)
    · exact ⟨by simp [IllegalWord, *], rfl⟩
  case h_9 ho => exact decodeEight_isReading pol op ho
  case h_14 ho => exact isReading_ok (by simp [IllegalWord, ho]) nofun (xyn_word ho rfl)
  case h_15 ho => exact decodeE_isReading pol op ho
  case h_16 => exact decodeF_isReading pol op (by simp only [imp_false] at *; bv_omega)

/-- Everything that `Decode` can answer, on every word (30_encoding.md R60, R61). -/
theorem decode_isReading (pol : SysPolicy) (op : Word) : IsReading pol op (decode pol op) := by
  unfold decode
  split
  next h => subst h; exact isReading_ok (by simp [IllegalWord, fieldO]) nofun rfl
  next hcls =>
    split
    next h => subst h; exact isReading_ok (by simp [IllegalWord, fieldO]) nofun rfl
    next hret => exact decodeByNibble_isReading pol op hcls hret

/-- Settles O2: it is part of what `decode_isReading` says of an answered instruction. -/
theorem encodeInvertsDecode : Obligations.EncodeInvertsDecode := by
  unfold Obligations.EncodeInvertsDecode
  intro pol op i h
  have hread := decode_isReading pol op
  rw [h] at hread
  obtain ⟨_, hvalid, hword⟩ := hread
  exact ⟨hvalid, hword⟩

/-! ## Illegal words (30_encoding.md R61) -/

/-- The only error of `Decode` is `Unknown` of its word (30_encoding.md R60). -/
theorem decode_total (pol : SysPolicy) (op : Word) :
    (∃ i, decode pol op = .ok i) ∨ decode pol op = .error (.unknown op) := by
  have hread := decode_isReading pol op
  cases hd : decode pol op with
  | ok i => exact .inl ⟨i, rfl⟩
  | error e =>
    rw [hd] at hread
    obtain ⟨_, rfl⟩ := hread
    exact .inr rfl

theorem decode_error_iff (pol : SysPolicy) (op : Word) :
    decode pol op = .error (.unknown op) ↔ IllegalWord pol op := by
  have hread := decode_isReading pol op
  rcases decode_total pol op with ⟨i, hd⟩ | hd <;> rw [hd] at hread ⊢
  · obtain ⟨hlegal, _⟩ := hread
    exact iff_of_false nofun hlegal
  · obtain ⟨hillegal, _⟩ := hread
    exact iff_of_true rfl hillegal

/-- Settles O3: `decode_total`, and the listed rows are those of `IllegalWord`, nibble by nibble. -/
theorem illegalWordsAreExactlyTheListed : Obligations.IllegalWordsAreExactlyTheListed := by
  unfold Obligations.IllegalWordsAreExactlyTheListed
  intro pol op
  refine ⟨decode_total pol op, (decode_error_iff pol op).trans ?_⟩
  rw [← fieldO_toNat, ← fieldN_toNat, ← fieldKK_toNat]
  unfold IllegalWord
  split
  case h_7 => exact iff_of_false not_false (by simp only [imp_false] at *; bv_omega)
  all_goals simp [*, BitVec.toNat_eq]

/-! ## Rows of the opcode table (30_encoding.md R59, R60) -/

/-- Every row's mask tests the leading nibble. -/
theorem fieldO_of_matches_row (op : Word) (i : Instr) (h : op &&& (opcodeRow i).2 = (opcodeRow i).1) :
    fieldO op = fieldO (opcodeRow i).1 := by
  have hmask : fieldO (opcodeRow i).2 = BitVec.allOnes 4 := by cases i <;> exact fieldO_ofNat _
  rw [← h, fieldO_and, hmask, BitVec.and_allOnes]

/-- The masks of the rows selected by `n` (30_encoding.md R58). -/
theorem fieldN_of_mask {op m : Word} (h : op &&& 0xF00F#16 = m) : fieldN op = fieldN m := by
  rw [← h, fieldN_and, show fieldN 0xF00F#16 = BitVec.allOnes 4 from fieldN_ofNat _, BitVec.and_allOnes]

/-- The masks of the rows selected by `kk` (30_encoding.md R58). -/
theorem fieldKK_of_mask {op m : Word} (h : op &&& 0xF0FF#16 = m) : fieldKK op = fieldKK m := by
  rw [← h, fieldKK_and, show fieldKK 0xF0FF#16 = BitVec.allOnes 8 from fieldKK_ofNat _, BitVec.and_allOnes]

/-- A word that matches a row other than `0nnn` decodes to an instruction of that row (30_encoding.md R60): the mask
tests the fields that select the decoder's arm. -/
theorem decode_of_matches_row (op : Word) (i : Instr) (h : op &&& (opcodeRow i).2 = (opcodeRow i).1)
    (hsys : (opcodeRow i).1 ≠ 0x0000#16) : ∃ k, decode .nop op = .ok k ∧ opcodeRow k = opcodeRow i := by
  have ho := fieldO_of_matches_row op i h
  cases i <;> simp only [opcodeRow, fieldO_ofNat, Nat.reduceDiv] at ho
  case sys => exact absurd rfl hsys
  case cls | ret =>
    obtain rfl : op = _ := BitVec.and_allOnes.symm.trans h
    exact ⟨_, rfl, rfl⟩
  case jp | call | ldI | jpV0 | seImm | sneImm | ldImm | addImm | rnd | drw =>
    rw [decode_of_nibble _ _ (by simp [ho])]
    simp [decodeByNibble, ho, opcodeRow]
  case seReg | sneReg | ldReg | orReg | andReg | xorReg | addReg | sub | shr | subn | shl =>
    have hn := fieldN_of_mask h
    simp only [opcodeRow, fieldN_ofNat] at hn
    rw [decode_of_nibble _ _ (by simp [ho])]
    simp [decodeByNibble, ho, decodeEight, hn, opcodeRow]
  case skp | sknp | ldKey | ldFromDt | ldDt | ldSt | addI | ldF | ldB | storeRegs | loadRegs =>
    have hkk := fieldKK_of_mask h
    simp only [opcodeRow, fieldKK_ofNat] at hkk
    rw [decode_of_nibble _ _ (by simp [ho])]
    simp [decodeByNibble, ho, decodeE, decodeF, hkk, opcodeRow]

/-- Settles O4: both rows are the row of the one instruction that the word decodes to. -/
theorem opcodeRowsDoNotOverlap : Obligations.OpcodeRowsDoNotOverlap := by
  unfold Obligations.OpcodeRowsDoNotOverlap
  intro op i j hi hj hsysi hsysj
  obtain ⟨k, hk, hki⟩ := decode_of_matches_row op i hi hsysi
  obtain ⟨k', hk', hkj⟩ := decode_of_matches_row op j hj hsysj
  obtain rfl : k = k' := Except.ok.inj (hk.symm.trans hk')
  rw [← hki, hkj]

/-! ## Decode vectors (95_test_vectors.md E1 to E19) -/

/-- Settles O5 by running the decoder on each of the listed words. -/
theorem listedWordsDecodeAsListed : Obligations.ListedWordsDecodeAsListed := by
  unfold Obligations.ListedWordsDecodeAsListed
  decide

end Sys2Proof
end

section
/-! SUPPORT. The cycle (40_cycle_and_host.md R67 to R77): what a fetch reads, what a Tick does in each mode and what it
returns; O8 and O13. -/

namespace Sys2Proof.Machine

/-! ## Fetch (R70) -/

/-- The big-endian word of two bytes as a number (20_memory.md R44). -/
theorem joinBytes_toNat (hi lo : Byte) : (joinBytes hi lo).toNat = 256 * hi.toNat + lo.toNat := by
  rw [joinBytes, BitVec.toNat_append, ← Nat.shiftLeft_add_eq_or_of_lt lo.isLt, Nat.shiftLeft_eq]
  omega

/-- Under `ADDR_OOR = WRAP` every address is legal at its remainder mod 4096 (20_memory.md R41). -/
theorem ea_wrap (c : Config) (a : Nat) (hw : c.addrOor = .wrap) : ea c a = .ok (a % 4096) := by
  unfold ea
  split
  · rw [Nat.mod_eq_of_lt (by omega)]
  · rw [hw]; rfl

theorem fetch_wrap (s : State) (hw : s.cfg.addrOor = .wrap) :
    fetch s = .ok (joinBytes (s.readByte (s.pc.toNat % 4096)) (s.readByte ((s.pc.toNat + 1) % 4096))) := by
  rw [fetch, ea_wrap _ _ hw, ea_wrap _ _ hw]

/-- Under `ADDR_OOR = FAULT` a fetch with `PC` past 0xFFE fails at the lower of the two addresses past 0xFFF. -/
theorem fetch_fault (s : State) (hf : s.cfg.addrOor = .fault) (hpc : 0xFFE < s.pc.toNat) :
    fetch s = .error (max s.pc.toNat 0x1000) := by
  cases h : fetch s with
  | ok op => exact absurd (fetch_ok_inside s op hf h) (by omega)
  | error a =>
    obtain ⟨_, _, rfl⟩ := fetch_error s a h
    rfl

/-- Settles O8: inside memory by `fetch_inside`, then the two values of `ADDR_OOR`. -/
theorem fetchIsBigEndianAndChecksItsAddresses : Obligations.FetchIsBigEndianAndChecksItsAddresses := by
  unfold Obligations.FetchIsBigEndianAndChecksItsAddresses
  refine fun s => ⟨fun hpc => ⟨_, fetch_inside s (by omega), joinBytes_toNat _ _⟩,
    fun hw => ⟨_, fetch_wrap s hw, joinBytes_toNat _ _⟩, fun hf hpc => ?_⟩
  rw [fetch_fault s hf hpc]
  congr 1
  split <;> omega

/-! ## A Tick in each mode (R68, R69, R71, R73, R75, R77) -/

theorem tick_not_loaded (r : Byte) (s : State) (hl : s.loaded = false) : tick r s = .fault .notLoaded := by
  rw [tick, hl]; rfl

theorem tick_halted (r : Byte) (s : State) (e : FatalError) (hl : s.loaded = true) (hm : s.mode = .halted e) :
    tick r s = .next { s with tickResult := .halted e } := by
  rw [tick, if_pos hl, hm]

theorem tick_awaitKey (r : Byte) (s : State) (q : Nibble) (hl : s.loaded = true) (hm : s.mode = .awaitKey q) :
    tick r s = .next (endTick (awaitStep q (beginTick r s))) := by
  rw [tick, if_pos hl, hm]

theorem tick_running (r : Byte) (s : State) (hl : s.loaded = true) (hm : s.mode = .running) :
    tick r s = runInstr (beginTick r s) := by
  rw [tick, if_pos hl, hm]

theorem runInstr_fetch_error (s : State) (a : Nat) (hf : fetch s = .error a) :
    runInstr s = .next (endTick (takeFatal (.addressFault a s.pc) s)) := by
  rw [runInstr, hf]

theorem runInstr_unknown (s : State) (op : Word) (e : DecodeError) (hf : fetch s = .ok op)
    (hd : decode s.cfg.sysPolicy op = .error e) : runInstr s = .next (endTick (skipUnknown op s)) := by
  simp only [runInstr, hf, hd]

theorem runInstr_exec (s t : State) (op : Word) (i : Instr) (hf : fetch s = .ok op)
    (hd : decode s.cfg.sysPolicy op = .ok i) (ht : exec i s = .next t) : runInstr s = .next (endTick t) := by
  simp only [runInstr, hf, hd, ht, afterExecute]

/-- A running core always has a next state: a fetch fault and a fatal error are next states too (R67). -/
theorem runInstr_answers (s : State) : ∃ t, runInstr s = .next t := by
  cases hf : fetch s with
  | error a => exact ⟨_, runInstr_fetch_error s a hf⟩
  | ok op =>
    cases hd : decode s.cfg.sysPolicy op with
    | error e => exact ⟨_, runInstr_unknown s op e hf hd⟩
    | ok i =>
      obtain ⟨t, ht⟩ := exec_answers i s
      exact ⟨_, runInstr_exec s t op i hf hd ht⟩

theorem tick_answers (r : Byte) (s : State) (hl : s.loaded = true) : ∃ t, tick r s = .next t := by
  cases hm : s.mode with
  | running => rw [tick_running r s hl hm]; exact runInstr_answers _
  | awaitKey q => exact ⟨_, tick_awaitKey r s q hl hm⟩
  | halted e => exact ⟨_, tick_halted r s e hl hm⟩

/-! ## What a Tick returns (R76) -/

@[simp] theorem endTick_tickResult (s : State) : (endTick s).tickResult = s.tickResult := by rw [endTick_keeps]
@[simp] theorem awaitStep_tickResult (r : Nibble) (s : State) : (awaitStep r s).tickResult = s.tickResult := by
  rcases awaitStep_cases r s with ⟨_, _, h⟩ | ⟨_, h⟩ <;> simp [h]

/-- Only a fatal error writes the result of the Tick during `Execute`. -/
theorem exec_raises_or_keeps_tickResult (i : Instr) (s t : State) (h : exec i s = .next t) :
    (∃ e, t = takeFatal e s) ∨ t.tickResult = s.tickResult := by
  cases i <;> simp only [exec] at h
  case ret =>
    rcases execRet_cases _ _ h with ⟨_, rfl⟩ | ⟨_, rfl⟩
    exacts [.inr rfl, .inl ⟨_, rfl⟩]
  case call =>
    rcases execCall_cases _ _ _ h with ⟨_, rfl⟩ | ⟨_, rfl⟩
    exacts [.inr rfl, .inl ⟨_, rfl⟩]
  case drw =>
    rcases execDrw_cases _ _ _ _ _ h with ⟨_, _, rfl⟩ | ⟨_, _, rfl⟩
    exacts [.inr rfl, .inl ⟨_, rfl⟩]
  case ldB =>
    rcases execLdB_cases _ _ _ h with ⟨_, _, rfl⟩ | ⟨_, _, rfl⟩
    exacts [.inr rfl, .inl ⟨_, rfl⟩]
  case storeRegs =>
    rcases execStoreRegs_cases _ _ _ h with ⟨_, _, rfl⟩ | ⟨_, _, rfl⟩
    exacts [.inr rfl, .inl ⟨_, rfl⟩]
  case loadRegs =>
    rcases execLoadRegs_cases _ _ _ h with ⟨_, _, rfl⟩ | ⟨_, _, rfl⟩
    exacts [.inr rfl, .inl ⟨_, rfl⟩]
  case ldKey => rcases execLdKey_cases _ _ _ h with ⟨_, _, _, rfl⟩ | ⟨_, rfl⟩ <;> exact .inr rfl
  all_goals (cases h; exact .inr (by simp))

/-- An executed instruction ends halted with its error as the result, or completes and leaves the result alone. -/
theorem exec_tickResult (i : Instr) (s t : State) (hm : s.mode = .running) (h : exec i s = .next t) :
    (∃ e, t.tickResult = .fatal e ∧ t.mode = .halted e) ∨
    (t.tickResult = s.tickResult ∧ ∀ e, t.mode ≠ .halted e) := by
  rcases exec_raises_or_flows i s t h with ⟨e, _, rfl⟩ | hf
  · exact .inl ⟨e, rfl, rfl⟩
  · have hlive := hf.not_halted hm
    refine .inr ⟨?_, hlive⟩
    rcases exec_raises_or_keeps_tickResult i s t h with ⟨e, rfl⟩ | hr
    · exact absurd rfl (hlive e)
    · exact hr

/-- Settles O13, by the ways a Tick can go. -/
theorem tickResultsAreTheListed : Obligations.TickResultsAreTheListed := by
  unfold Obligations.TickResultsAreTheListed
  intro r s t h
  obtain ⟨_, ⟨e, hm, rfl⟩ | ⟨q, hm, rfl⟩ | ⟨hm, hrun⟩⟩ := tick_cases r s t h <;> simp only [hm]
  · exact ⟨fun e' he => by cases he; rfl, nofun, nofun⟩
  · exact ⟨nofun, fun _ _ => by simp, nofun⟩
  · refine ⟨nofun, nofun, fun _ => ?_⟩
    rcases hrun with ⟨a, _, rfl⟩ | ⟨op, e, hop, hd, rfl⟩ | ⟨op, i, u, _, _, hu, rfl⟩
    · exact .inr (.inr ⟨.addressFault a s.pc, by simp, by simp⟩)
    · obtain hd' : decode s.cfg.sysPolicy op = .error (.unknown op) :=
        (decode_total _ op).resolve_left (by rw [hd]; nofun)
      exact .inr (.inl ⟨op, hop, hd', by simp, by simpa using hm⟩)
    · simp only [endTick_tickResult, endTick_mode]
      rcases exec_tickResult i (beginTick r s) u hm hu with hfatal | hok
      · exact .inr (.inr hfatal)
      · exact .inl hok

end Sys2Proof.Machine
end

section
/-! SUPPORT. Where the random byte of a Tick can reach (40_cycle_and_host.md R72, R83): `RND` only; O14. -/

namespace Sys2Proof.Machine

/-! ## The latched byte and the parts of a Tick -/

/-- The state with the input `r` latched in place of the byte it holds. -/
def latchInput (r : Byte) (s : State) : State := { s with rnd := r }

theorem beginTick_eq_latchInput (r q : Byte) (s : State) : beginTick r s = latchInput r (beginTick q s) := rfl
@[simp] theorem latchInput_cfg (r : Byte) (s : State) : (latchInput r s).cfg = s.cfg := rfl
@[simp] theorem latchInput_i (r : Byte) (s : State) : (latchInput r s).i = s.i := rfl
@[simp] theorem latchInput_v (r : Byte) (s : State) : (latchInput r s).v = s.v := rfl
@[simp] theorem latchInput_keys (r : Byte) (s : State) : (latchInput r s).keys = s.keys := rfl
@[simp] theorem latchInput_mode (r : Byte) (s : State) : (latchInput r s).mode = s.mode := rfl
@[simp] theorem latchInput_reg (r : Byte) (s : State) (j : Nibble) : (latchInput r s).reg j = s.reg j := rfl
theorem takeFatal_latchInput (r : Byte) (e : FatalError) (s : State) :
    takeFatal e (latchInput r s) = latchInput r (takeFatal e s) := rfl
theorem skipUnknown_latchInput (r : Byte) (op : Word) (s : State) :
    skipUnknown op (latchInput r s) = latchInput r (skipUnknown op s) := rfl
@[simp] theorem loadBlock_latchInput (r : Byte) (s : State) (base n : Nat) :
    loadBlock (latchInput r s) base n = loadBlock s base n := rfl
@[simp] theorem storeBlock_latchInput (r : Byte) (s : State) (base : Nat) (vals : List Byte) :
    storeBlock (latchInput r s) base vals = storeBlock s base vals := rfl

theorem tickTimerStep_latchInput (r : Byte) (s : State) :
    tickTimerStep (latchInput r s) = latchInput r (tickTimerStep s) := by
  unfold tickTimerStep
  rw [latchInput_cfg]
  split <;> rfl

/-- The end of a Tick forgets which byte was latched (log entry 4). -/
theorem endTick_latchInput (r : Byte) (s : State) : endTick (latchInput r s) = endTick s := by
  unfold endTick
  rw [latchInput_mode, tickTimerStep_latchInput]
  split <;> rfl

theorem awaitStep_latchInput (r : Byte) (q : Nibble) (s : State) :
    awaitStep q (latchInput r s) = latchInput r (awaitStep q s) := by
  unfold awaitStep
  rw [latchInput_keys]
  split <;> rfl

theorem writeLogic_latchInput (r : Byte) (x : Nibble) (res : Byte) (s : State) :
    writeLogic x res (latchInput r s) = latchInput r (writeLogic x res s) := by
  unfold writeLogic
  rw [latchInput_cfg]
  split <;> rfl

/-- Every instruction but `RND` does the same for every latched byte, and keeps it latched. -/
theorem exec_latchInput (r : Byte) (i : Instr) (s t : State) (hi : ∀ x kk, i ≠ .rnd x kk) (h : exec i s = .next t) :
    exec i (latchInput r s) = .next (latchInput r t) := by
  cases i <;> simp only [exec] at h ⊢
  case rnd x kk => exact absurd rfl (hi x kk)
  case ret =>
    rcases execRet_cases _ _ h with ⟨hs, rfl⟩ | ⟨hs, rfl⟩
    · exact dif_pos hs
    · exact dif_neg (show ¬ 0 < s.sp.val by omega)
  case call =>
    rcases execCall_cases _ _ _ h with ⟨hs, rfl⟩ | ⟨hs, rfl⟩
    · exact dif_pos hs
    · exact dif_neg (show ¬ s.sp.val < 16 by omega)
  case drw =>
    rw [execDrw, loadBlock_latchInput, latchInput_i]
    rcases execDrw_cases _ _ _ _ _ h with ⟨_, hb, rfl⟩ | ⟨_, hb, rfl⟩ <;> rw [hb] <;> rfl
  case ldB =>
    rw [execLdB, storeBlock_latchInput, latchInput_i, latchInput_reg]
    rcases execLdB_cases _ _ _ h with ⟨_, hb, rfl⟩ | ⟨_, hb, rfl⟩ <;> rw [hb] <;> rfl
  case storeRegs =>
    rw [execStoreRegs, storeBlock_latchInput, latchInput_i, latchInput_v]
    rcases execStoreRegs_cases _ _ _ h with ⟨_, hb, rfl⟩ | ⟨_, hb, rfl⟩ <;> rw [hb] <;> rfl
  case loadRegs =>
    rw [execLoadRegs, loadBlock_latchInput, latchInput_i]
    rcases execLoadRegs_cases _ _ _ h with ⟨_, hb, rfl⟩ | ⟨_, hb, rfl⟩ <;> rw [hb] <;> rfl
  case ldKey x =>
    unfold execLdKey at h ⊢
    rw [latchInput_cfg, latchInput_keys]
    split at h <;> cases h <;> rfl
  case orReg => cases h; rw [execOr, writeLogic_latchInput]; rfl
  case andReg => cases h; rw [execAnd, writeLogic_latchInput]; rfl
  case xorReg => cases h; rw [execXor, writeLogic_latchInput]; rfl
  all_goals (cases h; rfl)

/-- A Tick that fetches no `RND` runs the same for every latched byte. -/
theorem runInstr_latchInput (r : Byte) (s : State)
    (hno : ∀ op x kk, fetch s = .ok op → decode s.cfg.sysPolicy op ≠ .ok (.rnd x kk)) :
    runInstr (latchInput r s) = runInstr s := by
  cases hf : fetch s with
  | error a =>
    rw [runInstr_fetch_error s a hf, runInstr_fetch_error (latchInput r s) a hf, takeFatal_latchInput,
      endTick_latchInput]
    rfl
  | ok op =>
    cases hd : decode s.cfg.sysPolicy op with
    | error e =>
      rw [runInstr_unknown s op e hf hd, runInstr_unknown (latchInput r s) op e hf hd, skipUnknown_latchInput,
        endTick_latchInput]
    | ok i =>
      obtain ⟨t, ht⟩ := exec_answers i s
      have ht' := exec_latchInput r i s t (fun x kk hi => hno op x kk hf (hi ▸ hd)) ht
      rw [runInstr_exec s t op i hf hd ht, runInstr_exec (latchInput r s) _ op i hf hd ht', endTick_latchInput]

/-- Settles O14: the two Ticks start in states that differ in the latched byte only. -/
theorem onlyRndDependsOnTheRandomByte : Obligations.OnlyRndDependsOnTheRandomByte := by
  unfold Obligations.OnlyRndDependsOnTheRandomByte
  intro r q s hno
  cases hl : s.loaded with
  | false => rw [tick_not_loaded r s hl, tick_not_loaded q s hl]
  | true =>
    cases hm : s.mode with
    | halted e => rw [tick_halted r s e hl hm, tick_halted q s e hl hm]
    | awaitKey k =>
      rw [tick_awaitKey r s k hl hm, tick_awaitKey q s k hl hm, beginTick_eq_latchInput r q, awaitStep_latchInput,
        endTick_latchInput]
    | running =>
      rw [tick_running r s hl hm, tick_running q s hl hm, beginTick_eq_latchInput r q]
      exact runInstr_latchInput r _ fun op x kk hf hd => hno x kk ⟨hl, hm, op, hf, hd⟩

end Sys2Proof.Machine
end

section
/-! SUPPORT. The host's operations beside `LoadProgram` (40_cycle_and_host.md R77 to R81; 60_exceptions.md R140); O12,
O58, O59 and O60. -/

namespace Sys2Proof.Machine

/-! ## `TickTimers` in each mode (R68, R78) -/

theorem tickTimers_not_loaded (s : State) (hl : s.loaded = false) : tickTimers s = .fault .notLoaded := by
  rw [tickTimers, hl]; rfl

theorem tickTimers_perTick (s : State) (hl : s.loaded = true) (hp : s.cfg.timerMode = .perTick) :
    tickTimers s = .fault .noTickTimers := by
  rw [tickTimers, if_pos hl, hp]

theorem tickTimers_halted (s : State) (e : FatalError) (hl : s.loaded = true) (hp : s.cfg.timerMode = .separate)
    (hm : s.mode = .halted e) : tickTimers s = .next (.ok, s) := by
  rw [tickTimers, if_pos hl, hp, hm]

theorem tickTimers_live (s : State) (hl : s.loaded = true) (hp : s.cfg.timerMode = .separate)
    (hm : ∀ e, s.mode ≠ .halted e) : tickTimers s = .next (.ok, timerStep s) := by
  rw [tickTimers, if_pos hl, hp]
  cases h : s.mode with
  | running => rfl
  | awaitKey q => rfl
  | halted e => exact absurd h (hm e)

/-- Settles O12: loaded, by `tick_answers`; not loaded, the two operations fault; the other four always answer. -/
theorem tickIsTotalExactlyOnceLoaded : Obligations.TickIsTotalExactlyOnceLoaded := by
  unfold Obligations.TickIsTotalExactlyOnceLoaded
  refine fun r s => ⟨tick_answers r s, fun hl => ⟨fun t => ?_, fun p => ?_⟩, fun op htick htimers => ?_⟩
  · rw [tick_not_loaded r s hl]; nofun
  · rw [hostStep, tickTimers_not_loaded s hl]; nofun
  · cases op with
    | tick q => exact absurd rfl (htick q)
    | tickTimers => exact absurd rfl htimers
    | loadProgram | getDisplay | setKeyState | displayShouldUpdate => exact ⟨_, rfl⟩

/-- Settles O59: `countDown` is the timer step of each timer. -/
theorem tickTimersStepsTheTimersUnderSeparate : Obligations.TickTimersStepsTheTimersUnderSeparate := by
  unfold Obligations.TickTimersStepsTheTimersUnderSeparate
  refine fun s hl => ⟨fun hp p => ?_, fun hp hm => ?_, fun e hp hm => ?_⟩
  · rw [hostStep, tickTimers_perTick s hl hp]; nofun
  · rw [hostStep, tickTimers_live s hl hp hm]; rfl
  · rw [hostStep, tickTimers_halted s e hl hp hm]; rfl

/-! ## The keypad and the display (R79, R80, R81) -/

theorem setKeyState_outside (key : Int) (p : Bool) (s : State) (hk : key < 0 ∨ 15 < key) :
    setKeyState key p s = (.invalidKeyIndex key, s) := if_pos hk

theorem setKeyState_inside (k : Nibble) (p : Bool) (s : State) :
    setKeyState (k.toNat : Int) p s = (.ok, { s with keys := s.keys.setIfInBounds k.toNat p }) := by
  have hk : ¬ ((k.toNat : Int) < 0 ∨ (k.toNat : Int) > 15) := by
    have := k.isLt
    omega
  rw [setKeyState, if_neg hk, Int.toNat_natCast]

/-- The keypad after `K[k] <- p` (10_state.md R27). -/
theorem key_setIfInBounds (s : State) (k j : Nibble) (p : Bool) :
    State.key { s with keys := s.keys.setIfInBounds k.toNat p } j = if j = k then p else s.key j := by
  simp only [State.key, Vector.getElem_setIfInBounds, nibble_toNat_inj, eq_comm]

theorem hostStep_setKeyState_inside (k : Nibble) (p : Bool) (s : State) :
    hostStep (.setKeyState (k.toNat : Int) p) s =
      .next (.result .ok, { s with keys := s.keys.setIfInBounds k.toNat p }) := by
  rw [hostStep, setKeyState_inside]

/-- Settles O58: the two reads as defined, `SetKeyState` by the range of its key. -/
theorem hostReadsTheDisplayAndSetsKeys : Obligations.HostReadsTheDisplayAndSetsKeys := by
  unfold Obligations.HostReadsTheDisplayAndSetsKeys
  refine fun s p => ⟨rfl, rfl, fun key hkey => ?_, fun k => ?_⟩
  · rw [hostStep, setKeyState_outside key p s hkey]
  · exact ⟨_, hostStep_setKeyState_inside k p s, fun j => key_setIfInBounds s k j p, rfl⟩

/-! ## A halted core (R77; 60_exceptions.md R140) -/

theorem hostStep_tick_halted (r : Byte) (s : State) (e : FatalError) (hl : s.loaded = true) (hm : s.mode = .halted e) :
    hostStep (.tick r) s = .next (.result (.halted e), { s with tickResult := .halted e }) := by
  rw [hostStep, tick_halted r s e hl hm]; rfl

/-- `TickTimers` changes nothing of a halted core, where it has a move. -/
theorem hostStep_tickTimers_halted (s t : State) (e : FatalError) (reply : HostReply) (hm : s.mode = .halted e)
    (h : hostStep .tickTimers s = .next (reply, t)) : t = s := by
  rw [hostStep] at h
  cases hl : s.loaded with
  | false => rw [tickTimers_not_loaded s hl] at h; cases h
  | true =>
    cases hp : s.cfg.timerMode with
    | perTick => rw [tickTimers_perTick s hl hp] at h; cases h
    | separate => rw [tickTimers_halted s e hl hp hm] at h; cases h; rfl

/-- All that the host can change of a halted core without `LoadProgram`: the recorded result, the keypad and `Dirty`. -/
theorem hostStep_halted (op : HostOp) (s t : State) (e : FatalError) (reply : HostReply) (hm : s.mode = .halted e)
    (h : hostStep op s = .next (reply, t)) (hop : ∀ bytes, op ≠ .loadProgram bytes) :
    t = { s with tickResult := t.tickResult, keys := t.keys, dirty := t.dirty } := by
  rcases hostStep_cases op s t reply h with
    ⟨bytes, hload, _⟩ | ⟨r, _, ht⟩ | ⟨rfl, _⟩ | ⟨_, _, _, rfl⟩ | ⟨_, rfl⟩ | rfl
  · exact absurd hload (hop bytes)
  · obtain ⟨hl, _⟩ := tick_cases r s t ht
    rw [tick_halted r s e hl hm] at ht
    cases ht; rfl
  · rw [hostStep_tickTimers_halted s t e reply hm h]
  all_goals rfl

theorem hostStep_loadProgram_fits (bytes : List Byte) (s : State) (hb : bytes.length ≤ progMax) :
    hostStep (.loadProgram bytes) s = .next (.result .ok, loadReset bytes s) := by
  rw [hostStep, loadProgram, if_neg (Nat.not_lt.mpr hb)]

/-- Settles O60: a Tick by `tick_halted`, every other operation but `LoadProgram` by `hostStep_halted`. -/
theorem onlyLoadProgramLeavesHalted : Obligations.OnlyLoadProgramLeavesHalted := by
  unfold Obligations.OnlyLoadProgramLeavesHalted
  refine fun s e hm => ⟨fun hl r => hostStep_tick_halted r s e hl hm, fun op t reply h hop => ?_, rfl, rfl,
    fun k p => ⟨_, hostStep_setKeyState_inside k p s, (key_setIfInBounds s k k p).trans (if_pos rfl)⟩,
    fun bytes hb => ⟨_, hostStep_loadProgram_fits bytes s hb, rfl⟩⟩
  rw [hostStep_halted op s t e reply hm h hop]
  exact ⟨hm, rfl, rfl, rfl, rfl, rfl, rfl, rfl, rfl, rfl, rfl⟩

end Sys2Proof.Machine
end

section
/-! SUPPORT. The control family (41_control.md R95 to R99): `RET` and `CALL` by the depth of the stack, a `RET` undoing
its `CALL`; O17 to O21. -/

namespace Sys2Proof.Machine

/-! ## Decoding (30_encoding.md R59 to R61) -/

theorem sysOperandOk_of_ne (nnn : Addr12) (hcls : nnn ≠ 0x0E0#12) (hret : nnn ≠ 0x0EE#12) :
    sysOperandOk nnn = true := by
  rw [sysOperandOk, Bool.and_eq_true, bne_iff_ne, bne_iff_ne]
  exact ⟨hcls, hret⟩

/-- Under `UNKNOWN` no `0nnn` word but `CLS` and `RET` is an instruction (R61). -/
theorem decode_unknown_sys (nnn : Addr12) (h : sysOperandOk nnn = true) :
    decode .unknown (0x0#4 ++ nnn) = .error (.unknown (0x0#4 ++ nnn)) := decode_zero .unknown nnn h

/-! ## Jump targets and the cleared display (R96, R98) -/

theorem zextAddr_toNat (nnn : Addr12) : (zextAddr nnn).toNat = nnn.toNat :=
  BitVec.toNat_setWidth_of_le (by decide)

theorem exec_cls (s : State) :
    exec .cls s = .next (advance { s with display := Vector.replicate 256 0, touched := true }) := rfl

/-! ## `RET` and `CALL` by the depth of the stack (R97, R99) -/

theorem exec_ret_pop (s : State) (h : 0 < s.sp.val) : exec .ret s = .next (popReturn s h) := dif_pos h

theorem exec_ret_empty (s : State) (h : s.sp.val = 0) : exec .ret s = .next (s.haltedBy (.stackUnderflow s.pc)) := by
  rw [← takeFatal_eq_haltedBy]
  exact dif_neg (by omega)

theorem exec_call_push (nnn : Addr12) (s : State) (h : s.sp.val < 16) :
    exec (.call nnn) s = .next { pushReturn s (s.pc + 2#16) h with pc := zextAddr nnn } := dif_pos h

theorem exec_call_full (nnn : Addr12) (s : State) (h : s.sp.val = 16) :
    exec (.call nnn) s = .next (s.haltedBy (.stackOverflow s.pc)) := by
  rw [← takeFatal_eq_haltedBy]
  exact dif_neg (by omega)

/-- A push writes the entry at `SP` only (10_state.md R20). -/
theorem pushReturn_stack_get (s : State) (a : Word) (h : s.sp.val < 16) (k : Nat) (hk : k < 16) :
    (pushReturn s a h).stack[k] = if k = s.sp.val then a else s.stack[k] := by
  simp only [pushReturn_stack, Vector.getElem_set, eq_comm]

/-- Popping the stack a push left gives back the pushed address and the depth before the push. -/
theorem popReturn_of_pushReturn (s u : State) (a : Word) (h : s.sp.val < 16) (hu : 0 < u.sp.val)
    (hstack : u.stack = (pushReturn s a h).stack) (hsp : u.sp = (pushReturn s a h).sp) :
    (popReturn u hu).pc = a ∧ (popReturn u hu).sp = s.sp := by
  have hdepth : u.sp.val - 1 = s.sp.val := by rw [hsp]; rfl
  constructor
  · simp only [popReturn_pc, hstack, hdepth, pushReturn_stack_get, if_pos]
  · exact Fin.ext hdepth

/-! ## The claims -/

/-- Settles O21: the `CALL` pushes, and popping what it pushed gives back `PC + 2` and the depth. -/
theorem retReturnsAfterItsCall : Obligations.RetReturnsAfterItsCall := by
  unfold Obligations.RetReturnsAfterItsCall
  intro s t u nnn hs hcall hstack hsp
  rw [exec_call_push nnn s hs] at hcall
  cases hcall
  have hu : 0 < u.sp.val := by rw [hsp]; exact Nat.succ_pos _
  exact ⟨_, exec_ret_pop u hu, popReturn_of_pushReturn s u _ hs hu hstack hsp⟩

/-- Settles O17: `SYS` by the policy for `0nnn`, `JP` by its leading nibble and `zextAddr_toNat`. -/
theorem sysOnlyAdvancesAndJpSetsPc : Obligations.SysOnlyAdvancesAndJpSetsPc := by
  unfold Obligations.SysOnlyAdvancesAndJpSetsPc
  refine fun pol s nnn => ⟨fun hcls hret => ?_, rfl, ?_, _, rfl, zextAddr_toNat nnn, rfl⟩
  · have hok := sysOperandOk_of_ne nnn hcls hret
    exact ⟨decode_encode .nop (.sys nnn) hok, decode_unknown_sys nnn hok⟩
  · exact decode_encode pol (.jp nnn) (validUnder_of_ne_sys pol _ nofun)

/-- Settles O18: `exec_cls` writes a display of zeros over any other. -/
theorem clsClearsTheDisplay : Obligations.ClsClearsTheDisplay := by
  unfold Obligations.ClsClearsTheDisplay
  exact fun _ s => ⟨rfl, _, exec_cls s, fun _ h => Vector.getElem_replicate h, rfl⟩

/-- Settles O19, by whether the stack is empty. -/
theorem retPopsOrUnderflows : Obligations.RetPopsOrUnderflows := by
  unfold Obligations.RetPopsOrUnderflows
  refine fun pol s => ⟨rfl, fun k hk hsp => ?_, exec_ret_empty s⟩
  have hdepth : s.sp.val - 1 = k := by omega
  refine ⟨_, exec_ret_pop s (by omega), hdepth, ?_, rfl⟩
  simp only [popReturn_pc, hdepth]

/-- Settles O20, by whether the stack is full. -/
theorem callPushesOrOverflows : Obligations.CallPushesOrOverflows := by
  unfold Obligations.CallPushesOrOverflows
  refine fun pol s nnn => ⟨?_, fun hs => ?_, exec_call_full nnn s⟩
  · exact decode_encode pol (.call nnn) (validUnder_of_ne_sys pol _ nofun)
  · exact ⟨_, exec_call_push nnn s hs, rfl, zextAddr_toNat nnn, pushReturn_stack_get s _ hs, rfl⟩

end Sys2Proof.Machine
end

section
/-! SUPPORT. The skip family (42_skip.md R100 to R103): the words that are skips and those that are not, and a skip by
the comparison it makes; O22. -/

namespace Sys2Proof.Machine

/-! ## Decoding (30_encoding.md R59, R61) -/

/-- Only `SYS` needs the policy to decode (R60). -/
theorem decode_encode_of_ne_sys (pol : SysPolicy) (i : Instr) (h : ∀ nnn, i ≠ .sys nnn) :
    decode pol (encode i) = .ok i := decode_encode pol i (validUnder_of_ne_sys pol i h)

/-- The words `5xyn` and `9xyn` are instructions for `n = 0` only (R61). -/
theorem decode_xyn_unknown (pol : SysPolicy) (o x y n : Nibble) (ho : o = 0x5#4 ∨ o = 0x9#4) (hn : n ≠ 0#4) :
    decode pol (o ++ x ++ y ++ n) = .error (.unknown (o ++ x ++ y ++ n)) := by
  rw [decode_error_iff, IllegalWord, fieldO_xyn, fieldN_xyn]
  obtain rfl | rfl := ho <;> exact hn

/-! ## A skip by the comparison it makes -/

/-- Skip if equal (R100, R102). -/
theorem skipIf_beq (a b : Byte) (s : State) :
    skipIf (a == b) s = { s with pc := s.pc + (if a = b then 4#16 else 2#16) } := by
  simp only [skipIf, beq_iff_eq]

/-- Skip if not equal (R101, R103). -/
theorem skipIf_bne (a b : Byte) (s : State) :
    skipIf (a != b) s = { s with pc := s.pc + (if a = b then 2#16 else 4#16) } := by
  simp only [skipIf, bne_iff_ne, ite_not]

/-! ## The claim -/

/-- Settles O22: the illegal words by `decode_xyn_unknown`, the skips by `decode_encode_of_ne_sys`, then each skip by its
comparison. -/
theorem skipsAddFourOrTwo : Obligations.SkipsAddFourOrTwo := by
  unfold Obligations.SkipsAddFourOrTwo
  intro pol s x y kk
  refine ⟨fun n hn => ⟨?_, ?_⟩, ?_, ?_, ?_, ?_, ?_, ?_, ?_, ?_⟩
  · exact decode_xyn_unknown pol 0x5#4 x y n (.inl rfl) hn
  · exact decode_xyn_unknown pol 0x9#4 x y n (.inr rfl) hn
  · exact decode_encode_of_ne_sys pol (.seImm x kk) nofun
  · exact decode_encode_of_ne_sys pol (.sneImm x kk) nofun
  · exact decode_encode_of_ne_sys pol (.seReg x y) nofun
  · exact decode_encode_of_ne_sys pol (.sneReg x y) nofun
  · exact congrArg Host.Outcome.next (skipIf_beq (s.reg x) kk s)
  · exact congrArg Host.Outcome.next (skipIf_bne (s.reg x) kk s)
  · exact congrArg Host.Outcome.next (skipIf_beq (s.reg x) (s.reg y) s)
  · exact congrArg Host.Outcome.next (skipIf_bne (s.reg x) (s.reg y) s)

end Sys2Proof.Machine
end

section
/-! SUPPORT. The load family (43_load.md R104 to R108): the register write its three register loads share, and the exact
values of its two sums; O24 and O25. -/

namespace Sys2Proof.Machine

/-! ## A register write that advances (R104 to R106) -/

/-- `V[x] <- b`, then the next word: no other register, `VF` included, and no other part of the state. -/
theorem advance_setReg_writes (s : State) (x : Nibble) (b : Byte) :
    (∀ j, (advance (s.setReg x b)).reg j = if j = x then b else s.reg j) ∧
      advance (s.setReg x b) = { s with v := (advance (s.setReg x b)).v, pc := s.pc + 2#16 } :=
  ⟨fun j => by rw [advance_reg, reg_setReg], rfl⟩

/-! ## The sums as numbers (R105, R108) -/

theorem addResult_toNat (a b : Byte) : (addResult a b).toNat = (a.toNat + b.toNat) % 256 :=
  BitVec.toNat_ofNat ..

/-- No carry is lost: the largest sum, 0xFFF + 0xFF, fits in `PC`. -/
theorem jumpOffsetTarget_toNat (nnn : Addr12) (v0 : Byte) :
    (jumpOffsetTarget nnn v0).toNat = nnn.toNat + v0.toNat := by
  have hnnn := nnn.isLt
  have hv0 := v0.isLt
  rw [jumpOffsetTarget, BitVec.toNat_ofNat]
  exact Nat.mod_eq_of_lt (by omega)

/-! ## The claims -/

/-- Settles O24: the words by `decode_encode_of_ne_sys`, the three register loads by `advance_setReg_writes`, the values
of `ADD` and `LD I` by `addResult_toNat` and `zextAddr_toNat`. -/
theorem loadsWriteTheirValue : Obligations.LoadsWriteTheirValue := by
  unfold Obligations.LoadsWriteTheirValue
  intro pol s x y kk nnn
  refine ⟨?_, ?_, ?_, ?_, ?_, ?_, ?_, ?_⟩
  · exact decode_encode_of_ne_sys pol (.ldImm x kk) nofun
  · exact decode_encode_of_ne_sys pol (.addImm x kk) nofun
  · exact decode_encode_of_ne_sys pol (.ldReg x y) nofun
  · exact decode_encode_of_ne_sys pol (.ldI nnn) nofun
  · exact ⟨_, rfl, advance_setReg_writes s x kk⟩
  · obtain ⟨hreg, hframe⟩ := advance_setReg_writes s x (addResult (s.reg x) kk)
    refine ⟨_, rfl, ?_, fun j hj => ?_, hframe⟩
    · rw [hreg, if_pos rfl, addResult_toNat]
    · rw [hreg, if_neg hj]
  · exact ⟨_, rfl, advance_setReg_writes s x (s.reg y)⟩
  · exact ⟨_, rfl, zextAddr_toNat nnn, rfl⟩

/-- Settles O25: the target is the exact sum by `jumpOffsetTarget_toNat`, and bounded by `jumpOffsetTarget_le`. -/
theorem jumpWithOffsetAddsV0 : Obligations.JumpWithOffsetAddsV0 := by
  unfold Obligations.JumpWithOffsetAddsV0
  intro pol s nnn
  refine ⟨decode_encode_of_ne_sys pol (.jpV0 nnn) nofun, _, rfl, ?_, ?_, rfl⟩
  · exact jumpOffsetTarget_toNat nnn (s.reg 0#4)
  · exact jumpOffsetTarget_le nnn (s.reg 0#4)

end Sys2Proof.Machine
end

section
/-! SUPPORT. The arithmetic family (44_arithmetic.md R109 to R117): what a result with its flag writes, the results and
flags as numbers; O26 to O29. -/

namespace Sys2Proof.Machine

/-! ## A result that advances (R109, R110) -/

/-- The result of `OR`, `AND` or `XOR`, then the next word (R110). -/
theorem advance_writeLogic_writes (s : State) (x : Nibble) (res : Byte) :
    advance (writeLogic x res s) = { s with v := (advance (writeLogic x res s)).v, pc := s.pc + 2#16 } ∧
      ∀ j, (advance (writeLogic x res s)).reg j =
        if j = 0xF#4 ∧ s.cfg.logicVf = .reset then 0#8 else if j = x then res else s.reg j := by
  refine ⟨?_, fun j => by rw [advance_reg, reg_writeLogic]; rfl⟩
  unfold writeLogic
  split <;> rfl

/-- A result with its flag, then the next word: the flag is written last, so `x = 15` keeps the flag (R109). -/
theorem advance_writeResultFlag_writes (s : State) (x : Nibble) (res flag : Byte) :
    advance (writeResultFlag x res flag s) =
        { s with v := (advance (writeResultFlag x res flag s)).v, pc := s.pc + 2#16 } ∧
      (advance (writeResultFlag x res flag s)).reg 0xF#4 = flag ∧
      (x ≠ 0xF#4 → (advance (writeResultFlag x res flag s)).reg x = res) ∧
      ∀ j, j ≠ x → j ≠ 0xF#4 → (advance (writeResultFlag x res flag s)).reg j = s.reg j := by
  refine ⟨rfl, ?_, fun hx => ?_, fun j hj hf => ?_⟩
  · rw [advance_reg, reg_writeResultFlag, vf, if_pos rfl]
  · rw [advance_reg, reg_writeResultFlag, vf, if_neg hx, if_pos rfl]
  · exact writeResultFlag_reg_other x j res flag s (not_or.2 ⟨hj, hf⟩)

/-! ## The results and flags as numbers (R113 to R117) -/

theorem flagByte_decide (p : Prop) [Decidable p] : flagByte (decide p) = if p then 1#8 else 0#8 := by
  simp only [flagByte, decide_eq_true_eq]

theorem flagByte_toNat (c : Bool) : (flagByte c).toNat = c.toNat := by
  cases c <;> rfl

theorem carryFlag_eq (a b : Byte) : carryFlag a b = if 255 < a.toNat + b.toNat then 1#8 else 0#8 :=
  flagByte_decide _

theorem notBorrowFlag_eq (a b : Byte) : notBorrowFlag a b = if b.toNat ≤ a.toNat then 1#8 else 0#8 :=
  flagByte_decide _

theorem subResult_toNat (a b : Byte) : ((subResult a b).toNat : Int) = ((a.toNat : Int) - b.toNat) % 256 := by
  rw [subResult, BitVec.toNat_ofInt]
  exact Int.toNat_of_nonneg (Int.emod_nonneg _ (by decide))

/-- Half a byte is a byte. -/
theorem shrResult_toNat (a : Byte) : (shrResult a).toNat = a.toNat / 2 := by
  have ha := a.isLt
  rw [shrResult, BitVec.toNat_ofNat]
  exact Nat.mod_eq_of_lt (by omega)

theorem shlResult_toNat (a : Byte) : (shlResult a).toNat = 2 * a.toNat % 256 := by
  rw [shlResult, BitVec.toNat_ofNat, Nat.mul_comm]

/-- Bit 0 is the remainder by 2. -/
theorem shrFlag_toNat (a : Byte) : (shrFlag a).toNat = a.toNat % 2 := by
  rw [shrFlag, flagByte_toNat, BitVec.getLsbD, Nat.toNat_testBit, Nat.pow_zero, Nat.div_one]

/-- Bit 7 is the top bit, so it is all of the quotient by 128. -/
theorem shlFlag_toNat (a : Byte) : (shlFlag a).toNat = a.toNat / 128 := by
  have ha := a.isLt
  rw [shlFlag, flagByte_toNat, BitVec.getLsbD, Nat.toNat_testBit]
  exact Nat.mod_eq_of_lt (by omega)

theorem shiftOperand_eq (c : Config) (vx vy : Byte) :
    shiftOperand c vx vy = if c.shiftSource = .vy then vy else vx := by
  unfold shiftOperand
  cases c.shiftSource <;> rfl

/-! ## The claims -/

/-- Settles O26: the words by `decode_encode_of_ne_sys`, the three operations by `advance_writeLogic_writes`. -/
theorem logicOpsWriteVxThenClearVf : Obligations.LogicOpsWriteVxThenClearVf := by
  unfold Obligations.LogicOpsWriteVxThenClearVf
  intro pol s x y
  refine ⟨?_, ?_, ?_, ?_, ?_, ?_⟩
  · exact decode_encode_of_ne_sys pol (.orReg x y) nofun
  · exact decode_encode_of_ne_sys pol (.andReg x y) nofun
  · exact decode_encode_of_ne_sys pol (.xorReg x y) nofun
  · exact ⟨_, rfl, advance_writeLogic_writes s x (s.reg x ||| s.reg y)⟩
  · exact ⟨_, rfl, advance_writeLogic_writes s x (s.reg x &&& s.reg y)⟩
  · exact ⟨_, rfl, advance_writeLogic_writes s x (s.reg x ^^^ s.reg y)⟩

/-- Settles O27: what is written by `advance_writeResultFlag_writes`, the carry and the sum by `carryFlag_eq` and
`addResult_toNat`. -/
theorem addSetsCarry : Obligations.AddSetsCarry := by
  unfold Obligations.AddSetsCarry
  intro pol s x y
  obtain ⟨hframe, hflag, hres, hrest⟩ :=
    advance_writeResultFlag_writes s x (addResult (s.reg x) (s.reg y)) (carryFlag (s.reg x) (s.reg y))
  refine ⟨decode_encode_of_ne_sys pol (.addReg x y) nofun, _, rfl, hframe, ?_, fun hx => ?_, hrest⟩
  · rw [hflag, carryFlag_eq]
  · rw [hres hx, addResult_toNat]

/-- A difference `a - b` written to `Vx` with its not-borrow, as numbers: `SUB` and `SUBN` differ in the order of the
operands only (R114, R116). -/
theorem advance_writeDifference_writes (s t : State) (x : Nibble) (a b : Byte)
    (ht : t = advance (writeResultFlag x (subResult a b) (notBorrowFlag a b) s)) :
    t = { s with v := t.v, pc := s.pc + 2#16 } ∧
      t.reg 0xF#4 = (if b.toNat ≤ a.toNat then 1#8 else 0#8) ∧
      (x ≠ 0xF#4 → ((t.reg x).toNat : Int) = (a.toNat - b.toNat : Int) % 256) ∧
      ∀ j, j ≠ x → j ≠ 0xF#4 → t.reg j = s.reg j := by
  subst ht
  obtain ⟨hframe, hflag, hres, hrest⟩ := advance_writeResultFlag_writes s x (subResult a b) (notBorrowFlag a b)
  refine ⟨hframe, ?_, fun hx => ?_, hrest⟩
  · rw [hflag, notBorrowFlag_eq]
  · rw [hres hx, subResult_toNat]

/-- Settles O28: one difference with its not-borrow, `advance_writeDifference_writes`, in both orders of the operands. -/
theorem subtractionsSetNotBorrow : Obligations.SubtractionsSetNotBorrow := by
  unfold Obligations.SubtractionsSetNotBorrow
  intro pol s x y
  refine ⟨?_, ?_, ?_, ?_⟩
  · exact decode_encode_of_ne_sys pol (.sub x y) nofun
  · exact decode_encode_of_ne_sys pol (.subn x y) nofun
  · exact ⟨_, rfl, advance_writeDifference_writes s _ x (s.reg x) (s.reg y) rfl⟩
  · exact ⟨_, rfl, advance_writeDifference_writes s _ x (s.reg y) (s.reg x) rfl⟩

/-- Settles O29: the source by `shiftOperand_eq`, what is written by `advance_writeResultFlag_writes`, the bits as
quotients and remainders by the lemmas of `shrFlag`, `shrResult`, `shlFlag` and `shlResult`. -/
theorem shiftsSetTheShiftedOutBit : Obligations.ShiftsSetTheShiftedOutBit := by
  unfold Obligations.ShiftsSetTheShiftedOutBit
  intro pol s x y src hsrc
  rw [← shiftOperand_eq] at hsrc
  subst hsrc
  refine ⟨?_, ?_, ?_, ?_⟩
  · exact decode_encode_of_ne_sys pol (.shr x y) nofun
  · exact decode_encode_of_ne_sys pol (.shl x y) nofun
  · obtain ⟨hframe, hflag, hres, hrest⟩ := advance_writeResultFlag_writes s x _ _
    refine ⟨_, rfl, hframe, ?_, fun hx => ?_, hrest⟩
    · rw [hflag, shrFlag_toNat]
    · rw [hres hx, shrResult_toNat]
  · obtain ⟨hframe, hflag, hres, hrest⟩ := advance_writeResultFlag_writes s x _ _
    refine ⟨_, rfl, hframe, ?_, fun hx => ?_, hrest⟩
    · rw [hflag, shlFlag_toNat]
    · rw [hres hx, shlResult_toNat]

end Sys2Proof.Machine
end

section
/-! SUPPORT. The random family (45_random.md R118): the Tick of a core that executes a given instruction, and the
registers at its end; O30. -/

namespace Sys2Proof.Machine

@[simp] theorem endTick_reg (s : State) (j : Nibble) : (endTick s).reg j = s.reg j := by rw [endTick_keeps]; rfl

/-- The Tick that executes `i` runs it on the state at the start of that Tick, the input latched, and then ends
(40_cycle_and_host.md R69, R72). -/
theorem tick_of_executes (r : Byte) (s t : State) (i : Instr) (hi : s.Executes i)
    (ht : exec i (beginTick r s) = .next t) : tick r s = .next (endTick t) := by
  obtain ⟨hloaded, hrunning, op, hop, hdecode⟩ := hi
  rw [tick_running r s hloaded hrunning]
  exact runInstr_exec (beginTick r s) t op i hop hdecode ht

/-- Settles O30: the word by `decode_encode_of_ne_sys`, the write by `advance_setReg_writes`; a Tick writes the same from
its own input, which `beginTick` latched, and `endTick` keeps the registers. -/
theorem rndMasksTheTicksRandomByte : Obligations.RndMasksTheTicksRandomByte := by
  unfold Obligations.RndMasksTheTicksRandomByte
  intro pol r s x kk
  refine ⟨?_, ?_, fun hi => ?_⟩
  · exact decode_encode_of_ne_sys pol (.rnd x kk) nofun
  · exact ⟨_, rfl, advance_setReg_writes s x (s.rnd &&& kk)⟩
  · obtain ⟨hreg, _⟩ := advance_setReg_writes (beginTick r s) x (r &&& kk)
    refine ⟨_, tick_of_executes r s _ (.rnd x kk) hi rfl, ?_⟩
    rw [endTick_reg]
    exact (hreg x).trans (if_pos rfl)

end Sys2Proof.Machine
end

section
/-! SUPPORT. The draw family (46_draw.md R119 to R121): the state a draw leaves by the legality of its block, its pixels
and collision flag, a display known by its pixels; O31 and O32. -/

namespace Sys2Proof.Machine

/-! ## A display is its pixels (10_state.md R26) -/

/-- Bit `i` of display byte `k` is a pixel. -/
theorem pix_of_byte_bit (d : Display) (k i : Nat) (hk : k < 256) (hi : i < 8) :
    pix d ⟨k % 8 * 8 + (7 - i), by omega⟩ ⟨k / 8, by omega⟩ = d[k].getLsbD i := by
  have hbyte : k / 8 * 8 + (k % 8 * 8 + (7 - i)) / 8 = k := by omega
  have hbit : 7 - (k % 8 * 8 + (7 - i)) % 8 = i := by omega
  simp only [pix, pixByte, pixBit, hbyte, hbit]

theorem display_eq_of_pix (d e : Display) (h : ∀ px py, pix d px py = pix e px py) : d = e := by
  refine Vector.ext fun k hk => BitVec.eq_of_getLsbD_eq fun i hi => ?_
  rw [← pix_of_byte_bit d k i hk hi, ← pix_of_byte_bit e k i hk hi, h]

/-! ## The rows of a sprite (R119, R120) -/

theorem blockBytes_length (s : State) (base n : Nat) : (s.blockBytes base n).length = n := by
  rw [State.blockBytes, List.length_map, List.length_range]

/-- A sprite covers pixels of its own rows only. -/
theorem spriteCovers_row (vx vy : Byte) (bs : List Byte) (qx : Fin 64) (qy : Fin 32)
    (h : SpriteCovers vx vy 0 bs qx qy) : ∃ k, k < bs.length ∧ qy.val = (vy.toNat + k) % 32 := by
  obtain ⟨k, hk, _, _, _, _, hrow⟩ := h
  exact ⟨k, hk, by rwa [Nat.zero_add] at hrow⟩

/-- A block that is not legal reports its first address past 0xFFF (20_memory.md R41; 60_exceptions.md R138). -/
theorem loadBlock_outside (s : State) (base n : Nat) (h : ¬ BlockInMemory s.cfg base n) :
    loadBlock s base n = .error (.addressFault (max base 0x1000) s.pc) := by
  obtain ⟨hn, hout⟩ := not_or.mp h
  obtain ⟨hwrap, hlt⟩ := not_or.mp hout
  have hfault : s.cfg.addrOor = .fault := by
    cases hc : s.cfg.addrOor with
    | fault => rfl
    | wrap => exact absurd hc hwrap
  rw [loadBlock, eaRange_outside _ _ _ hfault (Nat.not_le.mp hlt) (Nat.pos_of_ne_zero hn)]

/-! ## The state a draw leaves (R119) -/

/-- What `DRW Vx, Vy, n` covers when it starts in `s`: its sprite at the address `I`, its place in `Vx` and `Vy`. -/
def DrwCovers (x y n : Nibble) (s : State) (px : Fin 64) (py : Fin 32) : Prop :=
  SpriteCovers (s.reg x) (s.reg y) 0 (s.blockBytes s.i.toNat n.toNat) px py

/-- The display and the collision flag of a draw whose addresses are legal. -/
def drwDrawn (x y n : Nibble) (s : State) : Display × Bool :=
  drawRows (s.reg x) (s.reg y) 0 (s.blockBytes s.i.toNat n.toNat) (s.display, false)

/-- The state after a draw whose addresses are legal. -/
def drwState (x y n : Nibble) (s : State) : State :=
  advance ({ s with display := (drwDrawn x y n s).1, touched := true }.setReg vf (flagByte (drwDrawn x y n s).2))

theorem exec_drw (x y n : Nibble) (s : State) : exec (.drw x y n) s = execDrw x y n s := rfl

theorem exec_drw_legal (x y n : Nibble) (s : State) (h : BlockInMemory s.cfg s.i.toNat n.toNat) :
    exec (.drw x y n) s = .next (drwState x y n s) := by
  rw [exec_drw, execDrw, loadBlock_ok _ _ _ h]; rfl

theorem exec_drw_fault (x y n : Nibble) (s : State) (h : ¬ BlockInMemory s.cfg s.i.toNat n.toNat) :
    exec (.drw x y n) s = .next (s.haltedBy (.addressFault (max s.i.toNat 0x1000) s.pc)) := by
  rw [exec_drw, execDrw, loadBlock_outside _ _ _ h, ← takeFatal_eq_haltedBy]; rfl

/-- A sprite has at most 15 rows, so no two of them meet on the display's 32. -/
theorem sprite_length_le (n : Nibble) (s : State) : (s.blockBytes s.i.toNat n.toNat).length ≤ 32 := by
  have hn := n.isLt
  rw [blockBytes_length]; omega

theorem pix_drwState (x y n : Nibble) (s : State) (px : Fin 64) (py : Fin 32) :
    pix (drwState x y n s).display px py = true ↔ ¬ (pix s.display px py = true ↔ DrwCovers x y n s px py) :=
  pix_drawRows _ _ _ 0 (s.display, false) (sprite_length_le n s) px py

theorem pix_drwState_uncovered (x y n : Nibble) (s : State) (px : Fin 64) (py : Fin 32)
    (h : ¬ DrwCovers x y n s px py) : pix (drwState x y n s).display px py = pix s.display px py := by
  rw [Bool.eq_iff_iff, pix_drwState]
  tauto

/-- The collision flag is `VF`, and no other register is written. -/
theorem reg_drwState (x y n j : Nibble) (s : State) :
    (drwState x y n s).reg j = if j = vf then flagByte (drwDrawn x y n s).2 else s.reg j :=
  reg_setReg { s with display := (drwDrawn x y n s).1, touched := true } vf j (flagByte (drwDrawn x y n s).2)

/-- The collision flag: some lit pixel is covered (R119). -/
theorem drwDrawn_hit (x y n : Nibble) (s : State) :
    (drwDrawn x y n s).2 = true ↔ ∃ px py, DrwCovers x y n s px py ∧ pix s.display px py = true := by
  refine (hit_drawRows _ _ _ 0 (s.display, false) (sprite_length_le n s)).trans (or_iff_right ?_)
  exact Bool.false_ne_true

theorem flagByte_eq_one_iff (c : Bool) : flagByte c = 1#8 ↔ c = true := by
  cases c <;> decide

theorem flagByte_eq_zero_iff (c : Bool) : flagByte c = 0#8 ↔ ¬ c = true := by
  cases c <;> decide

theorem drwState_vf_eq_one_iff (x y n : Nibble) (s : State) :
    (drwState x y n s).reg 0xF#4 = 1#8 ↔ ∃ px py, DrwCovers x y n s px py ∧ pix s.display px py = true := by
  rw [reg_drwState, vf, if_pos rfl, flagByte_eq_one_iff, drwDrawn_hit]

theorem drwState_vf_eq_zero_iff (x y n : Nibble) (s : State) :
    (drwState x y n s).reg 0xF#4 = 0#8 ↔ ¬ ∃ px py, DrwCovers x y n s px py ∧ pix s.display px py = true := by
  rw [reg_drwState, vf, if_pos rfl, flagByte_eq_zero_iff, drwDrawn_hit]

/-- Settles O31, by whether the sprite's block is legal: `exec_drw_fault`, or the state of `exec_drw_legal` with its
pixels and its `VF`. -/
theorem drwXorsTheSpriteAndReportsCollision : Obligations.DrwXorsTheSpriteAndReportsCollision := by
  unfold Obligations.DrwXorsTheSpriteAndReportsCollision
  refine fun pol s x y n => ⟨?_, exec_drw_fault x y n s, fun hlegal => ?_⟩
  · exact decode_encode_of_ne_sys pol (.drw x y n) nofun
  · refine ⟨_, exec_drw_legal x y n s hlegal, pix_drwState x y n s, ?_, ?_, fun j hj => ?_, rfl⟩
    · exact (drwState_vf_eq_one_iff x y n s).mpr
    · exact (drwState_vf_eq_zero_iff x y n s).mpr
    · rw [reg_drwState, vf, if_neg hj]

/-! ## A second draw (R121) -/

/-- A draw changes neither `I` nor memory, so a second one at the same coordinates covers the same pixels. -/
theorem drwCovers_drwState (x y x' y' n : Nibble) (s : State) (hx : (drwState x y n s).reg x' = s.reg x)
    (hy : (drwState x y n s).reg y' = s.reg y) (px : Fin 64) (py : Fin 32) :
    DrwCovers x' y' n (drwState x y n s) px py ↔ DrwCovers x y n s px py := by
  rw [DrwCovers, hx, hy]; rfl

/-- A pixel flipped twice is as it was. -/
theorem drwState_drwState_display (x y x' y' n : Nibble) (s : State) (hx : (drwState x y n s).reg x' = s.reg x)
    (hy : (drwState x y n s).reg y' = s.reg y) :
    (drwState x' y' n (drwState x y n s)).display = s.display := by
  refine display_eq_of_pix _ _ fun px py => ?_
  rw [Bool.eq_iff_iff, pix_drwState, pix_drwState, drwCovers_drwState x y x' y' n s hx hy]
  tauto

/-- The second draw collides where the first one lit a dark pixel. -/
theorem drwState_drwState_vf (x y x' y' n : Nibble) (s : State) (hx : (drwState x y n s).reg x' = s.reg x)
    (hy : (drwState x y n s).reg y' = s.reg y) :
    (drwState x' y' n (drwState x y n s)).reg 0xF#4 = 1#8 ↔
      ∃ px py, DrwCovers x y n s px py ∧ pix s.display px py = false := by
  rw [drwState_vf_eq_one_iff]
  refine exists_congr fun px => exists_congr fun py => ?_
  rw [drwCovers_drwState x y x' y' n s hx hy, pix_drwState, ← Bool.not_eq_true]
  tauto

/-- Settles O32: the second draw by `drwState_drwState_display` and `drwState_drwState_vf`, the pixels that a draw
leaves by `pix_drwState_uncovered`, since a pixel outside the sprite's rows is not covered. -/
theorem drawingTwiceRestoresTheDisplay : Obligations.DrawingTwiceRestoresTheDisplay := by
  unfold Obligations.DrawingTwiceRestoresTheDisplay
  intro s t x y n hlegal ht
  rw [exec_drw_legal x y n s hlegal] at ht
  cases ht
  refine ⟨fun x' y' hx hy => ?_, pix_drwState_uncovered x y n s, fun px py hrow => ?_⟩
  · exact ⟨_, exec_drw_legal x' y' n _ hlegal, drwState_drwState_display x y x' y' n s hx hy,
      drwState_drwState_vf x y x' y' n s hx hy⟩
  · refine pix_drwState_uncovered x y n s px py fun hcovers => ?_
    obtain ⟨k, hk, hpy⟩ := spriteCovers_row _ _ _ _ _ hcovers
    rw [blockBytes_length] at hk
    exact hrow k hk hpy

end Sys2Proof.Machine
end

section
/-! SUPPORT. A whole Tick as one update of the state (40_cycle_and_host.md R69 to R75): the end of a Tick that completes
and of one that halts, and the keypad as the key wait sees it; O6, O7, O9, O10, O11 and O16. -/

namespace Sys2Proof.Machine

/-! ## The end of a Tick (R69, R74; 60_exceptions.md R143) -/

theorem tickTimerStep_eq (s : State) :
    tickTimerStep s = { s with dt := timerAfter s.cfg s.dt, st := timerAfter s.cfg s.st } := by
  unfold tickTimerStep timerAfter
  cases s.cfg.timerMode <;> rfl

theorem dirtyUpdate_eq (s : State) : dirtyUpdate s = { s with dirty := dirtyAfter s.cfg s.touched s.dirty } := by
  unfold dirtyUpdate dirtyAfter
  cases s.cfg.dirtyMode <;> rfl

/-- The end of a Tick that halts nothing is one timer step and one dirty update (R69). -/
theorem endTick_live (t : State) (hlive : ∀ e, t.mode ≠ .halted e) :
    endTick t = { t with
      dt := timerAfter t.cfg t.dt, st := timerAfter t.cfg t.st, dirty := dirtyAfter t.cfg t.touched t.dirty
      rnd := 0#8 } := by
  rcases endTick_cases t with ⟨e, he, _⟩ | ⟨_, h⟩
  · exact absurd he (hlive e)
  · rw [h, tickTimerStep_eq, dirtyUpdate_eq]; rfl

/-- A running core is not halted. -/
theorem not_halted_of_running {s : State} (hm : s.mode = .running) (e : FatalError) : s.mode ≠ .halted e := by
  rw [hm]; nofun

/-- After a fatal error the Tick does nothing more to the state than let the input go (R75). -/
theorem endTick_takeFatal (r : Byte) (e : FatalError) (s : State) :
    endTick (takeFatal e (beginTick r s)) = { s.haltedBy e with rnd := 0#8 } := by
  rw [takeFatal_eq_haltedBy]; rfl

/-! ## A Tick of a running core -/

/-- Settles O7: `exec` from the started Tick, then `endTick_live`. -/
theorem completingTickCountsTimersAndSetsDirty : Obligations.CompletingTickCountsTimersAndSetsDirty := by
  unfold Obligations.CompletingTickCountsTimersAndSetsDirty
  intro r s t i hi ht hlive
  rw [tick_of_executes r s t i hi ht, endTick_live t hlive]

/-- Settles O9: the fetch fails at the address of `fetch_fault`, and the error is taken by `endTick_takeFatal`. -/
theorem fetchFaultHaltsTheCore : Obligations.FetchFaultHaltsTheCore := by
  unfold Obligations.FetchFaultHaltsTheCore
  intro r s hl hm hf hpc
  have haddr : (if 0xFFF < s.pc.toNat then s.pc.toNat else s.pc.toNat + 1) = max s.pc.toNat 0x1000 := by
    split <;> omega
  rw [haddr, tick_running r s hl hm, runInstr_fetch_error (beginTick r s) _ (fetch_fault s hf hpc),
    endTick_takeFatal]
  rfl

/-- Settles O10: the skipped word, then the end of a completing Tick. -/
theorem unknownWordIsSkippedAndReported : Obligations.UnknownWordIsSkippedAndReported := by
  unfold Obligations.UnknownWordIsSkippedAndReported
  intro r s op hl hm hop hd
  have hlive : ∀ e, (skipUnknown op (beginTick r s)).mode ≠ .halted e := not_halted_of_running (by simpa using hm)
  rw [tick_running r s hl hm, runInstr_unknown (beginTick r s) op _ hop hd, endTick_live _ hlive]
  rfl

/-- Settles O16: a running core halts by a failed fetch or by an error its instruction raises (O15), and either is taken
with no timer step. -/
theorem haltingTickKeepsEverythingElse : Obligations.HaltingTickKeepsEverythingElse := by
  unfold Obligations.HaltingTickKeepsEverythingElse
  intro r s t e hm h ht
  obtain ⟨_, ⟨_, hm', _⟩ | ⟨_, hm', _⟩ | ⟨_, ⟨a, _, rfl⟩ | ⟨op, _, _, _, rfl⟩ | ⟨_, i, u, _, _, hu, rfl⟩⟩⟩ :=
    tick_cases r s t h
  · rw [hm] at hm'; cases hm'
  · rw [hm] at hm'; cases hm'
  · obtain rfl : .addressFault a s.pc = e := by simpa using ht
    exact endTick_takeFatal r _ s
  · exact absurd ht (by simp [hm])
  · rw [endTick_mode] at ht
    obtain ⟨rfl, _⟩ := fatalErrorsArePrecise i (beginTick r s) u e hm hu ht
    rw [← takeFatal_eq_haltedBy, endTick_takeFatal]

/-! ## The step (R69, R70, R72) -/

/-- A program image of one word decodes as that word does (30_encoding.md R54). -/
theorem decode_of_decodeBytes_pair (pol : SysPolicy) (hi lo : Byte) (i : Instr)
    (h : decodeBytes pol [hi, lo] = .ok (i, [])) : decode pol (joinBytes hi lo) = .ok i := by
  rw [decodeBytes] at h
  split at h
  · rename_i j hj
    cases h
    exact hj
  · cases h

/-- Settles O6: the two bytes are the fetched word, so the step is the Tick that executes `i`; `i` is valid by O2. -/
theorem stepRunsTheDecodedInstruction : Obligations.StepRunsTheDecodedInstruction := by
  unfold Obligations.StepRunsTheDecodedInstruction
  intro s a b i hl hm ha hb h
  have hd := decode_of_decodeBytes_pair _ _ _ i h
  have hfetch : fetch s = .ok (joinBytes (s.readByte a) (s.readByte b)) := by rw [fetch, ha, hb]
  obtain ⟨hvalid, _⟩ := encodeInvertsDecode _ _ i hd
  refine ⟨hvalid, ?_⟩
  obtain ⟨t, ht⟩ := exec_answers i (beginTick (Config.rndByte s.rndIndex) (drawRandom s))
  calc step s = .next (endTick t) := tick_of_executes _ (drawRandom s) t i ⟨hl, hm, _, hfetch, hd⟩ ht
    _ = afterExecute (exec i (beginTick (Config.rndByte s.rndIndex) (drawRandom s))) := by rw [ht]; rfl

/-! ## A Tick of a waiting core (R73) -/

/-- A pressed key that no pressed key precedes is the one the wait takes. -/
theorem lowestKey_of_key (s : State) (k : Nibble) (hk : s.key k = true)
    (hlow : ∀ j : Nibble, j.toNat < k.toNat → s.key j = false) : lowestKey s.keys = some k.toNat := by
  refine lowestKey_eq s.keys k.toNat k.isLt hk fun j hj => ?_
  have hj16 := Nat.lt_trans hj k.isLt
  exact hlow (.ofNatLT j hj16) hj

/-- The wait takes no key exactly when none is pressed. -/
theorem lowestKey_eq_none_iff (s : State) : lowestKey s.keys = none ↔ ∀ k, s.key k = false := by
  constructor
  · exact fun h k => lowestKey_none s.keys h k.toNat k.isLt
  · intro h
    cases hk : lowestKey s.keys with
    | none => rfl
    | some k =>
      obtain ⟨hlt, hpressed, _⟩ := lowestKey_some s.keys k hk
      have hreleased : s.keys[k] = false := h (.ofNatLT k hlt)
      rw [hreleased] at hpressed
      cases hpressed

theorem awaitStep_some (r : Nibble) (s : State) (k : Nat) (h : lowestKey s.keys = some k) :
    awaitStep r s = completeWait r k s := by rw [awaitStep, h]

theorem awaitStep_none (r : Nibble) (s : State) (h : lowestKey s.keys = none) : awaitStep r s = s := by
  rw [awaitStep, h]

/-- The registers after the wait ends with key `k`: its number in `V[r]`. -/
theorem reg_completeWait_key (r k j : Nibble) (s : State) :
    (completeWait r k.toNat s).reg j = if j = r then k.setWidth 8 else s.reg j := by
  rw [reg_completeWait, BitVec.ofNat_toNat]

/-- Settles O11, by the key the wait takes. -/
theorem awaitKeyTickStoresTheLowestPressedKey : Obligations.AwaitKeyTickStoresTheLowestPressedKey := by
  unfold Obligations.AwaitKeyTickStoresTheLowestPressedKey
  refine fun q s r hl hm => ⟨fun k hk hlow => ?_, fun hnone => ?_⟩
  · rw [tick_awaitKey q s r hl hm, awaitStep_some r (beginTick q s) _ (lowestKey_of_key s k hk hlow)]
    refine ⟨_, rfl, fun j => ?_, ?_⟩
    · rw [endTick_reg, reg_completeWait_key, beginTick_reg]
    · rw [endTick_live _ (not_halted_of_running rfl)]; rfl
  · have hlive : ∀ e, (beginTick q s).mode ≠ .halted e := by simp [hm]
    rw [tick_awaitKey q s r hl hm, awaitStep_none r (beginTick q s) ((lowestKey_eq_none_iff s).mpr hnone),
      endTick_live _ hlive]
    rfl

end Sys2Proof.Machine
end

section
/-! SUPPORT. The input family (47_input.md R122 to R125): the key skips, the key wait on entry, and which Tick starts it
and which one ends it; O23, O34 and O35. -/

namespace Sys2Proof.Machine

/-! ## The key skips (R122, R123) -/

/-- The key a register names is its low nibble. -/
theorem keyIndex_eq (b : Byte) (k : Nibble) (h : k.toNat = b.toNat % 16) : keyIndex b = k := by
  apply BitVec.eq_of_toNat_eq
  rw [keyIndex, BitVec.extractLsb'_toNat, Nat.shiftRight_zero, h]

theorem exec_skp (x : Nibble) (s : State) :
    exec (.skp x) s =
      .next { s with pc := s.pc + (if s.key (keyIndex (s.reg x)) = true then 4#16 else 2#16) } := rfl

theorem exec_sknp (x : Nibble) (s : State) :
    exec (.sknp x) s =
      .next { s with pc := s.pc + (if s.key (keyIndex (s.reg x)) = true then 2#16 else 4#16) } := by
  rw [exec, execSknp, skipIf]
  cases s.key (keyIndex (s.reg x)) <;> rfl

/-- Settles O23: the words by `decode_encode_of_ne_sys`, the key by `keyIndex_eq`. -/
theorem keySkipsReadTheKeyOfTheLowNibble : Obligations.KeySkipsReadTheKeyOfTheLowNibble := by
  unfold Obligations.KeySkipsReadTheKeyOfTheLowNibble
  intro pol s x k hk
  refine ⟨?_, ?_, ?_, ?_⟩
  · exact decode_encode_of_ne_sys pol (.skp x) nofun
  · exact decode_encode_of_ne_sys pol (.sknp x) nofun
  · rw [exec_skp, keyIndex_eq _ k hk]
  · rw [exec_sknp, keyIndex_eq _ k hk]

/-! ## Entering the wait (R124) -/

theorem exec_ldKey_waits (x : Nibble) (s : State)
    (h : s.cfg.keywaitSampleOnEntry = false ∨ ∀ k : Nibble, s.key k = false) :
    exec (.ldKey x) s = .next { s with mode := .awaitKey x } := by
  obtain ⟨t, ht⟩ := exec_answers (.ldKey x) s
  rcases execLdKey_cases x s t ht with ⟨k, hsample, hk, _⟩ | ⟨_, rfl⟩
  · rw [← lowestKey_eq_none_iff, hsample, hk] at h
    rcases h with h | h <;> cases h
  · exact ht

theorem exec_ldKey_sampled (x k : Nibble) (s : State) (hsample : s.cfg.keywaitSampleOnEntry = true)
    (hk : lowestKey s.keys = some k.toNat) : exec (.ldKey x) s = .next (completeWait x k.toNat s) := by
  rw [exec, execLdKey, hsample, hk]

/-- Settles O34, by whether a key is sampled on entry. -/
theorem ldKeyEntersTheWait : Obligations.LdKeyEntersTheWait := by
  unfold Obligations.LdKeyEntersTheWait
  refine fun pol s x => ⟨?_, exec_ldKey_waits x s, fun k hsample hk hlow => ?_⟩
  · exact decode_encode_of_ne_sys pol (.ldKey x) nofun
  · exact ⟨_, exec_ldKey_sampled x k s hsample (lowestKey_of_key s k hk hlow),
      fun j => reg_completeWait_key x k j s, rfl⟩

/-! ## The key-wait state machine (R125) -/

/-- Beside a fatal error only `LD Vx, K` writes `Mode`, and it names its own register. -/
theorem exec_mode_cases (i : Instr) (s t : State) (h : exec i s = .next t) :
    t.mode = s.mode ∨ (∃ e, t.mode = .halted e) ∨ ∃ x, i = .ldKey x ∧ (t.mode = .running ∨ t.mode = .awaitKey x) := by
  cases i <;> simp only [exec] at h
  case ldKey x =>
    rcases execLdKey_cases _ _ _ h with ⟨_, _, _, rfl⟩ | ⟨_, rfl⟩
    · exact .inr (.inr ⟨x, rfl, .inl rfl⟩)
    · exact .inr (.inr ⟨x, rfl, .inr rfl⟩)
  case ret => rcases execRet_cases _ _ h with ⟨_, rfl⟩ | ⟨_, rfl⟩ <;> simp
  case call => rcases execCall_cases _ _ _ h with ⟨_, rfl⟩ | ⟨_, rfl⟩ <;> simp
  case drw => rcases execDrw_cases _ _ _ _ _ h with ⟨_, _, rfl⟩ | ⟨_, _, rfl⟩ <;> simp
  case ldB => rcases execLdB_cases _ _ _ h with ⟨_, _, rfl⟩ | ⟨_, _, rfl⟩ <;> simp
  case storeRegs => rcases execStoreRegs_cases _ _ _ h with ⟨_, _, rfl⟩ | ⟨_, _, rfl⟩ <;> simp
  case loadRegs => rcases execLoadRegs_cases _ _ _ h with ⟨_, _, rfl⟩ | ⟨_, _, rfl⟩ <;> simp
  all_goals (cases h; exact .inl (by simp))

/-- A running core that an instruction leaves waiting for register `r` has executed `LD Vr, K`. -/
theorem exec_starts_wait (i : Instr) (s t : State) (r : Nibble) (h : exec i s = .next t) (hs : s.mode = .running)
    (ht : t.mode = .awaitKey r) : i = .ldKey r := by
  rcases exec_mode_cases i s t h with hm | ⟨e, hm⟩ | ⟨x, rfl, hm | hm⟩ <;> rw [ht] at hm
  · rw [hs] at hm; cases hm
  · cases hm
  · cases hm
  · cases hm; rfl

/-- A running core starts to wait only by executing `LD Vr, K`. -/
theorem tick_starts_wait (q : Byte) (s t : State) (r : Nibble) (h : tick q s = .next t) (hs : s.mode = .running)
    (ht : t.mode = .awaitKey r) : s.Executes (.ldKey r) := by
  obtain ⟨hl, ⟨_, hm, _⟩ | ⟨_, hm, _⟩ | ⟨_, ⟨_, _, rfl⟩ | ⟨_, _, _, _, rfl⟩ | ⟨op, i, u, hop, hd, hu, rfl⟩⟩⟩ :=
    tick_cases q s t h
  · rw [hs] at hm; cases hm
  · rw [hs] at hm; cases hm
  · exact absurd ht (by simp)
  · exact absurd ht (by simp [hs])
  · rw [endTick_mode] at ht
    obtain rfl := exec_starts_wait i _ u r hu hs ht
    exact ⟨hl, hs, op, hop, hd⟩

/-- What the end of a Tick keeps of a core that goes on waiting. -/
theorem endTick_waiting (s : State) (r : Nibble) (hm : s.mode = .awaitKey r) (htouched : s.touched = false) :
    (endTick s).v = s.v ∧ (endTick s).pc = s.pc ∧ (endTick s).i = s.i ∧ (endTick s).stack = s.stack ∧
      (endTick s).sp = s.sp ∧ (endTick s).mem = s.mem ∧ (endTick s).display = s.display ∧
      (s.cfg.dirtyMode = .perTick → (endTick s).dirty = false) := by
  have hlive : ∀ e, s.mode ≠ .halted e := by simp [hm]
  rw [endTick_live s hlive]
  exact ⟨rfl, rfl, rfl, rfl, rfl, rfl, rfl, fun hd => by simp [dirtyAfter, hd, htouched]⟩

/-- A waiting core runs on after a Tick that finds a key pressed, and else waits on unchanged. -/
theorem tick_ends_or_keeps_wait (q : Byte) (s t : State) (r : Nibble) (h : tick q s = .next t)
    (hs : s.mode = .awaitKey r) :
    (∃ k, s.key k = true) ∧ t.mode = .running ∧ t.pc = s.pc + 2#16 ∨
    (∀ k, s.key k = false) ∧ t.mode = .awaitKey r ∧ t.v = s.v ∧ t.pc = s.pc ∧ t.i = s.i ∧ t.stack = s.stack ∧
      t.sp = s.sp ∧ t.mem = s.mem ∧ t.display = s.display ∧ (s.cfg.dirtyMode = .perTick → t.dirty = false) := by
  obtain ⟨hl, _⟩ := tick_cases q s t h
  rw [tick_awaitKey q s r hl hs] at h
  cases h
  rcases awaitStep_cases r (beginTick q s) with ⟨k, hk, hstep⟩ | ⟨hnone, hstep⟩ <;> rw [hstep]
  · obtain ⟨hlt, hpressed, _⟩ := lowestKey_some s.keys k hk
    exact .inl ⟨⟨.ofNatLT k hlt, hpressed⟩, endTick_mode _, endTick_pc _⟩
  · exact .inr ⟨(lowestKey_eq_none_iff s).mp hnone, (endTick_mode _).trans hs,
      endTick_waiting (beginTick q s) r hs rfl⟩

theorem setKeyState_mode (key : Int) (p : Bool) (s : State) : (setKeyState key p s).2.mode = s.mode := by
  unfold setKeyState
  split <;> rfl

theorem loadProgram_fits (bytes : List Byte) (s : State) (hb : bytes.length ≤ progMax) :
    loadProgram bytes s = (.ok, loadReset bytes s) := if_neg (Nat.not_lt.mpr hb)

/-- Settles O35: the two kinds of Tick, then the two host operations. -/
theorem keyWaitStateMachine : Obligations.KeyWaitStateMachine := by
  unfold Obligations.KeyWaitStateMachine
  refine ⟨tick_starts_wait, tick_ends_or_keeps_wait, fun s key p => setKeyState_mode key p s, fun s bytes hb => ?_⟩
  rw [loadProgram_fits bytes s hb]; rfl

end Sys2Proof.Machine
end

section
/-! SUPPORT. The timer family (48_timer.md R126 to R128) and the countdown (60_exceptions.md R143, R145): the timers at
the end of a completing Tick and after any number of timer steps; O36, O37 and O38. -/

namespace Sys2Proof.Machine

/-! ## Any number of timer steps (60_exceptions.md R143, R145) -/

/-- The countdown is the subtraction of naturals: 0 stays 0. -/
theorem countDown_toNat (t : Byte) : (countDown t).toNat = t.toNat - 1 := by
  unfold countDown
  split
  · rename_i h; rw [h]; rfl
  · bv_omega

theorem timerStep_iterate_toNat (n : Nat) (s : State) :
    (timerStep^[n] s).dt.toNat = s.dt.toNat - n ∧ (timerStep^[n] s).st.toNat = s.st.toNat - n := by
  induction n with
  | zero => exact ⟨rfl, rfl⟩
  | succ n ih =>
    obtain ⟨hdt, hst⟩ := ih
    rw [Function.iterate_succ_apply', timerStep_dt, timerStep_st, countDown_toNat, countDown_toNat, hdt, hst]
    omega

theorem timerStep_iterate_frame (n : Nat) (s : State) :
    timerStep^[n] s = { s with dt := (timerStep^[n] s).dt, st := (timerStep^[n] s).st } := by
  induction n with
  | zero => rfl
  | succ n ih => rw [Function.iterate_succ_apply', ih]; rfl

/-- Settles O37: the values by `timerStep_iterate_toNat`, the rest by `timerStep_iterate_frame`. -/
theorem countdownReachesZeroAndStays : Obligations.CountdownReachesZeroAndStays := by
  unfold Obligations.CountdownReachesZeroAndStays
  intro n s
  obtain ⟨hdt, hst⟩ := timerStep_iterate_toNat n s
  exact ⟨hdt, hst, timerStep_iterate_frame n s⟩

/-! ## The timers after a Tick (60_exceptions.md R143; 40_cycle_and_host.md R69) -/

/-- A completing Tick counts down the timers it finds at its end. -/
theorem endTick_timers (u : State) (hlive : ∀ e, u.mode ≠ .halted e) :
    (endTick u).dt = timerAfter u.cfg u.dt ∧ (endTick u).st = timerAfter u.cfg u.st := by
  rw [endTick_live u hlive]
  exact ⟨rfl, rfl⟩

@[simp] theorem awaitStep_dt (r : Nibble) (s : State) : (awaitStep r s).dt = s.dt := by
  rcases awaitStep_cases r s with ⟨_, _, h⟩ | ⟨_, h⟩ <;> simp [h]
@[simp] theorem awaitStep_st (r : Nibble) (s : State) : (awaitStep r s).st = s.st := by
  rcases awaitStep_cases r s with ⟨_, _, h⟩ | ⟨_, h⟩ <;> simp [h]

/-- A Tick that leaves the core alive ends a state with the parameters it began with, and with its timers unless it
executed the instruction that loads them. -/
theorem tick_live_ends (r : Byte) (s t : State) (h : tick r s = .next t) (hlive : ∀ e, t.mode ≠ .halted e) :
    ∃ u, t = endTick u ∧ u.cfg = s.cfg ∧ (u.dt = s.dt ∨ ∃ x, s.Executes (.ldDt x)) ∧
      (u.st = s.st ∨ ∃ x, s.Executes (.ldSt x)) := by
  obtain ⟨hl, ⟨e, hm, rfl⟩ | ⟨q, _, rfl⟩ | ⟨hm, ⟨_, _, rfl⟩ | ⟨_, _, _, _, rfl⟩ | ⟨op, i, u, hop, hd, hu, rfl⟩⟩⟩ :=
    tick_cases r s t h
  · exact absurd hm (hlive e)
  · exact ⟨_, rfl, by simp, .inl (by simp), .inl (by simp)⟩
  · exact ⟨_, rfl, rfl, .inl rfl, .inl rfl⟩
  · exact ⟨_, rfl, rfl, .inl rfl, .inl rfl⟩
  · obtain ⟨hcfg, _⟩ := exec_keeps i _ u hu
    obtain ⟨_, _, _, _, hdt, hst, _⟩ := otherStateWrittenOnlyByItsInstructions i _ u hu
    have hexec (j : Instr) (hj : i = j) : s.Executes j := hj ▸ ⟨hl, hm, op, hop, hd⟩
    exact ⟨u, rfl, hcfg, Decidable.or_iff_not_imp_left.mpr fun hne => (hdt hne).imp fun x => hexec (.ldDt x),
      Decidable.or_iff_not_imp_left.mpr fun hne => (hst hne).imp fun x => hexec (.ldSt x)⟩

/-- Settles O38: the timers the Tick finds at its end by `tick_live_ends`, their countdown by `endTick_timers`. -/
theorem everyCompletingTickCountsDown : Obligations.EveryCompletingTickCountsDown := by
  unfold Obligations.EveryCompletingTickCountsDown
  intro r s t h ⟨_, hlive⟩
  obtain ⟨u, rfl, hcfg, hdt, hst⟩ := tick_live_ends r s t h hlive
  rw [endTick_mode] at hlive
  obtain ⟨hdtAfter, hstAfter⟩ := endTick_timers u hlive
  rw [hdtAfter, hstAfter, hcfg]
  refine ⟨fun hno => ?_, fun hno => ?_⟩
  · rw [hdt.resolve_right fun ⟨x, hx⟩ => hno x hx]
  · rw [hst.resolve_right fun ⟨x, hx⟩ => hno x hx]

/-! ## The timer instructions (48_timer.md R126 to R128) -/

/-- A Tick that executes `i` and goes on running ends with the timers that `i` left, counted down. -/
theorem tick_timers_of_executes (r : Byte) (s t : State) (i : Instr) (hi : s.Executes i)
    (ht : exec i (beginTick r s) = .next t) (hm : t.mode = s.mode) :
    ∃ u, tick r s = .next u ∧ (∀ j, u.reg j = t.reg j) ∧ u.dt = timerAfter s.cfg t.dt ∧
      u.st = timerAfter s.cfg t.st := by
  have ⟨_, hrunning, _⟩ := hi
  have hlive := not_halted_of_running (hm.trans hrunning)
  obtain ⟨hcfg, _⟩ := exec_keeps i _ t ht
  rw [beginTick_cfg] at hcfg
  rw [← hcfg]
  exact ⟨_, tick_of_executes r s t i hi ht, endTick_reg t, endTick_timers t hlive⟩

/-- Settles O36: the words by `decode_encode_of_ne_sys`, the moves by `rfl` and `advance_setReg_writes`, the Ticks by
`tick_timers_of_executes`. -/
theorem timerInstructionsMoveTheByte : Obligations.TimerInstructionsMoveTheByte := by
  unfold Obligations.TimerInstructionsMoveTheByte
  intro pol r s x
  refine ⟨?_, ?_, ?_, ?_, rfl, rfl, fun hi => ?_, fun hi => ?_, fun hi => ?_⟩
  · exact decode_encode_of_ne_sys pol (.ldFromDt x) nofun
  · exact decode_encode_of_ne_sys pol (.ldDt x) nofun
  · exact decode_encode_of_ne_sys pol (.ldSt x) nofun
  · exact ⟨_, rfl, advance_setReg_writes s x s.dt⟩
  · obtain ⟨u, hu, hreg, hdt, _⟩ := tick_timers_of_executes r s _ (.ldFromDt x) hi rfl rfl
    obtain ⟨hwrite, _⟩ := advance_setReg_writes (beginTick r s) x s.dt
    exact ⟨u, hu, (hreg x).trans ((hwrite x).trans (if_pos rfl)), hdt⟩
  · obtain ⟨u, hu, _, hdt, _⟩ := tick_timers_of_executes r s _ (.ldDt x) hi rfl rfl
    exact ⟨u, hu, hdt⟩
  · obtain ⟨u, hu, _, _, hst⟩ := tick_timers_of_executes r s _ (.ldSt x) hi rfl rfl
    exact ⟨u, hu, hst⟩

end Sys2Proof.Machine
end

section
/-! SUPPORT. The memory family (49_memory_ops.md R129 to R133): the value each instruction gives `I`, the stores and the
load by the legality of their block, and the bytes a store leaves and a load reads; O39, O40, O41, O42 and O44. -/

namespace Sys2Proof.Machine

/-! ## `I` (R129, R130, R132, R133) -/

theorem indexSum_toNat (i : Word) (b : Byte) : (indexSum i b).toNat = (i.toNat + b.toNat) % 65536 :=
  BitVec.toNat_ofNat ..

theorem glyphIndex_toNat (b : Byte) : (glyphIndex b).toNat = b.toNat % 16 := by
  rw [glyphIndex, BitVec.extractLsb'_toNat, Nat.shiftRight_zero]

theorem glyphAddr_toNat (c : Config) (b : Byte) :
    (glyphAddr c b).toNat = (c.fontBase + 5 * (b.toNat % 16)) % 65536 := by
  rw [glyphAddr, BitVec.toNat_ofNat, glyphIndex_toNat]

theorem blockIndex_increment (c : Config) (i : Word) (x : Nibble) (h : c.loadStoreI = .increment) :
    (blockIndex c i x).toNat = (i.toNat + x.toNat + 1) % 65536 := by
  rw [blockIndex, h]
  exact BitVec.toNat_ofNat ..

theorem blockIndex_keep (c : Config) (i : Word) (x : Nibble) (h : c.loadStoreI = .keep) : blockIndex c i x = i := by
  rw [blockIndex, h]

/-- Settles O39: the values by `indexSum_toNat` and `glyphAddr_toNat`. -/
theorem indexInstructionsSetI : Obligations.IndexInstructionsSetI := by
  unfold Obligations.IndexInstructionsSetI
  intro pol s x
  refine ⟨?_, ?_, ?_, ?_⟩
  · exact decode_encode_of_ne_sys pol (.addI x) nofun
  · exact decode_encode_of_ne_sys pol (.ldF x) nofun
  · exact ⟨_, rfl, indexSum_toNat s.i (s.reg x), rfl⟩
  · exact ⟨_, rfl, glyphAddr_toNat s.cfg (s.reg x), rfl⟩

/-! ## When a block store raises (20_memory.md R39, R41; 60_exceptions.md R138) -/

/-- A block that is not legal fails at its first address past 0xFFF, for a store as for a load. -/
theorem storeBlock_outside (s : State) (base : Nat) (vals : List Byte)
    (h : ¬ BlockInMemory s.cfg base vals.length) :
    storeBlock s base vals = .error (.addressFault (max base 0x1000) s.pc) := by
  obtain ⟨a, ha, hrange⟩ := loadBlock_error s base _ _ (loadBlock_outside s base vals.length h)
  rw [storeBlock, hrange, ha]

/-- Under `FONT_WRITE = FAULT` a legal block that reaches the font fails at the lowest font address it reaches. -/
theorem storeBlock_fontWrite (s : State) (base : Nat) (vals : List Byte) (j : Nat)
    (hlegal : BlockInMemory s.cfg base vals.length) (hw : s.cfg.fontWrite = .fault) (hj : j < vals.length)
    (hfont : isFont s.cfg (memIndex (base + j)) = true)
    (hlow : ∀ k, k < vals.length → isFont s.cfg (memIndex (base + k)) = true →
      memIndex (base + j) ≤ memIndex (base + k)) :
    storeBlock s base vals = .error (.fontWrite (memIndex (base + j)) s.pc) := by
  have hhit : fontHit s.cfg ((List.range vals.length).map fun k => memIndex (base + k)) =
      some (memIndex (base + j)) := by
    rw [fontHit, hw]
    refine List.min?_eq_some_iff.mpr ⟨?_, fun b hb => ?_⟩
    · exact List.mem_filter.mpr ⟨List.mem_map.mpr ⟨j, List.mem_range.mpr hj, rfl⟩, hfont⟩
    · obtain ⟨hmem, hb⟩ := List.mem_filter.mp hb
      obtain ⟨k, hk, rfl⟩ := List.mem_map.mp hmem
      exact hlow k (List.mem_range.mp hk) hb
  simp only [storeBlock, eaRange_ok _ _ _ hlegal, hhit]

/-- The byte that a block store leaves at an address of its block outside the font (20_memory.md R43, R44). -/
theorem storeBlock_memByte_at (s : State) (base : Nat) (vals : List Byte) (m : Memory)
    (h : storeBlock s base vals = .ok m) (hl : vals.length ≤ 0x1000) (j : Nat) (hj : j < vals.length)
    (hfont : isFont s.cfg (memIndex (base + j)) = false) : memByte s.cfg m (memIndex (base + j)) = vals[j] := by
  obtain ⟨hat, _⟩ := memByte_writeBlock s.cfg s.mem base vals hl (memIndex (base + j))
  rw [storeBlock_ok_mem s base vals m h]
  exact hat j hj rfl hfont

/-! ## `LD B, Vx` (R131) -/

theorem exec_ldB_error (x : Nibble) (s : State) (e : FatalError)
    (h : storeBlock s s.i.toNat (bcdDigits (s.reg x)) = .error e) : exec (.ldB x) s = .next (s.haltedBy e) := by
  rw [← takeFatal_eq_haltedBy, exec, execLdB, h]; rfl

theorem exec_ldB_ok (x : Nibble) (s : State) (m : Memory)
    (h : storeBlock s s.i.toNat (bcdDigits (s.reg x)) = .ok m) :
    exec (.ldB x) s = .next (advance { s with mem := m }) := by
  rw [exec, execLdB, h]

@[simp] theorem bcdDigits_length (b : Byte) : (bcdDigits b).length = 3 := rfl

/-- The digits as numbers: each is below 256, so none is cut off. -/
theorem bcdDigits_toNat (b : Byte) :
    (bcdDigits b)[0].toNat = b.toNat / 100 ∧ (bcdDigits b)[1].toNat = b.toNat / 10 % 10 ∧
      (bcdDigits b)[2].toNat = b.toNat % 10 := by
  have hb := b.isLt
  simp only [bcdDigits, List.getElem_cons_zero, List.getElem_cons_succ, BitVec.toNat_ofNat]
  omega

/-- Settles O40: the two faults by `storeBlock_outside` and `storeBlock_fontWrite`, the bytes of the store by its font,
its other addresses and its three digits. -/
theorem ldBStoresTheDecimalDigits : Obligations.LdBStoresTheDecimalDigits := by
  unfold Obligations.LdBStoresTheDecimalDigits
  intro pol s x
  refine ⟨?_, fun hout => ?_, fun j hj hlegal hw hfont hlow => ?_, fun hlegal hstorable => ?_⟩
  · exact decode_encode_of_ne_sys pol (.ldB x) nofun
  · exact exec_ldB_error x s _ (storeBlock_outside s _ _ hout)
  · exact exec_ldB_error x s _ (storeBlock_fontWrite s _ _ j hlegal hw hj hfont hlow)
  · have hm := storeBlock_ok s s.i.toNat (bcdDigits (s.reg x)) hlegal hstorable
    refine ⟨_, exec_ldB_ok x s _ hm, rfl, fun a => ⟨fun hfont => ?_, fun h0 h1 h2 => ?_, fun hfont => ?_⟩⟩
    · exact storeBlock_font s _ _ _ a hfont hm
    · refine (storeBlock_memByte s _ _ _ hm a).resolve_right ?_
      rintro ⟨j, hj, ha⟩
      rw [bcdDigits_length] at hj
      obtain rfl | rfl | rfl : j = 0 ∨ j = 1 ∨ j = 2 := by omega
      exacts [h0 ha, h1 ha, h2 ha]
    · obtain ⟨hhundreds, htens, hones⟩ := bcdDigits_toNat (s.reg x)
      have hat := storeBlock_memByte_at s _ _ _ hm (by simp)
      refine ⟨?_, ?_, ?_⟩ <;> rintro rfl
      · exact (congrArg BitVec.toNat (hat 0 (by simp) hfont)).trans hhundreds
      · exact (congrArg BitVec.toNat (hat 1 (by simp) hfont)).trans htens
      · exact (congrArg BitVec.toNat (hat 2 (by simp) hfont)).trans hones

/-! ## `LD [I], Vx` (R132) -/

theorem exec_storeRegs_error (x : Nibble) (s : State) (e : FatalError)
    (h : storeBlock s s.i.toNat (regBlock s.v x) = .error e) : exec (.storeRegs x) s = .next (s.haltedBy e) := by
  rw [← takeFatal_eq_haltedBy, exec, execStoreRegs, h]; rfl

theorem exec_storeRegs_ok (x : Nibble) (s : State) (m : Memory)
    (h : storeBlock s s.i.toNat (regBlock s.v x) = .ok m) :
    exec (.storeRegs x) s = .next (advance { s with mem := m, i := blockIndex s.cfg s.i x }) := by
  rw [exec, execStoreRegs, h]

/-- The block of `V0`..`Vx` is legal to store where its addresses are and no font fault stops it. -/
theorem storeBlock_regBlock_ok (x : Nibble) (s : State) (hlegal : BlockInMemory s.cfg s.i.toNat (x.toNat + 1))
    (hstorable : BlockStorable s.cfg s.i.toNat (x.toNat + 1)) :
    ∃ m, storeBlock s s.i.toNat (regBlock s.v x) = .ok m := by
  rw [← regBlock_length s.v x] at hlegal hstorable
  exact ⟨_, storeBlock_ok s _ _ hlegal hstorable⟩

/-- Settles O41: the two faults as for `LD B`, the bytes of the store by its font, its other addresses and
`storeBlock_regBlock_memByte`. -/
theorem storeRegsStoresTheBlock : Obligations.StoreRegsStoresTheBlock := by
  unfold Obligations.StoreRegsStoresTheBlock
  intro pol s x
  have hlen := regBlock_length s.v x
  refine ⟨?_, fun hout => ?_, fun j hj hlegal hw hfont hlow => ?_, fun hlegal hstorable => ?_⟩
  · exact decode_encode_of_ne_sys pol (.storeRegs x) nofun
  · rw [← hlen] at hout
    exact exec_storeRegs_error x s _ (storeBlock_outside s _ _ hout)
  · rw [← hlen] at hlegal
    exact exec_storeRegs_error x s _ (storeBlock_fontWrite s _ _ j hlegal hw (by omega) hfont
      fun k hk => hlow k (by omega))
  · obtain ⟨m, hm⟩ := storeBlock_regBlock_ok x s hlegal hstorable
    refine ⟨_, exec_storeRegs_ok x s m hm, rfl, blockIndex_increment s.cfg s.i x, blockIndex_keep s.cfg s.i x,
      fun a => ⟨fun hfont => ?_, fun hother => ?_, ?_⟩⟩
    · exact storeBlock_font s _ _ _ a hfont hm
    · refine (storeBlock_memByte s _ _ _ hm a).resolve_right ?_
      rintro ⟨j, hj, ha⟩
      have hx := x.isLt
      exact hother (.ofNatLT j (by omega)) (show j ≤ x.toNat by omega) ha
    · rintro j hj rfl hfont
      exact storeBlock_regBlock_memByte s x j m hm hj hfont

/-! ## `LD Vx, [I]` (R133) -/

theorem exec_loadRegs_fault (x : Nibble) (s : State) (h : ¬ BlockInMemory s.cfg s.i.toNat (x.toNat + 1)) :
    exec (.loadRegs x) s = .next (s.haltedBy (.addressFault (max s.i.toNat 0x1000) s.pc)) := by
  rw [← takeFatal_eq_haltedBy, exec, execLoadRegs, loadBlock_outside _ _ _ h]; rfl

/-- The state after a load whose addresses are legal. -/
def loadRegsState (x : Nibble) (s : State) : State :=
  advance { s with
    v := writeRegs s.v 0 (s.blockBytes s.i.toNat (x.toNat + 1)), i := blockIndex s.cfg s.i x }

theorem exec_loadRegs_legal (x : Nibble) (s : State) (h : BlockInMemory s.cfg s.i.toNat (x.toNat + 1)) :
    exec (.loadRegs x) s = .next (loadRegsState x s) := by
  rw [exec, execLoadRegs, loadBlock_ok _ _ _ h]; rfl

theorem blockBytes_get (s : State) (base n j : Nat) (hj : j < (s.blockBytes base n).length) :
    (s.blockBytes base n)[j] = s.readByte (memIndex (base + j)) := by
  simp only [State.blockBytes, List.getElem_map, List.getElem_range]

/-- The registers after a load: the block's bytes up to `Vx`, the others kept. -/
theorem reg_loadRegsState (x j : Nibble) (s : State) :
    (loadRegsState x s).reg j =
      if j.toNat ≤ x.toNat then s.readByte (memIndex (s.i.toNat + j.toNat)) else s.reg j := by
  refine (writeRegs_get s.v _ 0 j.toNat j.isLt).trans ?_
  simp only [blockBytes_length, blockBytes_get, Nat.zero_le, true_and, Nat.zero_add, Nat.sub_zero, Nat.lt_succ_iff,
    dite_eq_ite]
  rfl

/-- Settles O42, by whether the block is legal. -/
theorem loadRegsLoadsTheBlock : Obligations.LoadRegsLoadsTheBlock := by
  unfold Obligations.LoadRegsLoadsTheBlock
  refine fun pol s x => ⟨?_, exec_loadRegs_fault x s, fun hlegal => ?_⟩
  · exact decode_encode_of_ne_sys pol (.loadRegs x) nofun
  · exact ⟨_, exec_loadRegs_legal x s hlegal, rfl, blockIndex_increment s.cfg s.i x, blockIndex_keep s.cfg s.i x,
      fun j => reg_loadRegsState x j s⟩

/-! ## A store and a load (R132, R133) -/

/-- A block with no font address raises no `FontWrite`. -/
theorem blockStorable_of_not_font (c : Config) (base : Nat) (x : Nibble)
    (h : ∀ j : Nibble, j.toNat ≤ x.toNat → isFont c (memIndex (base + j.toNat)) = false) :
    BlockStorable c base (x.toNat + 1) := by
  have hx := x.isLt
  exact .inr fun j hj => h (.ofNatLT j (by omega)) (show j ≤ x.toNat by omega)

/-- Settles O44: the load reads the bytes that `storeBlock_regBlock_memByte` says the store left. -/
theorem loadRegsUndoesStoreRegs : Obligations.LoadRegsUndoesStoreRegs := by
  unfold Obligations.LoadRegsUndoesStoreRegs
  intro s t u x hlegal hfont ht hcfg hmem hi
  obtain ⟨m, hm⟩ := storeBlock_regBlock_ok x s hlegal (blockStorable_of_not_font s.cfg _ x hfont)
  rw [exec_storeRegs_ok x s m hm] at ht
  cases ht
  replace hcfg : u.cfg = s.cfg := hcfg
  replace hmem : u.mem = m := hmem
  rw [← hcfg, ← hi] at hlegal
  refine ⟨_, exec_loadRegs_legal x u hlegal, fun j hj => ?_⟩
  rw [reg_loadRegsState, if_pos hj, State.readByte, hcfg, hmem, hi]
  exact storeBlock_regBlock_memByte s x j m hm hj (hfont j hj)

end Sys2Proof.Machine
end

section
/-! SUPPORT. `LoadProgram` (70_reset_and_hazards.md R151 to R153): the bytes of memory after a load that fits, the load
of the empty program, the refusal; O56 and O57. -/

namespace Sys2Proof.Machine

theorem hostStep_loadProgram_too_large (bytes : List Byte) (s : State) (hb : progMax < bytes.length) :
    hostStep (.loadProgram bytes) s = .next (.result (.programTooLarge bytes.length), s) := by
  rw [hostStep, loadProgram, if_pos hb]

/-! ## The bytes of memory after a load (R152) -/

theorem loadReset_readByte (bytes : List Byte) (s : State) (a : Nat) :
    (loadReset bytes s).readByte a =
      memByte s.cfg (memFill s.cfg (memFill s.cfg s.mem s.cfg.fontBase s.cfg.fontData) progBase bytes) a := rfl

/-- The program stands at 0x200 and on. -/
theorem loadReset_readByte_program (bytes : List Byte) (s : State) (k : Nat) (hk : k < bytes.length) :
    (loadReset bytes s).readByte (progBase + k) = bytes[k] := by
  rw [loadReset_readByte, memByte_fill_at _ _ _ _ _ hk]

/-- Outside the font and the program every byte is as before. -/
theorem loadReset_readByte_other (bytes : List Byte) (s : State) (hc : s.cfg.WellFormed) (a : Nat)
    (hfont : isFont s.cfg a = false) (ha : a < progBase ∨ progBase + bytes.length ≤ a) :
    (loadReset bytes s).readByte a = s.readByte a := by
  obtain ⟨_, hlen⟩ := hc
  have hout : a < s.cfg.fontBase ∨ s.cfg.fontBase + s.cfg.fontData.length ≤ a := by
    rw [isFont, decide_eq_false_iff_not] at hfont
    omega
  rw [loadReset_readByte, memByte_fill_other _ _ _ _ _ ha, memByte_fill_other _ _ _ _ _ hout, State.readByte]

/-- Settles O56: the refusal, or the reset with its program, its font and the bytes it keeps. -/
theorem loadProgramResetsTheCoreOrRefuses : Obligations.LoadProgramResetsTheCoreOrRefuses := by
  unfold Obligations.LoadProgramResetsTheCoreOrRefuses
  refine fun s bytes hc => ⟨hostStep_loadProgram_too_large bytes s, fun hb => ?_⟩
  exact ⟨_, hostStep_loadProgram_fits bytes s hb, rfl, fun j => Vector.getElem_replicate j.isLt, rfl, rfl,
    fun _ hk => Vector.getElem_replicate hk, rfl, rfl, fun _ hk => Vector.getElem_replicate hk, rfl, rfl, rfl, rfl, rfl,
    loadReset_readByte_program bytes s, loadReset_fontIntact bytes s hc, loadReset_readByte_other bytes s hc⟩

/-! ## The empty program on a new core (R151; 10_state.md R34) -/

/-- Storing what unlisted addresses hold lists nothing in an empty memory (log entry 2). -/
theorem memFill_nil_of_unlisted (c : Config) (bs : List Byte) (a : Nat)
    (h : ∀ (j : Nat) (hj : j < bs.length), unlisted c (a + j) = some bs[j]) : memFill c [] a bs = [] := by
  induction bs generalizing a with
  | nil => rfl
  | cons b bs ih =>
    have hfirst : unlisted c a = some b := h 0 (Nat.succ_pos _)
    rw [memFill, memSet, if_pos hfirst, memErase]
    refine ih (a + 1) fun j hj => ?_
    rw [Nat.add_right_comm]
    exact h (j + 1) (Nat.succ_lt_succ hj)

/-- A font address holds its byte of `FONT_DATA` unless something is listed there (20_memory.md R38). -/
theorem unlisted_font (c : Config) (hc : c.WellFormed) (j : Nat) (hj : j < c.fontData.length) :
    unlisted c (c.fontBase + j) = some c.fontData[j] := by
  rw [unlisted, if_pos (isFont_of_lt c hc j hj), Nat.add_sub_cancel_left, List.getElem?_eq_getElem hj]

/-- The empty program on a new core changes `Loaded` only: the font is in place already. -/
theorem loadReset_nil_constructedWith (c : Config) (hc : c.WellFormed) :
    loadReset [] (State.constructedWith c) = State.resetWith c := by
  have hfont : memFill c [] c.fontBase c.fontData = [] := memFill_nil_of_unlisted c _ _ (unlisted_font c hc)
  calc loadReset [] (State.constructedWith c)
      = { State.resetWith c with mem := memFill c [] c.fontBase c.fontData } := rfl
    _ = State.resetWith c := by rw [hfont]; rfl

/-- Settles O57: the load by `loadReset_nil_constructedWith`, the constructed core as it is named. -/
theorem resetIsTheLoadOfTheEmptyProgram : Obligations.ResetIsTheLoadOfTheEmptyProgram := by
  unfold Obligations.ResetIsTheLoadOfTheEmptyProgram
  refine ⟨?_, rfl, fun k => Vector.getElem_replicate k.isLt⟩
  rw [hostStep_loadProgram_fits [] _ (Nat.zero_le _), State.constructed,
    loadReset_nil_constructedWith Config.spec (by decide)]
  rfl

end Sys2Proof.Machine
end
